-- ==== Sys2Proof/Word.lean ====
section
/-! DEFINITION. The word types of SBCORE (`00_scope.md` R12, R13): the widths the spec names, as bit
vectors. Intermediates of a rule are mathematical integers; only what is stored has a width. -/

namespace Sys2Proof

/-- A u8: an element of `ACCEL` or `FRAMEBUF`, an operation word, the data of DMAWR. -/
abbrev Byte := BitVec 8

/-- A u16 or s16: an element of the sample memories, a result register, an analog reading. -/
abbrev Half := BitVec 16

/-- A u32 or s32: the operand of ISQRT and FSQRT, `DEC_ACC`, `AVG`. -/
abbrev Word := BitVec 32

end Sys2Proof
end

