-- ==== Sys2Proof/Syntax.lean ====
section
/-! DEFINITION. The operations of SBCORE (`30_encoding.md` R93), one constructor per row of
`spec/opcode_table.json`, their ports (`00_scope.md` R7), and the request that carries one (R90, R91). -/

namespace Sys2Proof

/-- The five ports of `00_scope.md` R7. -/
inductive Port where
  | au
  | cap
  | ml
  | bus
  | dma
  deriving DecidableEq, Repr

/-- `an[0..5]` of operand format `S` (R91): the readings of the remaining analog channels. -/
structure Analog where
  an0 : Half
  an1 : Half
  an2 : Half
  an3 : Half
  an4 : Half
  an5 : Half
  deriving DecidableEq, Repr

/-- The six readings in channel order. -/
def Analog.toList (a : Analog) : List Half := [a.an0, a.an1, a.an2, a.an3, a.an4, a.an5]

/-- The operations with their operands (R91, R93). -/
inductive Instr where
  | isqrt (x : Word)
  | fsqrt (x : Word)
  | fft (m : BitVec 5) (inv : Bool) (re im : List Half)
  | sample (raw : Half) (an : Analog)
  | take
  | anlo
  | anhi
  | encode
  | poll
  | reinit
  | rdmode
  | busirq (b : BitVec 6)
  | dmawr (b : Byte)
  | dmadone
  deriving DecidableEq, Repr

/-- The operand formats of R91. -/
inductive Format where
  | n
  | w
  | f
  | s
  | b
  deriving DecidableEq, Repr

/-- The names of the operations, without operands: the rows of R93. -/
inductive Op where
  | isqrt
  | fsqrt
  | fft
  | sample
  | take
  | anlo
  | anhi
  | encode
  | poll
  | reinit
  | rdmode
  | busirq
  | dmawr
  | dmadone
  deriving DecidableEq, Repr

/-- The row of an operation. -/
def Instr.op : Instr → Op
  | .isqrt _ => .isqrt
  | .fsqrt _ => .fsqrt
  | .fft _ _ _ _ => .fft
  | .sample _ _ => .sample
  | .take => .take
  | .anlo => .anlo
  | .anhi => .anhi
  | .encode => .encode
  | .poll => .poll
  | .reinit => .reinit
  | .rdmode => .rdmode
  | .busirq _ => .busirq
  | .dmawr _ => .dmawr
  | .dmadone => .dmadone

/-- Why a request is illegal (`30_encoding.md` R94 to R97). -/
inductive Illegal where
  /-- the word is not in the operation map (R95) -/
  | unassignedWord
  /-- the word's port field is not the port the request arrived on (R94) -/
  | wrongPort
  /-- the operand record does not have the length of the word's format (log entry 10) -/
  | operandLength
  /-- a reserved operand bit is set (R96) -/
  | reservedBit
  /-- the arrays do not have `2^m` elements, or stand beside a format that has none (log entry 11) -/
  | arrayLength
  /-- FFT with `m = 0` or `2^m > FFT_MAX` (R96) -/
  | fftLength
  deriving DecidableEq, Repr

/-- A request as it arrives: the port it arrives on, the operation word, the operand record as bytes
(record bit `i` is bit `i mod 8` of byte `i / 8`, log entry 10), and the two arrays of the AU array
interface. -/
structure Request where
  port : Port
  word : Byte
  operand : List Byte
  re : List Half
  im : List Half
  deriving DecidableEq, Repr

/-- What the environment presents next: a request on a port, or one increment of the millisecond
counter (`10_state.md` R31). -/
inductive Event where
  | request (r : Request)
  | tick
  deriving DecidableEq, Repr

end Sys2Proof
end

