-- ==== Sys2Proof/Decode.lean ====
section
/-! DEFINITION. From a request to an operation and back (`30_encoding.md` R90 to R97): the operation
map, the operand formats, the decoder, and the encoder written from the same tables. -/

namespace Sys2Proof

/-- The value of the `port` field (R90). -/
def Port.number : Port → BitVec 4
  | .au => 0
  | .cap => 1
  | .ml => 2
  | .bus => 3
  | .dma => 4

/-- Word bits 7:4 (R90). -/
def portField (word : Byte) : BitVec 4 := word.extractLsb' 4 4

/-- The operation map (R93): the word of each row. -/
def Op.word : Op → Byte
  | .isqrt => 0x00
  | .fsqrt => 0x01
  | .fft => 0x02
  | .sample => 0x10
  | .take => 0x20
  | .anlo => 0x21
  | .anhi => 0x22
  | .encode => 0x23
  | .poll => 0x24
  | .reinit => 0x25
  | .rdmode => 0x26
  | .busirq => 0x30
  | .dmawr => 0x40
  | .dmadone => 0x41

/-- The operation map read the other way; every word outside it is illegal (R95). -/
def Op.ofWord (word : Byte) : Option Op :=
  match word.toNat with
  | 0x00 => some .isqrt
  | 0x01 => some .fsqrt
  | 0x02 => some .fft
  | 0x10 => some .sample
  | 0x20 => some .take
  | 0x21 => some .anlo
  | 0x22 => some .anhi
  | 0x23 => some .encode
  | 0x24 => some .poll
  | 0x25 => some .reinit
  | 0x26 => some .rdmode
  | 0x30 => some .busirq
  | 0x40 => some .dmawr
  | 0x41 => some .dmadone
  | _ => none

/-- The operand format of each row (R93). -/
def Op.format : Op → Format
  | .isqrt | .fsqrt => .w
  | .fft => .f
  | .sample => .s
  | .busirq | .dmawr => .b
  | .take | .anlo | .anhi | .encode | .poll | .reinit | .rdmode | .dmadone => .n

/-- The port of each row (R93). -/
def Op.port : Op → Port
  | .isqrt | .fsqrt | .fft => .au
  | .sample => .cap
  | .take | .anlo | .anhi | .encode | .poll | .reinit | .rdmode => .ml
  | .busirq => .bus
  | .dmawr | .dmadone => .dma

/-- Bytes of the operand record of each format (R91): 0, 32, 9, 112 and 8 bits, the 9 bits of `F`
padded with zeros to 16 (log entry 10). -/
def Format.bytes : Format → Nat
  | .n => 0
  | .w => 4
  | .f => 2
  | .s => 14
  | .b => 1

/-- The operand record as one number, bit 0 its least significant bit (R12, R91). -/
def recordNat : List Byte → Nat
  | [] => 0
  | b :: bs => b.toNat + 256 * recordNat bs

/-- The `n` bytes of a record given as a number. -/
def recordBytes : Nat → Nat → List Byte
  | 0, _ => []
  | n + 1, v => BitVec.ofNat 8 v :: recordBytes n (v / 256)

/-- `operand[lo + w - 1 : lo]`. -/
def recordField (v lo w : Nat) : BitVec w := BitVec.ofNat w (v / 2 ^ lo)

/-- Format `F`: `m` = operand[4:0], `inv` = operand[8], bits 7:5 zero (R91, R96); the padding above
bit 8 is zero too. -/
def decodeFft (v : Nat) (re im : List Half) : Except Illegal Instr :=
  let m : BitVec 5 := recordField v 0 5
  if (recordField v 5 3 : BitVec 3) != 0 || (recordField v 9 7 : BitVec 7) != 0 then
    .error .reservedBit
  else if re.length == 2 ^ m.toNat && im.length == 2 ^ m.toNat then
    .ok (.fft m ((recordField v 8 1 : BitVec 1) == 1) re im)
  else .error .arrayLength

/-- Format `S`: `raw` = operand[15:0], `an[k]` = operand[31+16k : 16+16k] (R91). -/
def decodeSample (v : Nat) : Instr :=
  .sample (recordField v 0 16)
    { an0 := recordField v 16 16
      an1 := recordField v 32 16
      an2 := recordField v 48 16
      an3 := recordField v 64 16
      an4 := recordField v 80 16
      an5 := recordField v 96 16 }

/-- BUSIRQ `b[7:6]` are reserved (R96, R100). -/
def decodeBusirq (v : Nat) : Except Illegal Instr :=
  if (recordField v 6 2 : BitVec 2) != 0 then .error .reservedBit
  else .ok (.busirq (recordField v 0 6))

/-- The operand record `v` of a row, with the arrays beside it (R91). -/
def decodeOperands (o : Op) (v : Nat) (re im : List Half) : Except Illegal Instr :=
  match o with
  | .fft => decodeFft v re im
  | .isqrt => .ok (.isqrt (recordField v 0 32))
  | .fsqrt => .ok (.fsqrt (recordField v 0 32))
  | .sample => .ok (decodeSample v)
  | .take => .ok .take
  | .anlo => .ok .anlo
  | .anhi => .ok .anhi
  | .encode => .ok .encode
  | .poll => .ok .poll
  | .reinit => .ok .reinit
  | .rdmode => .ok .rdmode
  | .busirq => decodeBusirq v
  | .dmawr => .ok (.dmawr (recordField v 0 8))
  | .dmadone => .ok .dmadone

/-- The operation of a request, or why it is illegal (R90 to R96). -/
def decode (r : Request) : Except Illegal Instr :=
  match Op.ofWord r.word with
  | none => .error .unassignedWord
  | some o =>
    if portField r.word != r.port.number then .error .wrongPort
    else if r.operand.length != o.format.bytes then .error .operandLength
    else if o != .fft && !(r.re.isEmpty && r.im.isEmpty) then .error .arrayLength
    else decodeOperands o (recordNat r.operand) r.re r.im

/-- The operand record of an operation as a number (R91). -/
def operandNat : Instr → Nat
  | .isqrt x | .fsqrt x => x.toNat
  | .fft m inv _ _ => m.toNat + (if inv then 2 ^ 8 else 0)
  | .sample raw an =>
    raw.toNat + 2 ^ 16 * an.an0.toNat + 2 ^ 32 * an.an1.toNat + 2 ^ 48 * an.an2.toNat
      + 2 ^ 64 * an.an3.toNat + 2 ^ 80 * an.an4.toNat + 2 ^ 96 * an.an5.toNat
  | .busirq b => b.toNat
  | .dmawr b => b.toNat
  | .take | .anlo | .anhi | .encode | .poll | .reinit | .rdmode | .dmadone => 0

/-- The real array a request of this operation carries. -/
def arrayRe : Instr → List Half
  | .fft _ _ re _ => re
  | .isqrt _ | .fsqrt _ | .sample _ _ | .take | .anlo | .anhi | .encode | .poll | .reinit | .rdmode
  | .busirq _ | .dmawr _ | .dmadone => []

/-- The imaginary array a request of this operation carries. -/
def arrayIm : Instr → List Half
  | .fft _ _ _ im => im
  | .isqrt _ | .fsqrt _ | .sample _ _ | .take | .anlo | .anhi | .encode | .poll | .reinit | .rdmode
  | .busirq _ | .dmawr _ | .dmadone => []

/-- The request that carries an operation (R90, R91, R93). -/
def encode (i : Instr) : Request where
  port := i.op.port
  word := i.op.word
  operand := recordBytes i.op.format.bytes (operandNat i)
  re := arrayRe i
  im := arrayIm i

/-- The port a word names; an unassigned port number (R90) is presented on AU, where the word is
refused all the same. -/
def portOfWord (word : Byte) : Port :=
  match (portField word).toNat with
  | 1 => .cap
  | 2 => .ml
  | 3 => .bus
  | 4 => .dma
  | _ => .au

/-- The request whose bits are `w`, the word in bits 7:0 and the operand record from bit 8 on; bits
from `nbits` on are 0, and so are the elements of the arrays of FFT. -/
def requestOfBits (nbits w : Nat) : Request :=
  let v := w % 2 ^ nbits
  let word : Byte := BitVec.ofNat 8 v
  let record := v / 256
  let o := Op.ofWord word
  let zeros : List Half := if o = some .fft then List.replicate (2 ^ (record % 32)) 0 else []
  { port := portOfWord word
    word := word
    operand := recordBytes ((o.map (fun o => o.format.bytes)).getD 0) record
    re := zeros
    im := zeros }

/-- The instruction the decoder reads from the bits of a row of `spec/opcode_table.json`. -/
def decodeTableWord (nbits w : Nat) : Option Instr := (decode (requestOfBits nbits w)).toOption

end Sys2Proof
end

