-- ==== Sys2Proof/Config.lean ====
section
/-! DEFINITION. The configuration of SBCORE (`00_scope.md` R9): every size, shift, table and bus
address the spec leaves as a parameter, the functions it leaves open, and the free values. The
constraints of R9 and R10 are in `Machine/ConfigCheck.lean`. -/

namespace Sys2Proof

/-- `FSQRT_ROUND` of R9. -/
inductive Rounding where
  | floor
  | nearest
  deriving DecidableEq, Repr

/-- `EXP_AGG` of R9: the aggregate of the exponential policy. -/
inductive Aggregate where
  | max
  | mean
  deriving DecidableEq, Repr

/-- `BYTE_ORDER` of R9 (`20_memory.md` R64). -/
inductive ByteOrder where
  | little
  | big
  deriving DecidableEq, Repr

/-- One stated value of a transform (`41_fft.md` R148): what it returns for these arrays. -/
structure FftRow where
  m : Nat
  inv : Bool
  re : List Half
  im : List Half
  outRe : List Half
  outIm : List Half
  scale : BitVec 5
  deriving DecidableEq, Repr

/-- The configuration function `FFT` (`41_fft.md` R140, R148): the reference `FFT_REF` of R150 to
R152, or a transform which accepts lengths up to `fftMax` and about which nothing is assumed but the
values stated (log entry 8). -/
inductive Transform where
  | reference
  | external (fftMax : Nat) (stated : List FftRow)
  deriving DecidableEq, Repr

/-- What a model does where the spec writes `fault FsqrtDomain`, `fault MagOverflow` or
`fault FrameNotOwned` (`60_exceptions.md` R320): the fault the spec gives a model, or what it says of
the hardware there (R128, R199: an unspecified value; R352: no test is made). DESIGN CHOICE, log
entry 7. -/
inductive Undefined where
  | fault
  | run
  deriving DecidableEq, Repr

/-- The parameters of `00_scope.md` R9. A length that must be a power of two is given by its
logarithm. -/
structure Config where
  /-- `SAMPLE_RATE` -/
  sampleRate : Nat
  /-- `M_HIGH` -/
  mHigh : Nat
  /-- `M_LOW` -/
  mLow : Nat
  /-- `K` -/
  k : Nat
  /-- `RAW_BITS` -/
  rawBits : Nat
  /-- `DC_FRAC` -/
  dcFrac : Nat
  /-- `DC_SHIFT` -/
  dcShift : Nat
  /-- `FSQRT_FRAC` -/
  fsqrtFrac : Nat
  /-- `FSQRT_ROUND` -/
  fsqrtRound : Rounding
  /-- `MAG_SHIFT` -/
  magShift : Nat
  /-- log2 of `TABLE_PERIOD` -/
  logPeriod : Nat
  /-- `SINE_BITS` -/
  sineBits : Nat
  /-- `WINDOW_SHIFT` -/
  windowShift : Nat
  /-- `SINE(0) .. SINE(P - 1)` as a table (`41_fft.md` R143) -/
  sineTable : List Half
  /-- `FFT` -/
  transform : Transform
  /-- `LOW_BAND_MAP` -/
  lowBandMap : List Nat
  /-- `LOW_FIRST_BIN` -/
  lowFirstBin : Nat
  /-- `EXP_GROWTH` -/
  expGrowth : Nat
  /-- `EXP_AGG` -/
  expAgg : Aggregate
  /-- `BYTE_ORDER` -/
  byteOrder : ByteOrder
  /-- `ACC_ADDR` -/
  accAddr : BitVec 7
  /-- `ACC_REG` -/
  accReg : Byte
  /-- `ACC_AUTOINC` -/
  accAutoinc : Byte
  /-- `MS_TICK_BITS` -/
  msTickBits : Nat
  /-- not a parameter of R9: log entry 7 -/
  undefinedAs : Undefined
  deriving DecidableEq, Repr

/-- `N_HIGH` -/
def Config.nHigh (c : Config) : Nat := 2 ^ c.mHigh

/-- `N_LOW` -/
def Config.nLow (c : Config) : Nat := 2 ^ c.mLow

/-- `TABLE_PERIOD`, written P -/
def Config.period (c : Config) : Nat := 2 ^ c.logPeriod

/-- `FFT_MAX` (`41_fft.md` R141): the table's period for the reference. -/
def Config.fftMax (c : Config) : Nat :=
  match c.transform with
  | .reference => c.period
  | .external n _ => n

/-- `ANALOG_SHIFT` = 16 - `RAW_BITS` -/
def Config.analogShift (c : Config) : Nat := 16 - c.rawBits

/-- `N_ANALOG` -/
def nAnalog : Nat := 6
/-- `NB_LOW` -/
def nbLow : Nat := 6
/-- `NB_HIGH` -/
def nbHigh : Nat := 26
/-- `ACC_BYTES` -/
def accBytes : Nat := 6
/-- `FRAME_LEN` -/
def frameLen : Nat := 96

/-! Free values: functions with no body, so that nothing can be proved of their values. -/

/-- Element `i` of the real part that an external transform of length `2^m` returns where none is stated
(`41_fft.md` R142 (a): a total function of the arrays, `m`, `inv` and the configuration). -/
opaque Config.externalFftRe (c : Config) (m : Nat) (inv : Bool) (re im : List Half) (i : Nat) : Half

/-- Element `i` of the imaginary part of the same. -/
opaque Config.externalFftIm (c : Config) (m : Nat) (inv : Bool) (re im : List Half) (i : Nat) : Half

/-- The `scale` result of the same (R145). -/
opaque Config.externalFftScale (c : Config) (m : Nat) (inv : Bool) (re im : List Half) : BitVec 5

/-- The unspecified value the hardware returns for FSQRT of a negative operand (`40_sqrt.md` R128);
read only under `Undefined.run` (log entry 7). -/
opaque Config.fsqrtOfNegative (c : Config) (x : Word) : Word

/-- The unspecified magnitude of bin `k` of a pass of length `n` whose sum of squares is `2^31`
(`43_analysis.md` R199); read only under `Undefined.run` (log entry 7). -/
opaque Config.overflowMagnitude (c : Config) (n k : Nat) : Half

/-- What `window` stores at element `i` of a buffer of `n` elements for the sample `x` when the shifted
product is outside s16, a value R194 does not state (log entry 22). -/
opaque Config.windowOutside (c : Config) (n i : Nat) (x : Half) : Half

/-- `PEAK_IDX` when the peak's index is outside u16 (`10_state.md` R42; log entry 22). -/
opaque Config.peakIndexOutside (c : Config) (idx : Nat) : Half

/-- `PEAK_HZ` when the frequency of the bin is outside u16 (`43_analysis.md` R222; log entry 22). -/
opaque Config.peakHertzOutside (c : Config) (idx : Half) : Half

/-! The default configuration (log entries 2, 8, 9). -/

/-- `SINE(0) .. SINE(256)` by the formula of `41_fft.md` R143 with P = 1024, `SINE_BITS` = 15.
PRESUMED, log entry 9. -/
def sineQuarter : List Nat :=
  [0, 201, 402, 603, 804, 1005, 1206, 1407,
   1608, 1809, 2009, 2210, 2410, 2611, 2811, 3012,
   3212, 3412, 3612, 3811, 4011, 4210, 4410, 4609,
   4808, 5007, 5205, 5404, 5602, 5800, 5998, 6195] ++
  [6393, 6590, 6786, 6983, 7179, 7375, 7571, 7767,
   7962, 8157, 8351, 8545, 8739, 8933, 9126, 9319,
   9512, 9704, 9896, 10087, 10278, 10469, 10659, 10849,
   11039, 11228, 11417, 11605, 11793, 11980, 12167, 12353] ++
  [12539, 12725, 12910, 13094, 13279, 13462, 13645, 13828,
   14010, 14191, 14372, 14553, 14732, 14912, 15090, 15269,
   15446, 15623, 15800, 15976, 16151, 16325, 16499, 16673,
   16846, 17018, 17189, 17360, 17530, 17700, 17869, 18037] ++
  [18204, 18371, 18537, 18703, 18868, 19032, 19195, 19357,
   19519, 19680, 19841, 20000, 20159, 20317, 20475, 20631,
   20787, 20942, 21096, 21250, 21403, 21554, 21705, 21856,
   22005, 22154, 22301, 22448, 22594, 22739, 22884, 23027] ++
  [23170, 23311, 23452, 23592, 23731, 23870, 24007, 24143,
   24279, 24413, 24547, 24680, 24811, 24942, 25072, 25201,
   25329, 25456, 25582, 25708, 25832, 25955, 26077, 26198,
   26319, 26438, 26556, 26674, 26790, 26905, 27019, 27133] ++
  [27245, 27356, 27466, 27575, 27683, 27790, 27896, 28001,
   28105, 28208, 28310, 28411, 28510, 28609, 28706, 28803,
   28898, 28992, 29085, 29177, 29268, 29358, 29447, 29534,
   29621, 29706, 29791, 29874, 29956, 30037, 30117, 30195] ++
  [30273, 30349, 30424, 30498, 30571, 30643, 30714, 30783,
   30852, 30919, 30985, 31050, 31113, 31176, 31237, 31297,
   31356, 31414, 31470, 31526, 31580, 31633, 31685, 31736,
   31785, 31833, 31880, 31926, 31971, 32014, 32057, 32098] ++
  [32137, 32176, 32213, 32250, 32285, 32318, 32351, 32382,
   32412, 32441, 32469, 32495, 32521, 32545, 32567, 32589,
   32609, 32628, 32646, 32663, 32678, 32692, 32705, 32717,
   32728, 32737, 32745, 32752, 32757, 32761, 32765, 32766] ++
  [32767]

/-- The whole period of the same table, by the symmetries of the sine (R144). -/
def sineDefault : List Half :=
  let q := sineQuarter.map (fun v => (v : Int))
  let half := q.take 256 ++ (q.reverse.take 256)
  (half ++ half.map (fun v => -v)).map (BitVec.ofInt 16)

/-- The configuration at `State.reset`: the example of `95_test_vectors.md` P5, which is well-formed.
DESIGN CHOICE, log entry 2. -/
def Config.default : Config where
  sampleRate := 20000
  mHigh := 8
  mLow := 5
  k := 8
  rawBits := 12
  dcFrac := 8
  dcShift := 4
  fsqrtFrac := 8
  fsqrtRound := .floor
  magShift := 4
  logPeriod := 10
  sineBits := 15
  windowShift := 15
  sineTable := sineDefault
  transform := .reference
  lowBandMap := [1, 2, 3, 5, 8, 15]
  lowFirstBin := 1
  expGrowth := 73204
  expAgg := .max
  byteOrder := .little
  accAddr := 0x19
  accReg := 0x28
  accAutoinc := 0x80
  msTickBits := 32
  undefinedAs := .fault

end Sys2Proof
end

