-- ==== Sys2Proof/Machine/State.lean ====
section
/-! DEFINITION. The state of SBCORE (`10_state.md` R20 to R51, `20_memory.md` R60), the reasons a step
can stop (`60_exceptions.md` R320, R321), the output commands (`30_encoding.md` R104), the result
record (R92), and the machine after reset. Plain data. -/

namespace Sys2Proof.Machine

/-- `MODE`, the transaction state (`10_state.md` R25); its codes are `modeCode` (log entry 18). -/
inductive Mode where
  | idle
  | starting
  | sendingRegister
  | reading
  | stopping
  | needsReset
  deriving DecidableEq, Repr

/-- One of the two sides of `HIGH`, the values 0 and 1 of `ACTIVE` (R28). -/
inductive Side where
  | side0
  | side1
  deriving DecidableEq, Repr

/-- `1 - side` (R28). -/
def Side.other : Side → Side
  | .side0 => .side1
  | .side1 => .side0

/-- The output commands of `30_encoding.md` R104. -/
inductive Command where
  | busStartWrite (addr : BitVec 7) (count : Byte)
  | busSendByte (value : Byte)
  | busStartRead (addr : BitVec 7) (count : Byte)
  | busStop
  | irqAck (mask : BitVec 6)
  | deviceInit
  | transportSend (bytes : List Byte)
  deriving DecidableEq, Repr

/-- The result record of `30_encoding.md` R92: `none` before the first operation completes, `empty`
for the operations whose result is empty. -/
inductive Result where
  | none
  | empty
  | isqrt (y : Half)
  | fsqrt (y : Word)
  | fft (re im : List Half) (scale : BitVec 5)
  | take (taken : Bool) (side : Side)
  | rdmode (mode : BitVec 3)
  deriving DecidableEq, Repr

/-- The faults of a model (`60_exceptions.md` R320): the run stops, nothing is claimed of what the
hardware does from there, no architectural state changes. -/
inductive Fault where
  /-- raised by FSQRT for a negative operand under `Undefined.fault` (`40_sqrt.md` R128); safe -/
  | fsqrtDomain
  /-- raised by ANLO, ANHI for a bin with `re² + im² = 2^31` under `Undefined.fault`
  (`43_analysis.md` R199); safe -/
  | magOverflow
  /-- raised by ANLO, ANHI, ENCODE with `OWN = 0` under `Undefined.fault`
  (`70_reset_and_hazards.md` R352, R354); safe -/
  | frameNotOwned
  /-- raised by a memory access outside its memory (`20_memory.md` R69); no reachable state; safe -/
  | indexRange
  /-- raised by a read of an element of `IMAG` or `FRAMEBUF` that nothing has written
  (`10_state.md` R51); no operation performs one; safe -/
  | unwrittenRead
  deriving DecidableEq, Repr

/-- The refusals of a model (`60_exceptions.md` R321): the request never starts. -/
inductive Refusal where
  /-- raised by an arm of `exec` whose instruction has no meaning yet (no arm is one); safe -/
  | notModelled (mnemonic : String)
  /-- raised by `step` for a request the decoder finds illegal, and by FFT for a length out of range
  (`30_encoding.md` R94 to R97); safe -/
  | illegalRequest (why : Illegal)
  /-- raised by `step` under a configuration that breaks a constraint every operation reads
  (`00_scope.md` R9, R10); safe -/
  | illFormedConfig
  /-- raised by ANLO under a configuration that breaks a constraint ANLO reads (R10); safe -/
  | illFormedForAnlo
  /-- raised by ANHI under a configuration that breaks a constraint ANHI reads (R10); safe -/
  | illFormedForAnhi
  deriving DecidableEq, Repr

/-- A memory space of `w`-bit elements (`20_memory.md` R60): the elements that differ from what an
unlisted index reads as, by strictly rising index. `Mem 8` is `List Host.Cell` (log entry 6). -/
abbrev Mem (w : Nat) := List (Nat × BitVec w)

/-- The state of SBCORE. -/
structure State where
  /-- the configuration, written by no operation (`00_scope.md` R9, log entry 2) -/
  cfg : Config
  /-- `MODE` -/
  mode : Mode
  /-- `IRQEN`: bit 0 TXIE, 1 TCIE, 2 STOPIE, 3 ERRIE -/
  irqen : BitVec 4
  /-- `FRAME_READY` -/
  frameReady : Bool
  /-- `ACTIVE` -/
  active : Side
  /-- `DMA_CNT` -/
  dmaCnt : BitVec 3
  /-- `DMA_TCIF` -/
  dmaTcif : Bool
  /-- `MS_TICK` -/
  msTick : Nat
  /-- `WRITE_POS` -/
  writePos : Nat
  /-- `HEAD` -/
  head : Nat
  /-- `DEC_ACC` -/
  decAcc : Word
  /-- `DEC_CNT` -/
  decCnt : Nat
  /-- `AVG` -/
  avg : Word
  /-- `LOWBAND[0..5]` -/
  lowBand : Vector Half 6
  /-- `HIGHBAND[0..25]` -/
  highBand : Vector Half 26
  /-- `ENERGY` -/
  energy : Half
  /-- `ENERGY_LO` -/
  energyLo : Half
  /-- `PEAK_MAG` -/
  peakMag : Half
  /-- `PEAK_IDX` -/
  peakIdx : Half
  /-- `PEAK_HZ` -/
  peakHz : Half
  /-- the ghost bit `OWN` -/
  own : Bool
  /-- `HIGH`, side 0 -/
  high0 : Mem 16
  /-- `HIGH`, side 1 -/
  high1 : Mem 16
  /-- `RING` -/
  ring : Mem 16
  /-- `LOWSNAP` -/
  lowSnap : Mem 16
  /-- `IMAG` -/
  imag : Mem 16
  /-- `ANALOG_SNAP` -/
  analogSnap : Mem 16
  /-- `ACCEL` -/
  accel : Mem 8
  /-- `FRAMEBUF` -/
  frameBuf : Mem 8
  /-- the output command stream, oldest first -/
  commands : List Command
  /-- the result record of the last completed operation -/
  result : Result
  /-- the events still to be presented, in their total order -/
  inbox : List Event
  deriving DecidableEq, Repr

/-- Reset of a block with configuration `c` (`10_state.md` R51, `70_reset_and_hazards.md` R340).
`MS_TICK` has no stated value: DESIGN CHOICE 0, log entry 4. -/
def State.resetWith (c : Config) : State where
  cfg := c
  mode := .needsReset
  irqen := 0
  frameReady := false
  active := .side0
  dmaCnt := 0
  dmaTcif := false
  msTick := 0
  writePos := 0
  head := 0
  decAcc := 0
  decCnt := 0
  avg := 0
  lowBand := Vector.replicate 6 0
  highBand := Vector.replicate 26 0
  energy := 0
  energyLo := 0
  peakMag := 0
  peakIdx := 0
  peakHz := 0
  own := false
  high0 := []
  high1 := []
  ring := []
  lowSnap := []
  imag := []
  analogSnap := []
  accel := []
  frameBuf := []
  commands := []
  result := .none
  inbox := []

/-- The machine right after reset, under the default configuration (log entry 2). -/
def State.reset : State := State.resetWith Config.default

end Sys2Proof.Machine
end

