-- ==== Sys2Proof/Machine/Flags.lean ====
section
/-! DEFINITION. The flags of SBCORE: the bus conditions of BUSIRQ (`30_encoding.md` R100, R101) and the
bits of `IRQEN` (`10_state.md` R26). There are no arithmetic flags (R48). -/

namespace Sys2Proof.Machine

/-- `TXRDY`, bit 0 -/
def txRdy (b : BitVec 6) : Bool := b.getLsbD 0
/-- `TC`, bit 1 -/
def tc (b : BitVec 6) : Bool := b.getLsbD 1
/-- `STOPF`, bit 2 -/
def stopF (b : BitVec 6) : Bool := b.getLsbD 2
/-- `NACK`, bit 3 -/
def nack (b : BitVec 6) : Bool := b.getLsbD 3
/-- `ARLO`, bit 4 -/
def arLo (b : BitVec 6) : Bool := b.getLsbD 4
/-- `BERR`, bit 5 -/
def bErr (b : BitVec 6) : Bool := b.getLsbD 5

/-- `ERRMASK` (R101) -/
def errMask : BitVec 6 := 0x38
/-- `PROGMASK` (R101) -/
def progMask : BitVec 6 := 0x07
/-- The mask of `STOPF` alone, acknowledged when it is consumed (`45_transaction.md` R268 (c)). -/
def stopMask : BitVec 6 := 0x04

/-- `IRQEN.TXIE` -/
def txie (e : BitVec 4) : Bool := e.getLsbD 0
/-- `IRQEN.TCIE` -/
def tcie (e : BitVec 4) : Bool := e.getLsbD 1
/-- `IRQEN.STOPIE` -/
def stopie (e : BitVec 4) : Bool := e.getLsbD 2
/-- `IRQEN.ERRIE` -/
def errie (e : BitVec 4) : Bool := e.getLsbD 3

/-- `IRQEN.TXIE <- 1` -/
def setTxie (e : BitVec 4) : BitVec 4 := e ||| 0x1
/-- `IRQEN.TXIE <- 0` -/
def clearTxie (e : BitVec 4) : BitVec 4 := e &&& 0xE
/-- `IRQEN.TCIE <- 1` -/
def setTcie (e : BitVec 4) : BitVec 4 := e ||| 0x2
/-- `IRQEN.TCIE <- 0` -/
def clearTcie (e : BitVec 4) : BitVec 4 := e &&& 0xD
/-- The value REINIT gives `IRQEN`: STOPIE and ERRIE on, TXIE and TCIE off (`45_transaction.md` R275). -/
def irqenInit : BitVec 4 := 0xC

end Sys2Proof.Machine
end

