-- ==== Sys2Proof/Machine/Memory.lean ====
section
/-! DEFINITION. One memory space as plain data (`20_memory.md` R60, R67, R69): reading and writing
elements, the canonical form, and what an unlisted index reads as (log entries 5 and 6). -/

namespace Sys2Proof.Machine

/-- The element at index `a`; `d` is what an unlisted index reads as (`none`: nothing was written). -/
def Mem.read {w : Nat} (d : Option (BitVec w)) : Mem w → Nat → Option (BitVec w)
  | [], _ => d
  | (k, v) :: rest, a => if a = k then some v else Mem.read d rest a

/-- Writes one element and keeps the canonical form: an element equal to what an unlisted index reads
as is not listed. -/
def Mem.write {w : Nat} (d : Option (BitVec w)) : Mem w → Nat → BitVec w → Mem w
  | [], a, v => if some v = d then [] else [(a, v)]
  | (k, u) :: rest, a, v =>
    if a < k then (if some v = d then (k, u) :: rest else (a, v) :: (k, u) :: rest)
    else if a = k then (if some v = d then rest else (a, v) :: rest)
    else (k, u) :: Mem.write d rest a v

/-- `MemRead(space, base, n)` (`00_scope.md` R15): `none` if an element was never written. -/
def Mem.readN {w : Nat} (d : Option (BitVec w)) (m : Mem w) : Nat → Nat → Option (List (BitVec w))
  | _, 0 => some []
  | base, n + 1 =>
    match Mem.read d m base, Mem.readN d m (base + 1) n with
    | some v, some vs => some (v :: vs)
    | _, _ => none

/-- `MemWrite(space, base, n, v)` (R15). -/
def Mem.writeN {w : Nat} (d : Option (BitVec w)) : Mem w → Nat → List (BitVec w) → Mem w
  | m, _, [] => m
  | m, base, v :: vs => Mem.writeN d (Mem.write d m base v) (base + 1) vs

/-- The canonical form: indices strictly rising, no entry equal to what an unlisted index reads as. -/
abbrev Mem.wf {w : Nat} (d : Option (BitVec w)) (m : Mem w) : Prop :=
  m.Pairwise (fun x y => x.1 < y.1) ∧ ∀ c ∈ m, some c.2 ≠ d

/-- Every listed index is inside a memory of `size` elements. -/
abbrev Mem.within {w : Nat} (size : Nat) (m : Mem w) : Prop := ∀ c ∈ m, c.1 < size

end Sys2Proof.Machine
end

