-- ==== Sys2Proof/Machine/Operands.lean ====
section
/-! DEFINITION. How a value passes between a stored width and a mathematical integer
(`00_scope.md` R13, `46_common_semantics.md` R286, R287), the two byte orders (`20_memory.md` R65, R66)
and the numbers of the register codes. -/

namespace Sys2Proof.Machine

/-- `as_s16(v)` (R13): the low 16 bits as two's complement. -/
def asS16 (v : Int) : Half := BitVec.ofInt 16 v

/-- A u16 result: the low 16 bits; every rule shows its value to fit (R286). -/
def asU16 (v : Nat) : Half := BitVec.ofNat 16 v

/-- What a 16-bit signed place holds after `v` is stored: `v` where it fits, and otherwise `free`, a value
the spec does not state (log entry 22). -/
def fitS16 (free : Half) (v : Int) : Half := if -2 ^ 15 ≤ v ∧ v < 2 ^ 15 then asS16 v else free

/-- The same for a 16-bit unsigned place. -/
def fitU16 (free : Half) (v : Nat) : Half := if v < 2 ^ 16 then asU16 v else free

/-- The bytes of a u16 or s16 at rising offsets (`20_memory.md` R65). -/
def halfBytes (order : ByteOrder) (v : Half) : List Byte :=
  let lo := v.extractLsb' 0 8
  let hi := v.extractLsb' 8 8
  match order with
  | .little => [lo, hi]
  | .big => [hi, lo]

/-- The value stored at two bytes, first the lower offset (R65). -/
def halfOfBytes (order : ByteOrder) (first second : Byte) : Half :=
  match order with
  | .little => second ++ first
  | .big => first ++ second

/-- The numeric encoding of `MODE` (`10_state.md` R25). -/
def modeCode : Mode → BitVec 3
  | .idle => 0
  | .starting => 1
  | .sendingRegister => 2
  | .reading => 3
  | .stopping => 4
  | .needsReset => 5

/-- The command codes of `30_encoding.md` R104. -/
def commandCode : Command → Byte
  | .busStartWrite _ _ => 0x01
  | .busSendByte _ => 0x02
  | .busStartRead _ _ => 0x03
  | .busStop => 0x04
  | .irqAck _ => 0x05
  | .deviceInit => 0x06
  | .transportSend _ => 0x07

end Sys2Proof.Machine
end

