-- ==== Sys2Proof/Machine/Ops.lean ====
section
/-! DEFINITION. The named operations over the registers and the memories of SBCORE: reading and writing
a space (`20_memory.md` R60, R69), emitting a command (`30_encoding.md` R104), the result record (R92),
the register groups each operation writes, the violation entry (`60_exceptions.md` R310) and the return
from it (R313). -/

namespace Sys2Proof.Machine

/-- What an operation answers. -/
abbrev Answer := Host.Outcome State Fault Refusal

/-- An operation that completed with a state, or ended in a fault. -/
def finish : Except Fault State → Answer
  | .ok s => .next s
  | .error f => .fault f

/-! ## Memories -/

/-- The memories of 16-bit elements (`20_memory.md` R60). -/
inductive HalfSpace where
  | high (side : Side)
  | ring
  | lowSnap
  | imag
  | analogSnap
  deriving DecidableEq, Repr

/-- The memories of bytes (R60). -/
inductive ByteSpace where
  | accel
  | frameBuf
  deriving DecidableEq, Repr

/-- Elements of a memory (R60). -/
def HalfSpace.size (c : Config) : HalfSpace → Nat
  | .high _ => c.nHigh
  | .ring => c.nLow
  | .lowSnap => c.nLow
  | .imag => max c.nHigh c.nLow
  | .analogSnap => nAnalog

/-- Bytes of a memory (R60). -/
def ByteSpace.size : ByteSpace → Nat
  | .accel => accBytes
  | .frameBuf => frameLen

/-- What an element reads as that nothing has written since reset (`10_state.md` R51). -/
def HalfSpace.unlisted : HalfSpace → Option Half
  | .high _ | .ring | .lowSnap | .analogSnap => some 0
  | .imag => none

/-- The same for the byte memories (R51). -/
def ByteSpace.unlisted : ByteSpace → Option Byte
  | .accel => some 0
  | .frameBuf => none

/-- The contents of a memory of 16-bit elements. -/
def State.halves (s : State) : HalfSpace → Mem 16
  | .high .side0 => s.high0
  | .high .side1 => s.high1
  | .ring => s.ring
  | .lowSnap => s.lowSnap
  | .imag => s.imag
  | .analogSnap => s.analogSnap

/-- Replaces the contents of a memory of 16-bit elements. -/
def State.setHalves (s : State) (sp : HalfSpace) (m : Mem 16) : State :=
  match sp with
  | .high .side0 => { s with high0 := m }
  | .high .side1 => { s with high1 := m }
  | .ring => { s with ring := m }
  | .lowSnap => { s with lowSnap := m }
  | .imag => { s with imag := m }
  | .analogSnap => { s with analogSnap := m }

/-- The contents of a byte memory. -/
def State.bytes (s : State) : ByteSpace → Mem 8
  | .accel => s.accel
  | .frameBuf => s.frameBuf

/-- Replaces the contents of a byte memory. -/
def State.setBytes (s : State) (sp : ByteSpace) (m : Mem 8) : State :=
  match sp with
  | .accel => { s with accel := m }
  | .frameBuf => { s with frameBuf := m }

/-- `MemRead(sp, base, n)`: fault IndexRange outside the memory (R69), fault UnwrittenRead on an
element never written whose reset value is unspecified (`60_exceptions.md` R320). -/
def readHalves (sp : HalfSpace) (base n : Nat) (s : State) : Except Fault (List Half) :=
  if base + n ≤ sp.size s.cfg then
    match Mem.readN sp.unlisted (s.halves sp) base n with
    | some vs => .ok vs
    | none => .error .unwrittenRead
  else .error .indexRange

/-- `MemWrite(sp, base, n, vs)`: fault IndexRange outside the memory (R69). -/
def writeHalves (sp : HalfSpace) (base : Nat) (vs : List Half) (s : State) : Except Fault State :=
  if base + vs.length ≤ sp.size s.cfg then
    .ok (s.setHalves sp (Mem.writeN sp.unlisted (s.halves sp) base vs))
  else .error .indexRange

/-- `MemRead` of a byte memory. -/
def readBytes (sp : ByteSpace) (base n : Nat) (s : State) : Except Fault (List Byte) :=
  if base + n ≤ sp.size then
    match Mem.readN sp.unlisted (s.bytes sp) base n with
    | some vs => .ok vs
    | none => .error .unwrittenRead
  else .error .indexRange

/-- `MemWrite` of a byte memory. -/
def writeBytes (sp : ByteSpace) (base : Nat) (vs : List Byte) (s : State) : Except Fault State :=
  if base + vs.length ≤ sp.size then
    .ok (s.setBytes sp (Mem.writeN sp.unlisted (s.bytes sp) base vs))
  else .error .indexRange

/-! ## Registers and outputs -/

/-- `emit cmd` (`00_scope.md` R15): appends one command to the output stream. -/
def State.emit (s : State) (cmd : Command) : State := { s with commands := s.commands ++ [cmd] }

/-- The result record an operation returns when it completes (`30_encoding.md` R92). -/
def State.withResult (s : State) (r : Result) : State := { s with result := r }

/-- `MODE <- m` and `IRQEN <- e`. -/
def State.setBus (s : State) (m : Mode) (e : BitVec 4) : State := { s with mode := m, irqen := e }

/-- `DMA_CNT <- n` and `DMA_TCIF <- f`. -/
def State.setDma (s : State) (n : BitVec 3) (f : Bool) : State := { s with dmaCnt := n, dmaTcif := f }

/-- `AVG <- v`. -/
def State.setAvg (s : State) (v : Word) : State := { s with avg := v }

/-- `DEC_ACC <- a`, `DEC_CNT <- n`, `HEAD <- h`. -/
def State.setDecimation (s : State) (a : Word) (n h : Nat) : State :=
  { s with decAcc := a, decCnt := n, head := h }

/-- `WRITE_POS <- p`. -/
def State.setWritePos (s : State) (p : Nat) : State := { s with writePos := p }

/-- `ACTIVE <- a`, `FRAME_READY <- f`, ghost `OWN <- o`. -/
def State.setHandOff (s : State) (a : Side) (f o : Bool) : State :=
  { s with active := a, frameReady := f, own := o }

/-- The registers ANLO writes. -/
def State.setLowResults (s : State) (bands : Vector Half 6) (energy : Half) : State :=
  { s with lowBand := bands, energyLo := energy }

/-- The registers ANHI writes. -/
def State.setHighResults (s : State) (bands : Vector Half 26) (energy mag idx hz : Half) : State :=
  { s with highBand := bands, energy := energy, peakMag := mag, peakIdx := idx, peakHz := hz }

/-- Takes the next event off the queue. -/
def State.setInbox (s : State) (es : List Event) : State := { s with inbox := es }

/-- One increment of the free-running counter `MS_TICK` (`10_state.md` R31); that it wraps at its
width is DEDUCED, log entry 4. -/
def State.tick (s : State) : State := { s with msTick := (s.msTick + 1) % 2 ^ s.cfg.msTickBits }

/-! ## The block's exception: entry and return -/

/-- `violation()`, the violation entry sequence (`60_exceptions.md` R310): nothing is saved, and
everything it does not name stays (R311). -/
def State.violation (s : State) : State :=
  ((s.setBus .needsReset (clearTcie (clearTxie s.irqen))).setDma 0 false).emit .busStop

/-- The return from `NeedsReset` (R313, `45_transaction.md` R275): device initialisation. -/
def State.reinitialise (s : State) : State :=
  ((s.emit .deviceInit).setBus .idle irqenInit).setDma 0 false

/-- Whether the ready data may be used (`70_reset_and_hazards.md` R352, R354): the ghost bit, which
the hardware does not test (log entry 7). -/
def State.mayUseFrame (s : State) : Bool :=
  match s.cfg.undefinedAs with
  | .fault => s.own
  | .run => true

end Sys2Proof.Machine
end

