-- ==== Sys2Proof/Machine/Bands.lean ====
section
/-! DEFINITION. Magnitudes to bands and peak (`43_analysis.md` R201 to R222). Magnitudes are natural
numbers up to 65535; `mag` lists the first half of the bins. -/

namespace Sys2Proof.Machine

/-- The bins from `lo` to `hi - 1`. -/
def binRange (mag : List Nat) (lo hi : Nat) : List Nat := (mag.take hi).drop lo

/-- The largest magnitude of a range. -/
def maxOf (ms : List Nat) : Nat := ms.foldl max 0

/-- The first bin of low band `b` (R201). -/
def lowBandFirst (c : Config) (b : Nat) : Nat :=
  match b with
  | 0 => c.lowFirstBin
  | b + 1 => c.lowBandMap.getD b 0 + 1

/-- The last bin of low band `b`, inclusive (R201). -/
def lowBandLast (c : Config) (b : Nat) : Nat := c.lowBandMap.getD b 0

/-- `band_map(MAG, b)` (R201). -/
def bandMap (c : Config) (mag : List Nat) (b : Nat) : Nat :=
  maxOf (binRange mag (lowBandFirst c b) (lowBandLast c b + 1))

/-- One step of the exponential accumulator (R206). -/
def expStep (g acc : Nat) : Nat := ((acc * g) >>> 16) + 0x10000

/-- The boundary sequence from accumulator `acc` (R207); each step raises the boundary, so `h` steps
reach it. -/
def boundariesFrom (g h : Nat) : (fuel acc : Nat) → List Nat
  | 0, _ => []
  | fuel + 1, acc =>
    let acc := expStep g acc
    let b := acc >>> 16
    if b ≥ h then [b] else b :: boundariesFrom g h fuel acc

/-- The boundary sequence `B` for half-length `h` (R207). -/
def boundaries (g h : Nat) : List Nat := boundariesFrom g h h 0

/-- The first bin of high band `k` (R208). -/
def highBandFirst (c : Config) (h k : Nat) : Nat :=
  match k with
  | 0 => 0
  | k + 1 => (boundaries c.expGrowth h).getD k 0

/-- One past the last bin of high band `k` (R208). -/
def highBandEnd (c : Config) (h k : Nat) : Nat := min ((boundaries c.expGrowth h).getD k 0) h

/-- `band_exp(MAG, k)` (R209). -/
def bandExp (c : Config) (mag : List Nat) (h k : Nat) : Nat :=
  let lo := highBandFirst c h k
  let hi := highBandEnd c h k
  let ms := binRange mag lo hi
  match c.expAgg with
  | .max => maxOf ms
  | .mean => ms.sum / (hi - lo)

/-- The search of R220 over the bins from `k` on: strictly larger wins, so the first maximum stays. -/
def peakFrom : (k idx best : Nat) → List Nat → Nat × Nat
  | _, idx, best, [] => (idx, best)
  | k, idx, best, v :: vs => if v > best then peakFrom (k + 1) k v vs else peakFrom (k + 1) idx best vs

/-- `peak(MAG, H)`: index and magnitude of the largest bin, bin 0 excluded (R220, R221). -/
def peak (mag : List Nat) : Nat × Nat := peakFrom 2 1 (mag.getD 1 0) (mag.drop 2)

/-- `PEAK_IDX` from the index found (R220). -/
def peakIndex (c : Config) (idx : Nat) : Half := fitU16 (c.peakIndexOutside idx) idx

/-- `PEAK_HZ` from `PEAK_IDX` (R222). -/
def peakHertz (c : Config) (idx : Half) : Half :=
  fitU16 (c.peakHertzOutside idx) (idx.toNat * c.sampleRate / c.nHigh)

end Sys2Proof.Machine
end

