-- ==== Sys2Proof/Machine/ConfigCheck.lean ====
section
/-! DEFINITION. Which configurations are well-formed (`00_scope.md` R9, R10): what every operation
reads, and what ANLO or ANHI alone reads, so that a capture-only configuration is admitted (R10,
log entry 15). -/

namespace Sys2Proof.Machine

/-- `ACC_AUTOINC` is one bit of an 8-bit value (R9). -/
def oneBit (v : Byte) : Bool := [0x01, 0x02, 0x04, 0x08, 0x10, 0x20, 0x40, 0x80].contains v

/-- The constraints of R9, of R10 (a) and (c), and of `46_common_semantics.md` R289 on the one shift R9
does not bound (log entry 15). -/
def configOk (c : Config) : Bool :=
  decide (0 < c.sampleRate) && decide (2 ≤ c.mHigh) && decide (2 ≤ c.mLow)
  && decide (1 ≤ c.rawBits) && decide (c.rawBits ≤ 15)
  && decide (1 ≤ c.k) && decide (c.k * (2 ^ c.rawBits - 1) < 2 ^ 32)
  && decide (c.dcFrac ≤ 16) && decide (c.dcShift ≤ 31) && decide (c.windowShift ≤ 31)
  && decide (1 ≤ c.fsqrtFrac) && decide (c.fsqrtFrac ≤ 15) && decide (c.magShift ≤ 31)
  && decide (2 ≤ c.logPeriod) && decide (c.sineTable.length = c.period)
  && decide (0x10000 < c.expGrowth) && decide (c.expGrowth < 0x20000)
  && decide (c.nHigh ≤ c.fftMax) && decide (c.nLow ≤ c.fftMax) && oneBit c.accAutoinc

/-- `a` under a well-formed configuration, a refusal under any other (R9, R10, log entry 16). -/
def underConfig (c : Config) (a : Answer) : Answer :=
  if configOk c then a else .refused .illFormedConfig

/-- The constraints on `LOW_BAND_MAP` and `LOW_FIRST_BIN` (R9), read by ANLO alone. -/
def lowBandsOk (c : Config) : Bool :=
  decide (c.lowBandMap.length = nbLow) && decide (c.lowBandMap.Pairwise (· < ·))
  && decide (c.lowFirstBin ≤ 1) && decide (c.lowFirstBin ≤ c.lowBandMap.getD 0 0)
  && decide (c.lowBandMap.getD (nbLow - 1) 0 ≤ c.nLow / 2 - 1)

/-- R10 (b): the boundary sequence has exactly `NB_HIGH` elements, read by ANHI alone. -/
def highBandsOk (c : Config) : Bool :=
  decide ((boundaries c.expGrowth (c.nHigh / 2)).length = nbHigh)

/-- What ANLO alone needs of the configuration (R10). -/
def anloOk (c : Config) : Bool := lowBandsOk c

/-- What ANHI alone needs of the configuration (R10). -/
def anhiOk (c : Config) : Bool := highBandsOk c

end Sys2Proof.Machine
end

