-- ==== Sys2Proof/WellFormed.lean ====
section
/-! DEFINITION. Which operand values a request may carry (`30_encoding.md` R91, R96): what the encoding
can express, and what is legal under a configuration. The reserved bits that no `Instr` holds
(BUSIRQ 7:6, FFT 7:5) are checked by the decoder. -/

namespace Sys2Proof

/-- The AU array interface carries two arrays of exactly `2^m` elements (R91). -/
def Instr.encodable : Instr → Bool
  | .fft m _ re im => re.length == 2 ^ m.toNat && im.length == 2 ^ m.toNat
  | .isqrt _ | .fsqrt _ | .sample _ _ | .take | .anlo | .anhi | .encode | .poll | .reinit | .rdmode
  | .busirq _ | .dmawr _ | .dmadone => true

/-- R96: FFT needs `m` at least 1 and `2^m` at most `FFT_MAX`. -/
def fftLegal (c : Config) (m : BitVec 5) (re im : List Half) : Bool :=
  m != 0 && decide (2 ^ m.toNat ≤ c.fftMax) && re.length == 2 ^ m.toNat && im.length == 2 ^ m.toNat

/-- R96: bits of `raw` and `an[k]` at or above `RAW_BITS` are zero. -/
def sampleLegal (c : Config) (raw : Half) (an : Analog) : Bool :=
  (raw :: an.toList).all (fun v => decide (v.toNat < 2 ^ c.rawBits))

/-- The legal operations of R96 under a configuration. -/
def Instr.wellFormed (c : Config) : Instr → Bool
  | .fft m _ re im => fftLegal c m re im
  | .sample raw an => sampleLegal c raw an
  | .isqrt _ | .fsqrt _ | .take | .anlo | .anhi | .encode | .poll | .reinit | .rdmode
  | .busirq _ | .dmawr _ | .dmadone => true

end Sys2Proof
end

