-- ==== Sys2Proof/Machine/Fft.lean ====
section
/-! DEFINITION. The transform and the operation FFT (`41_fft.md`): the sine table (R143), the reference
`FFT_REF` (R150 to R152, PRESUMED by the spec itself: "from general knowledge", log entry 8), the
configuration function `FFT` (R140, R148). -/

namespace Sys2Proof.Machine

/-- `SINE(j)` (R143). -/
def sine (c : Config) (j : Nat) : Int := (c.sineTable.getD j 0).toInt

/-- A complex element: its real and imaginary part. -/
abbrev Point := Half × Half

/-- `MPY(a, b)` of R150: the product scaled down by 2^15 and rounded half up, kept as an s16. -/
def mpy (a b : Int) : Int :=
  let c := (a * b) >>> (14 : Nat)
  (asS16 ((c >>> (1 : Nat)) + c % 2)).toInt

/-- `i` with its `m` low bits reversed (R151). -/
def bitReverse : (m i : Nat) → Nat
  | 0, _ => 0
  | m + 1, i => (i % 2) * 2 ^ m + bitReverse m (i / 2)

/-- R151: element `i` goes to the place whose index is `i` reversed. -/
def reorder (m : Nat) (xs : List Point) : List Point :=
  (List.range (2 ^ m)).map (fun i => xs.getD (bitReverse m i) (0, 0))

/-- The twiddle factor of a pass at phase index `j` (R152). -/
def twiddle (c : Config) (inv shift : Bool) (j : Nat) : Int × Int :=
  let wr := sine c (j + c.period / 4)
  let wi := (asS16 (-(sine c j))).toInt
  let wi := if inv then (asS16 (-wi)).toInt else wi
  if shift then (wr >>> (1 : Nat), wi >>> (1 : Nat)) else (wr, wi)

/-- One butterfly of R152 on the elements at `i` and at `p = i + l`: the new element at `i`, then the
new element at `p`. -/
def butterfly (w : Int × Int) (shift : Bool) (xi xp : Point) : Point × Point :=
  let tr := (asS16 (mpy w.1 xp.1.toInt - mpy w.2 xp.2.toInt)).toInt
  let ti := (asS16 (mpy w.2 xp.1.toInt + mpy w.1 xp.2.toInt)).toInt
  let qr := if shift then xi.1.toInt >>> (1 : Nat) else xi.1.toInt
  let qi := if shift then xi.2.toInt >>> (1 : Nat) else xi.2.toInt
  ((asS16 (qr + tr), asS16 (qi + ti)), (asS16 (qr - tr), asS16 (qi - ti)))

/-- The butterflies of one pass inside one block of `2 * l` elements: `q` from 0 to `l - 1` pairs
element `q` with element `q + l`, with phase index `q << k`. -/
def blockPass (c : Config) (inv shift : Bool) (l k : Nat) (block : List Point) : List Point :=
  let pairs := ((block.take l).zip (block.drop l)).zipIdx.map
    (fun e => butterfly (twiddle c inv shift (e.2 <<< k)) shift e.1.1 e.1.2)
  pairs.map Prod.fst ++ pairs.map Prod.snd

/-- One pass over `n` blocks (R152). The butterflies of a pass touch disjoint pairs, so the order of
the two inner loops does not matter (log entry 20). -/
def blocksPass (c : Config) (inv shift : Bool) (l k : Nat) : (n : Nat) → List Point → List Point
  | 0, _ => []
  | n + 1, xs =>
    blockPass c inv shift l k (xs.take (2 * l)) ++ blocksPass c inv shift l k n (xs.drop (2 * l))

/-- Whether an inverse pass halves (R152): some element exceeds 16383 in magnitude. -/
def needsHalving (xs : List Point) : Bool :=
  xs.any (fun p => decide (p.1.toInt.natAbs > 16383) || decide (p.2.toInt.natAbs > 16383))

/-- The passes of R152: `t` of them left, block half-length `l`, shift `k` of the phase index. -/
def passes (c : Config) (inv : Bool) :
    (t l k scale : Nat) → List Point → List Point × Nat
  | 0, _, _, scale, xs => (xs, scale)
  | t + 1, l, k, scale, xs =>
    let shift := if inv then needsHalving xs else true
    let scale := if inv && shift then scale + 1 else scale
    passes c inv t (2 * l) (k - 1) scale (blocksPass c inv shift l k (2 ^ t) xs)

/-- What the transform returns: the arrays overwritten in place, and `scale` (R140, R145). -/
structure Spectrum where
  re : List Half
  im : List Half
  scale : BitVec 5
  deriving DecidableEq, Repr

/-- `FFT_REF` (R150 to R153) on arrays of `2^m` elements. -/
def fftReference (c : Config) (m : Nat) (inv : Bool) (re im : List Half) : Spectrum :=
  let r := passes c inv m 1 (c.logPeriod - 1) 0 (reorder m (re.zip im))
  { re := r.1.map Prod.fst, im := r.1.map Prod.snd, scale := BitVec.ofNat 5 r.2 }

/-- The value stated for these arguments, if one is (R148). -/
def statedRow (rows : List FftRow) (m : Nat) (inv : Bool) (re im : List Half) : Option FftRow :=
  rows.find? (fun r => r.m == m && r.inv == inv && r.re == re && r.im == im)

/-- The configuration function `FFT` (R140): the reference, or a transform of which the length of its
arrays is known and the values that are stated. -/
def fftApply (c : Config) (m : Nat) (inv : Bool) (re im : List Half) : Spectrum :=
  match c.transform with
  | .reference => fftReference c m inv re im
  | .external _ rows =>
    let row := statedRow rows m inv re im
    { re := (List.range (2 ^ m)).map (fun i =>
        (row.bind (fun r => r.outRe[i]?)).getD (c.externalFftRe m inv re im i))
      im := (List.range (2 ^ m)).map (fun i =>
        (row.bind (fun r => r.outIm[i]?)).getD (c.externalFftIm m inv re im i))
      scale := (row.map (fun r => r.scale)).getD (c.externalFftScale m inv re im) }

/-- FFT (R140). An illegal length is refused (`30_encoding.md` R96, R97; log entry 12). -/
def execFft (m : BitVec 5) (inv : Bool) (re im : List Half) (s : State) : Answer :=
  if fftLegal s.cfg m re im then
    let r := fftApply s.cfg m.toNat inv re im
    .next (s.withResult (.fft r.re r.im r.scale))
  else .refused (.illegalRequest .fftLength)

end Sys2Proof.Machine
end

