-- ==== Sys2Proof/Machine/Sqrt.lean ====
section
/-! DEFINITION. The two square roots and the operations ISQRT and FSQRT (`40_sqrt.md`). -/

namespace Sys2Proof.Machine

/-- The binary search by bit of R121 and R130: `n` iterations from trial bit `bit` and result so far
`res`. -/
def rootByBits (x : Nat) : (n bit res : Nat) → Nat
  | 0, _, res => res
  | n + 1, bit, res =>
    let cand := res ||| bit
    rootByBits x n (bit >>> 1) (if cand * cand ≤ x then cand else res)

/-- `integer_sqrt(x)` (R121): 16 iterations from 0x8000. -/
def integerSqrt (x : Word) : Half := asU16 (rootByBits x.toNat 16 0x8000 0)

/-- `fixed_sqrt(x)` for a non-negative operand (R125), by the search of R130. -/
def fixedSqrt (c : Config) (x : Nat) : Nat :=
  let t := x * 4 ^ c.fsqrtFrac
  let r := rootByBits t 31 (1 <<< 30) 0
  match c.fsqrtRound with
  | .floor => r
  | .nearest => if t - r * r > r then r + 1 else r

/-- `fixed_sqrt(x: signed 32-bit)`: a negative operand is outside its domain (R128), the fault of
R320 or the unspecified value of the hardware (log entry 7). -/
def fixedSqrtOp (c : Config) (x : Word) : Except Fault Word :=
  if x.toInt < 0 then
    match c.undefinedAs with
    | .fault => .error .fsqrtDomain
    | .run => .ok (c.fsqrtOfNegative x)
  else .ok (BitVec.ofNat 32 (fixedSqrt c x.toNat))

/-- ISQRT (R120, R121). -/
def execIsqrt (x : Word) (s : State) : Answer := .next (s.withResult (.isqrt (integerSqrt x)))

/-- FSQRT (R120, R125, R128). -/
def execFsqrt (x : Word) (s : State) : Answer :=
  finish (do
    let y ← fixedSqrtOp s.cfg x
    .ok (s.withResult (.fsqrt y)))

end Sys2Proof.Machine
end

