-- ==== Sys2Proof/Machine/Analysis.lean ====
section
/-! DEFINITION. The spectral analysis operations ANLO and ANHI (`43_analysis.md`). -/

namespace Sys2Proof.Machine

/-- `energy(buf, N)` (R193): the mean absolute amplitude. -/
def energyOf (buf : List Half) (n : Nat) : Nat := (buf.map (fun v => v.toInt.natAbs)).sum / n

/-- One element of the window (R194, R195): one multiply by the half-period sine. -/
def windowElement (c : Config) (n i : Nat) (x : Half) : Half :=
  fitS16 (c.windowOutside n i x) ((x.toInt * sine c (i * (c.period / 2) / n)) >>> c.windowShift)

/-- `window(buf, N)` (R194). -/
def windowed (c : Config) (buf : List Half) (n : Nat) : List Half :=
  buf.zipIdx.map (fun e => windowElement c n e.2 e.1)

/-- `re² + im²` (R197), exact. -/
def sumOfSquares (p : Point) : Nat := p.1.toInt.natAbs ^ 2 + p.2.toInt.natAbs ^ 2

/-- The magnitude of bin `k` (R198, R199). -/
def magnitude (c : Config) (n k : Nat) (p : Point) : Except Fault Nat :=
  let s := sumOfSquares p
  if s = 2 ^ 31 then
    match c.undefinedAs with
    | .fault => .error .magOverflow
    | .run => .ok (c.overflowMagnitude n k).toNat
  else .ok (min (fixedSqrt c s >>> c.magShift) 65535)

/-- The magnitudes of the bins from `k` on (R197). -/
def magnitudesFrom (c : Config) (n : Nat) : Nat → List Point → Except Fault (List Nat)
  | _, [] => .ok []
  | k, p :: ps => do
    let v ← magnitude c n k p
    let vs ← magnitudesFrom c n (k + 1) ps
    .ok (v :: vs)

/-- The magnitudes of the first `n / 2` bins (R197). -/
def magnitudes (c : Config) (n : Nat) (r : Spectrum) : Except Fault (List Nat) :=
  magnitudesFrom c n 0 ((r.re.zip r.im).take (n / 2))

/-- Steps 2 to 4 of R192 on the memory `sp` of `n = 2^m` elements: window, zero `IMAG`, forward
transform in place, magnitudes (R191, R194, R196, R197). -/
def analyse (sp : HalfSpace) (m : Nat) (buf : List Half) (s : State) :
    Except Fault (List Nat × State) := do
  let n := 2 ^ m
  let s ← writeHalves .imag 0 (List.replicate n 0) s
  let im ← readHalves .imag 0 n s
  let r := fftApply s.cfg m false (windowed s.cfg buf n) im
  let s ← writeHalves sp 0 r.re s
  let s ← writeHalves .imag 0 r.im s
  let mag ← magnitudes s.cfg n r
  .ok (mag, s)

/-- ANLO (R190). -/
def execAnlo (s : State) : Answer :=
  if !anloOk s.cfg then .refused .illFormedForAnlo
  else if !s.mayUseFrame then .fault .frameNotOwned
  else finish (do
    let n := s.cfg.nLow
    let buf ← readHalves .lowSnap 0 n s
    let (mag, s) ← analyse .lowSnap s.cfg.mLow buf s
    let bands : Vector Half 6 := Vector.ofFn (fun b => asU16 (bandMap s.cfg mag b))
    .ok ((s.setLowResults bands (asU16 (energyOf buf n))).withResult .empty))

/-- ANHI (R215). -/
def execAnhi (s : State) : Answer :=
  if !anhiOk s.cfg then .refused .illFormedForAnhi
  else if !s.mayUseFrame then .fault .frameNotOwned
  else finish (do
    let n := s.cfg.nHigh
    let ready := HalfSpace.high s.active.other
    let buf ← readHalves ready 0 n s
    let (mag, s) ← analyse ready s.cfg.mHigh buf s
    let bands : Vector Half 26 := Vector.ofFn (fun k => asU16 (bandExp s.cfg mag (n / 2) k))
    let pk := peak mag
    let idx := peakIndex s.cfg pk.1
    .ok ((s.setHighResults bands (asU16 (energyOf buf n)) (asU16 pk.2) idx
      (peakHertz s.cfg idx)).withResult .empty))

end Sys2Proof.Machine
end

