-- ==== Sys2Proof/Machine/Capture.lean ====
section
/-! DEFINITION. The capture operations SAMPLE and TAKE (`42_capture.md`). -/

namespace Sys2Proof.Machine

/-- Step 1 of SAMPLE (R163): the DC average moves toward `scaled` by the floor of the difference
shifted by `DC_SHIFT`. -/
def dcUpdate (c : Config) (avg : Int) (raw : Nat) : Int :=
  let scaled : Int := raw * 2 ^ c.dcFrac
  avg + ((scaled - avg) >>> c.dcShift)

/-- `dc`, the integer part of `AVG` (R163). -/
def State.dc (s : State) : Int := s.avg.toInt >>> s.cfg.dcFrac

/-- Step 1 (R163). -/
def sampleAverage (raw : Half) (s : State) : State :=
  s.setAvg (BitVec.ofInt 32 (dcUpdate s.cfg s.avg.toInt raw.toNat))

/-- Step 2 (R164): accumulate, and on every K-th sample write one element of the ring. -/
def sampleDecimate (raw : Half) (s : State) : Except Fault State :=
  let acc := s.decAcc.toNat + raw.toNat
  let cnt := s.decCnt + 1
  if cnt = s.cfg.k then do
    let low : Int := ((acc / s.cfg.k : Nat) : Int) - s.dc
    let s' ← writeHalves .ring s.head [asS16 low] s
    .ok (s'.setDecimation 0 0 ((s.head + 1) % s.cfg.nLow))
  else .ok (s.setDecimation (BitVec.ofNat 32 acc) cnt s.head)

/-- Step 3 (R165): store the sample less `dc` in the active side. -/
def sampleStore (raw : Half) (s : State) : Except Fault State := do
  let s' ← writeHalves (.high s.active) s.writePos [asS16 (raw.toNat - s.dc)] s
  .ok (s'.setWritePos (s.writePos + 1))

/-- The ring from `HEAD`, oldest first: element `i` is `RING[(HEAD + i) mod N_LOW]`
(`20_memory.md` R82). -/
def ringFromHead (s : State) : Except Fault (List Half) := do
  let all ← readHalves .ring 0 s.cfg.nLow s
  .ok (all.drop (s.head % s.cfg.nLow) ++ all.take (s.head % s.cfg.nLow))

/-- Step 4, the flip (R167), in the publication order of `20_memory.md` R75. -/
def sampleFlip (an : Analog) (s : State) : Except Fault State :=
  if s.writePos = s.cfg.nHigh then do
    let snap ← ringFromHead s
    let s ← writeHalves .lowSnap 0 snap s
    let s ← writeHalves .analogSnap 0 an.toList s
    .ok ((s.setWritePos 0).setHandOff s.active.other true false)
  else .ok s

/-- SAMPLE (R161): steps 1 to 4 as one operation; reserved operand bits are refused
(`30_encoding.md` R96, R97). -/
def execSample (raw : Half) (an : Analog) (s : State) : Answer :=
  if sampleLegal s.cfg raw an then
    finish (do
      let s ← sampleDecimate raw (sampleAverage raw s)
      let s ← sampleStore raw s
      let s ← sampleFlip an s
      .ok (s.withResult .empty))
  else .refused (.illegalRequest .reservedBit)

/-- TAKE (R175): read and clear `FRAME_READY` in one step. -/
def execTake (s : State) : Answer :=
  .next ((s.setHandOff s.active false (s.own || s.frameReady)).withResult
    (.take s.frameReady s.active.other))

end Sys2Proof.Machine
end

