-- ==== Sys2Proof/Machine/Frame.lean ====
section
/-! DEFINITION. The output frame operation ENCODE (`44_frame.md`, layout `30_encoding.md` R110 to
R112). -/

namespace Sys2Proof.Machine

/-- The literal header "SB1.0" (R111). -/
def frameHeader : List Byte := [0x53, 0x42, 0x31, 0x2E, 0x30]

/-- The literal trailer "END" (R111). -/
def frameTrailer : List Byte := [0x45, 0x4E, 0x44]

/-- `put16` of a list of fields (`44_frame.md` R231). -/
def put16s (order : ByteOrder) (vs : List Half) : List Byte := vs.flatMap (halfBytes order)

/-- The axes of the accelerometer sample: axis `a` is read from bytes `2a`, `2a + 1`
(`20_memory.md` R66). -/
def axes (order : ByteOrder) : List Byte → List Half
  | b0 :: b1 :: rest => halfOfBytes order b0 b1 :: axes order rest
  | _ => []

/-- The analog field of a reading (R232): `trunc_16(v << ANALOG_SHIFT)`. -/
def analogField (c : Config) (v : Half) : Half := v <<< c.analogShift

/-- The bytes of the frame, in field order (R110, R231). -/
def frameBytes (s : State) (accel : List Byte) (analog : List Half) : List Byte :=
  let order := s.cfg.byteOrder
  frameHeader
    ++ put16s order s.lowBand.toList
    ++ put16s order s.highBand.toList
    ++ put16s order [s.energy, s.peakMag, s.peakHz]
    ++ put16s order (axes order accel)
    ++ put16s order (analog.map (analogField s.cfg))
    ++ frameTrailer

/-- ENCODE (R231): it does not test `MODE` (R235); the command carries a copy of the bytes (R237). -/
def execEncode (s : State) : Answer :=
  if !s.mayUseFrame then .fault .frameNotOwned
  else finish (do
    let accel ← readBytes .accel 0 accBytes s
    let analog ← readHalves .analogSnap 0 nAnalog s
    let s ← writeBytes .frameBuf 0 (frameBytes s accel analog) s
    let sent ← readBytes .frameBuf 0 frameLen s
    .ok ((s.emit (.transportSend sent)).withResult .empty))

end Sys2Proof.Machine
end

