-- ==== Sys2Proof/Machine/Transaction.lean ====
section
/-! DEFINITION. The accelerometer transaction operations POLL, REINIT, RDMODE, BUSIRQ, DMAWR, DMADONE
(`45_transaction.md`). -/

namespace Sys2Proof.Machine

/-- An operation whose result is empty completes. -/
def done (s : State) : Answer := .next (s.withResult .empty)

/-- POLL (R255): outside `Idle` it is the violation POLL_BUSY. -/
def execPoll (s : State) : Answer :=
  if s.mode = .idle then
    done ((s.emit (.busStartWrite s.cfg.accAddr 1)).setBus .starting (setTxie s.irqen))
  else done s.violation

/-- REINIT (R275): in a busy state it is the violation REINIT_BUSY. -/
def execReinit (s : State) : Answer :=
  if s.mode = .idle ∨ s.mode = .needsReset then done s.reinitialise
  else done s.violation

/-- RDMODE (R280). -/
def execRdmode (s : State) : Answer := .next (s.withResult (.rdmode (modeCode s.mode)))

/-- The acknowledge of an unexpected or absorbed interrupt: every bit presented, and no command when
there is none (R268 (d)). -/
def ackAll (b : BitVec 6) (s : State) : State := if b ≠ 0 then s.emit (.irqAck b) else s

/-- BUSIRQ (R260): error bits first, then the one bit the state expects, then the unexpected case. -/
def execBusirq (b : BitVec 6) (s : State) : Answer :=
  if b &&& errMask ≠ 0 then
    done (s.emit (.irqAck (b &&& errMask))).violation
  else if s.mode = .starting ∧ txRdy b = true then
    done ((s.emit (.busSendByte (s.cfg.accReg ||| s.cfg.accAutoinc))).setBus .sendingRegister
      (setTcie (clearTxie s.irqen)))
  else if s.mode = .sendingRegister ∧ tc b = true then
    done (((s.emit (.busStartRead s.cfg.accAddr (BitVec.ofNat 8 accBytes))).setDma
      (BitVec.ofNat 3 accBytes) false).setBus .reading (clearTcie s.irqen))
  else if s.mode = .stopping ∧ stopF b = true then
    done ((s.emit (.irqAck stopMask)).setBus .idle s.irqen)
  else if s.mode = .needsReset then
    done (ackAll b s)
  else done (ackAll b s).violation

/-- `ACCEL[ACC_BYTES - DMA_CNT] <- b`, then `DMA_CNT` counts down and `DMA_TCIF` is set at 0 (R270).
A count above `ACC_BYTES`, which no reachable state holds, gives no index (`20_memory.md` R69). -/
def depositByte (b : Byte) (s : State) : Except Fault State :=
  if s.dmaCnt.toNat ≤ accBytes then do
    let s ← writeBytes .accel (accBytes - s.dmaCnt.toNat) [b] s
    let left := s.dmaCnt - 1
    .ok (s.setDma left (s.dmaTcif || left == 0))
  else .error .indexRange

/-- DMAWR (R270): ignored when no read is in progress. -/
def execDmawr (b : Byte) (s : State) : Answer :=
  if s.dmaCnt = 0 then done s
  else finish (do
    let s ← depositByte b s
    .ok (s.withResult .empty))

/-- DMADONE (R272): acts only on a pending completion. -/
def execDmadone (s : State) : Answer :=
  if s.dmaTcif = false then done s
  else if s.mode = .reading then
    done (((s.setDma s.dmaCnt false).emit .busStop).setBus .stopping s.irqen)
  else done (s.setDma s.dmaCnt false).violation

end Sys2Proof.Machine
end

