-- ==== Sys2Proof/Machine/Dispatch.lean ====
section
/-! DEFINITION. The meaning of every operation of SBCORE: one arm per row of `spec/opcode_table.json`. -/

namespace Sys2Proof.Machine

def exec (i : Instr) (s : State) : Host.Outcome State Fault Refusal :=
  match i with
  | .isqrt x => Sys2Proof.Machine.execIsqrt x s
  | .fsqrt x => Sys2Proof.Machine.execFsqrt x s
  | .fft m inv re im => Sys2Proof.Machine.execFft m inv re im s
  | .sample raw an => Sys2Proof.Machine.execSample raw an s
  | .take => Sys2Proof.Machine.execTake s
  | .anlo => Sys2Proof.Machine.execAnlo s
  | .anhi => Sys2Proof.Machine.execAnhi s
  | .encode => Sys2Proof.Machine.execEncode s
  | .poll => Sys2Proof.Machine.execPoll s
  | .reinit => Sys2Proof.Machine.execReinit s
  | .rdmode => Sys2Proof.Machine.execRdmode s
  | .busirq b => Sys2Proof.Machine.execBusirq b s
  | .dmawr b => Sys2Proof.Machine.execDmawr b s
  | .dmadone => Sys2Proof.Machine.execDmadone s

end Sys2Proof.Machine
end

