-- ==== Sys2Proof/Machine/Step.lean ====
section
/-! DEFINITION. One step of SBCORE: the next event of the environment is presented (log entry 1). -/

namespace Sys2Proof.Machine

/-- One step. With nothing presented the block keeps its state (`60_exceptions.md` R330, log entry 14); a
tick increments `MS_TICK`; a request is decoded and executed, or refused when it is illegal
(`30_encoding.md` R97); and under a configuration that is not well-formed everything is refused
(`00_scope.md` R9, R10). -/
def step (s : State) : Host.Outcome State Fault Refusal :=
  match s.inbox with
  | [] => underConfig s.cfg (.next s)
  | .tick :: rest => underConfig s.cfg (.next (s.setInbox rest).tick)
  | .request r :: rest =>
    underConfig s.cfg
      (match decode r with
      | .ok i => exec i (s.setInbox rest)
      | .error why => .refused (.illegalRequest why))

/-- `s` with the request of these bits as the next one presented. -/
def State.withFetchWord (s : State) (nbits w : Nat) : State :=
  s.setInbox (.request (requestOfBits nbits w) :: s.inbox)

end Sys2Proof.Machine
end

