-- ==== Sys2Proof/Safety.lean ====
section
/-! DEFINITION. What counts as a good state of SBCORE (`10_state.md` R47, `46_common_semantics.md`
R286, `20_memory.md` R69) and the terms statements use: one element of a memory, the groups of state
that a context may not change (`60_exceptions.md` R317). -/

namespace Sys2Proof.Machine

/-- One element of a memory of 16-bit elements, `none` if it was never written (`10_state.md` R51). -/
def State.halfAt (s : State) (sp : HalfSpace) (a : Nat) : Option Half :=
  Mem.read sp.unlisted (s.halves sp) a

/-- One byte of a byte memory. -/
def State.byteAt (s : State) (sp : ByteSpace) (a : Nat) : Option Byte :=
  Mem.read sp.unlisted (s.bytes sp) a

/-- The largest raw reading, `2^RAW_BITS - 1`. -/
def rawMax (c : Config) : Nat := 2 ^ c.rawBits - 1

/-- `10_state.md` R47 (a) to (e) (`MODE` holds only legal values by its type), and R29's range. -/
abbrev State.BusInv (s : State) : Prop :=
  (s.dmaCnt ≠ 0 → s.mode = .reading)
  ∧ (s.dmaTcif = true → s.mode = .reading ∧ s.dmaCnt = 0)
  ∧ (txie s.irqen = true → s.mode = .starting)
  ∧ (tcie s.irqen = true → s.mode = .sendingRegister)
  ∧ s.dmaCnt.toNat ≤ accBytes

/-- `10_state.md` R47 (f), the bounds of `DEC_ACC` and `AVG` (R36, `46_common_semantics.md` R286), and
the range of the analog snapshot (`44_frame.md` R232). -/
abbrev State.CaptureInv (s : State) : Prop :=
  s.writePos < s.cfg.nHigh
  ∧ s.head < s.cfg.nLow
  ∧ s.decCnt < s.cfg.k
  ∧ s.decAcc.toNat ≤ s.decCnt * rawMax s.cfg
  ∧ 0 ≤ s.avg.toInt
  ∧ s.avg.toInt ≤ rawMax s.cfg * 2 ^ s.cfg.dcFrac
  ∧ ∀ c ∈ s.analogSnap, c.2.toNat < 2 ^ s.cfg.rawBits

/-- One memory is in canonical form and inside its size. -/
abbrev State.HalfSpaceOk (s : State) (sp : HalfSpace) : Prop :=
  Mem.wf sp.unlisted (s.halves sp) ∧ Mem.within (sp.size s.cfg) (s.halves sp)

/-- The same for a byte memory. -/
abbrev State.ByteSpaceOk (s : State) (sp : ByteSpace) : Prop :=
  Mem.wf sp.unlisted (s.bytes sp) ∧ Mem.within sp.size (s.bytes sp)

/-- Every memory is in canonical form and inside its size (`20_memory.md` R60, R69). -/
abbrev State.MemoryInv (s : State) : Prop :=
  s.HalfSpaceOk (.high .side0) ∧ s.HalfSpaceOk (.high .side1) ∧ s.HalfSpaceOk .ring
  ∧ s.HalfSpaceOk .lowSnap ∧ s.HalfSpaceOk .imag ∧ s.HalfSpaceOk .analogSnap
  ∧ s.ByteSpaceOk .accel ∧ s.ByteSpaceOk .frameBuf

/-- The invariant of a good state: a well-formed configuration, R47, and well-formed memories. -/
abbrev State.Inv (s : State) : Prop :=
  configOk s.cfg = true ∧ s.BusInv ∧ s.CaptureInv ∧ s.MemoryInv

/-! ## The groups of state of `60_exceptions.md` R317 -/

/-- The capture registers, `ACTIVE` and `RING`. -/
abbrev SameCapture (s t : State) : Prop :=
  t.avg = s.avg ∧ t.decAcc = s.decAcc ∧ t.decCnt = s.decCnt ∧ t.head = s.head
  ∧ t.writePos = s.writePos ∧ t.active = s.active ∧ t.ring = s.ring

/-- What the flip publishes: `LOWSNAP`, `ANALOG_SNAP`, `FRAME_READY`, ghost `OWN`. -/
abbrev SameHandOff (s t : State) : Prop :=
  t.lowSnap = s.lowSnap ∧ t.analogSnap = s.analogSnap ∧ t.frameReady = s.frameReady ∧ t.own = s.own

/-- Both sides of `HIGH`, and `IMAG`. -/
abbrev SameHigh (s t : State) : Prop :=
  t.high0 = s.high0 ∧ t.high1 = s.high1 ∧ t.imag = s.imag

/-- The result registers. -/
abbrev SameResults (s t : State) : Prop :=
  t.lowBand = s.lowBand ∧ t.highBand = s.highBand ∧ t.energy = s.energy ∧ t.energyLo = s.energyLo
  ∧ t.peakMag = s.peakMag ∧ t.peakIdx = s.peakIdx ∧ t.peakHz = s.peakHz

/-- The transaction registers. -/
abbrev SameBus (s t : State) : Prop :=
  t.mode = s.mode ∧ t.irqen = s.irqen ∧ t.dmaCnt = s.dmaCnt ∧ t.dmaTcif = s.dmaTcif

/-- What no operation writes: the configuration, `MS_TICK`, the queue of events. -/
abbrev SameOutside (s t : State) : Prop :=
  t.cfg = s.cfg ∧ t.msTick = s.msTick ∧ t.inbox = s.inbox

/-- A sequence of operations in the total order of `20_memory.md` R74, ended by the first fault or
refusal. -/
def execAll : List Instr → State → Answer
  | [], s => .next s
  | i :: is, s =>
    match exec i s with
    | .next t => execAll is t
    | .fault f => .fault f
    | .refused r => .refused r

end Sys2Proof.Machine
end

