-- ==== Sys2Proof/Certificates/Slice0/Obligations.lean ====
section
/-! DEFINITION. The statements about SBCORE for the provers. Each docstring names the rule of `spec/` it
formalises, or says that it is the model's own choice and names the log entry. -/

open Sys2Proof Sys2Proof.Machine

/-! ## Requests -/

/-- R90, R91, R93: decoding the encoding of an operation gives it back, for every operand the encoding
can hold. That the operand record is a list of bytes of one fixed length for each format is the model's
choice (log entries 10 and 11). -/
def Obligations.DecodeInvertsEncode : Prop :=
  ∀ i : Instr, i.encodable = true → decode (encode i) = .ok i

/-- R90, R91, R93: a request the decoder accepts is the encoding of the operation it gives, so every
operation has one request. The fixed length of each record is the model's choice (log entries 10 and
11). -/
def Obligations.EncodeInvertsDecode : Prop :=
  ∀ (r : Request) (i : Instr), decode r = .ok i → i.encodable = true ∧ encode i = r

/-- R91, R93: requests written out from the operation map and the operand layouts, the record as bytes,
least significant first (the model's choice, log entry 10). -/
def Obligations.WrittenRequestsDecode : Prop :=
  decode ⟨.au, 0x00, [0x11, 0, 0, 0], [], []⟩ = .ok (.isqrt 17)
  ∧ decode ⟨.au, 0x01, [0xFF, 0xFF, 0xFF, 0xFF], [], []⟩ = .ok (.fsqrt (-1))
  ∧ decode ⟨.au, 0x02, [0x02, 0x01], [250, 250, 250, 250], [0, 0, 0, 0]⟩
      = .ok (.fft 2 true [250, 250, 250, 250] [0, 0, 0, 0])
  ∧ decode ⟨.cap, 0x10, [0xD0, 0x07, 1, 0, 2, 0, 3, 0, 4, 0, 5, 0, 6, 0], [], []⟩
      = .ok (.sample 2000 ⟨1, 2, 3, 4, 5, 6⟩)
  ∧ decode ⟨.ml, 0x24, [], [], []⟩ = .ok .poll
  ∧ decode ⟨.bus, 0x30, [0x28], [], []⟩ = .ok (.busirq 0x28)
  ∧ decode ⟨.dma, 0x40, [0x7F], [], []⟩ = .ok (.dmawr 0x7F)

/-- R95: every word outside the fourteen of R93 is illegal, and the request is refused. -/
def Obligations.UnassignedWordRefused : Prop :=
  ∀ (s : State) (r : Request) (rest : List Event), configOk s.cfg = true →
    s.inbox = .request r :: rest →
    ((0x03 ≤ r.word.toNat ∧ r.word.toNat ≤ 0x0F) ∨ (0x11 ≤ r.word.toNat ∧ r.word.toNat ≤ 0x1F)
      ∨ (0x27 ≤ r.word.toNat ∧ r.word.toNat ≤ 0x2F) ∨ (0x31 ≤ r.word.toNat ∧ r.word.toNat ≤ 0x3F)
      ∨ (0x42 ≤ r.word.toNat ∧ r.word.toNat ≤ 0x4F) ∨ 0x50 ≤ r.word.toNat) →
    step s = .refused (.illegalRequest .unassignedWord)

/-- R94: a word whose port field is not the port it arrives on is refused. -/
def Obligations.WrongPortRefused : Prop :=
  ∀ (s : State) (r : Request) (rest : List Event), configOk s.cfg = true →
    s.inbox = .request r :: rest → portField r.word ≠ r.port.number →
    ∃ why, step s = .refused (.illegalRequest why)

/-- R96: reserved operand bits of BUSIRQ (7:6), FFT (7:5) and SAMPLE (at or above `RAW_BITS`), and FFT
with `m = 0` or `2^m > FFT_MAX`, are refused. -/
def Obligations.ReservedOperandsRefused : Prop :=
  (∀ (s : State) (b : Byte) (rest : List Event), configOk s.cfg = true →
    s.inbox = .request ⟨.bus, 0x30, [b], [], []⟩ :: rest → 0x40 ≤ b.toNat →
    step s = .refused (.illegalRequest .reservedBit))
  ∧ (∀ (s : State) (b0 b1 : Byte) (re im : List Half) (rest : List Event), configOk s.cfg = true →
    s.inbox = .request ⟨.au, 0x02, [b0, b1], re, im⟩ :: rest → 0x20 ≤ b0.toNat →
    step s = .refused (.illegalRequest .reservedBit))
  ∧ (∀ (s : State) (raw : Half) (an : Analog), (∃ v ∈ raw :: an.toList, 2 ^ s.cfg.rawBits ≤ v.toNat) →
    exec (.sample raw an) s = .refused (.illegalRequest .reservedBit))
  ∧ (∀ (s : State) (m : BitVec 5) (inv : Bool) (re im : List Half),
    m = 0 ∨ s.cfg.fftMax < 2 ^ m.toNat →
    exec (.fft m inv re im) s = .refused (.illegalRequest .fftLength))

/-! ## The step -/

/-- A step runs the decoded operation: the request at the head of the queue is taken off it and
executed (log entry 1). -/
def Obligations.StepRunsDecodedOperation : Prop :=
  ∀ (s : State) (r : Request) (rest : List Event) (i : Instr), configOk s.cfg = true →
    s.inbox = .request r :: rest → decode r = .ok i → step s = exec i { s with inbox := rest }

/-- The model's choice (log entries 4, 14): with nothing presented the state stays, and a tick
increments `MS_TICK` modulo its width and changes nothing else. -/
def Obligations.StepWithoutRequest : Prop :=
  ∀ s : State, configOk s.cfg = true →
    (s.inbox = [] → step s = .next s)
    ∧ ∀ rest, s.inbox = .tick :: rest →
      step s = .next { s with inbox := rest, msTick := (s.msTick + 1) % 2 ^ s.cfg.msTickBits }

/-- R10: a configuration that is not well-formed is refused; one that breaks only what ANLO, or ANHI,
reads is refused by that operation alone. The model's choices: that `step` refuses before the request is
decoded (log entry 16), and that `configOk` reads `ACC_AUTOINC` as exactly one bit and bounds
`WINDOW_SHIFT` by the 31 of R289 (log entry 15). -/
def Obligations.IllFormedConfigurationRefused : Prop :=
  ∀ s : State,
    (configOk s.cfg = false → step s = .refused .illFormedConfig)
    ∧ (anloOk s.cfg = false → exec .anlo s = .refused .illFormedForAnlo)
    ∧ (anhiOk s.cfg = false → exec .anhi s = .refused .illFormedForAnhi)

/-- R20, R31: no operation writes the configuration, `MS_TICK` or the queue of events. -/
def Obligations.OperationsKeepOutside : Prop :=
  ∀ (i : Instr) (s t : State), exec i s = .next t → SameOutside s t

/-! ## The arithmetic unit -/

/-- R123: ISQRT returns the floor of the square root, and changes nothing but the result record. -/
def Obligations.IsqrtIsFloorRoot : Prop :=
  ∀ (x : Word) (s : State), ∃ y : Half, exec (.isqrt x) s = .next { s with result := .isqrt y }
    ∧ y.toNat * y.toNat ≤ x.toNat ∧ x.toNat < (y.toNat + 1) * (y.toNat + 1)

/-- R125: FSQRT of a non-negative operand returns the root of `x * 4^F`, rounded as configured, and
changes nothing but the result record; a negative operand is the fault FsqrtDomain (under the
treatment of R320, log entry 7). -/
def Obligations.FsqrtIsRoundedRoot : Prop :=
  ∀ (x : Word) (s : State), configOk s.cfg = true →
    (x.toInt < 0 → s.cfg.undefinedAs = .fault → exec (.fsqrt x) s = .fault .fsqrtDomain)
    ∧ (0 ≤ x.toInt → ∃ r y : Nat,
        r * r ≤ x.toNat * 4 ^ s.cfg.fsqrtFrac
        ∧ x.toNat * 4 ^ s.cfg.fsqrtFrac < (r + 1) * (r + 1)
        ∧ (s.cfg.fsqrtRound = .floor → y = r)
        ∧ (s.cfg.fsqrtRound = .nearest →
            y = if x.toNat * 4 ^ s.cfg.fsqrtFrac - r * r > r then r + 1 else r)
        ∧ y < 2 ^ 31
        ∧ exec (.fsqrt x) s = .next { s with result := .fsqrt (BitVec.ofNat 32 y) })

/-- The model's choice (log entry 7), for R128's "the hardware returns an unspecified value and raises
nothing": under the other treatment FSQRT of a negative operand returns a free value. -/
def Obligations.FsqrtOfNegativeRuns : Prop :=
  ∀ (x : Word) (s : State), x.toInt < 0 → s.cfg.undefinedAs = .run →
    exec (.fsqrt x) s = .next { s with result := .fsqrt (s.cfg.fsqrtOfNegative x) }

/-- R126: `fixed_sqrt` is monotonic, exact at perfect squares, and 0 at 0, under both roundings. -/
def Obligations.FixedSqrtMonotoneAndExact : Prop :=
  ∀ c : Config, c.fsqrtFrac ≤ 15 →
    (∀ a b : Nat, a ≤ b → b < 2 ^ 31 → fixedSqrt c a ≤ fixedSqrt c b)
    ∧ (∀ k : Nat, k ≤ 46340 → fixedSqrt c (k * k) = k <<< c.fsqrtFrac)
    ∧ fixedSqrt c 0 = 0

/-- R129: under `floor`, FSQRT shifted right by F is ISQRT; under `nearest` it is not, for example at
F = 1 and x = 8. -/
def Obligations.FixedSqrtRefinesIntegerSqrt : Prop :=
  (∀ (c : Config) (x : Word), c.fsqrtFrac ≤ 15 → c.fsqrtRound = .floor → x.toNat < 2 ^ 31 →
    fixedSqrt c x.toNat >>> c.fsqrtFrac = (integerSqrt x).toNat)
  ∧ ∀ c : Config, c.fsqrtFrac = 1 → c.fsqrtRound = .nearest →
    fixedSqrt c 8 = 6 ∧ (integerSqrt 8).toNat = 2

/-- R140, R145: a legal FFT returns the configuration function's arrays, of the same length `2^m`,
changes nothing but the result record, and `scale` is 0 for a forward transform under the reference. -/
def Obligations.FftReturnsTransform : Prop :=
  ∀ (m : BitVec 5) (inv : Bool) (re im : List Half) (s : State), m ≠ 0 →
    2 ^ m.toNat ≤ s.cfg.fftMax → re.length = 2 ^ m.toNat → im.length = 2 ^ m.toNat →
    ∃ (re' im' : List Half) (scale : BitVec 5),
      exec (.fft m inv re im) s = .next { s with result := .fft re' im' scale }
      ∧ fftApply s.cfg m.toNat inv re im = ⟨re', im', scale⟩
      ∧ re'.length = 2 ^ m.toNat ∧ im'.length = 2 ^ m.toNat
      ∧ (inv = false → s.cfg.transform = .reference → scale = 0)

/-- `MPY(a, b)` of R150 in its own words: the product scaled down by 2^15, rounded half up, as an s16. -/
def roundedProduct (a b : Int) : Int := (asS16 ((a * b + 2 ^ 14) / 2 ^ 15)).toInt

/-- R150 to R152, which the spec marks as general knowledge (log entry 8): the reference transform of
every pair of arrays, as the arrays `x t` after `t` passes. `x 0` holds at `i` the element whose index is
`i` with its `m` low bits reversed; pass `t` halves (`shift t`) always in the forward direction and in the
inverse one when an element exceeds 16383 in magnitude; it leaves at `i` (bit `t` of `i` zero) and at
`p = i + 2^t` the sum and the difference of the element at `i` and the one at `p` times its twiddle
factor. And zero arrays go to zero arrays. -/
def Obligations.ReferenceFftReordersAndPasses : Prop :=
  (∀ (c : Config) (m : Nat) (inv : Bool) (re im : List Half),
    re.length = 2 ^ m → im.length = 2 ^ m →
    ∃ (x : Nat → List Point) (shift : Nat → Bool),
      (∀ t ≤ m, (x t).length = 2 ^ m)
      ∧ (∀ i < 2 ^ m, ∃ r < 2 ^ m, (∀ b < m, r.testBit b = i.testBit (m - 1 - b))
          ∧ (x 0)[i]?.map Prod.fst = re[r]? ∧ (x 0)[i]?.map Prod.snd = im[r]?)
      ∧ (∀ t < m, shift t = true ↔ inv = false
          ∨ ∃ p ∈ x t, 16383 < p.1.toInt.natAbs ∨ 16383 < p.2.toInt.natAbs)
      ∧ (∀ t < m, ∀ i < 2 ^ m, i.testBit t = false →
          ∃ xi xp, (x t)[i]? = some xi ∧ (x t)[i + 2 ^ t]? = some xp
            ∧ (let half (v : Int) := if shift t then v / 2 else v
               let j := i % 2 ^ t * 2 ^ (c.logPeriod - 1 - t)
               let wr := half (sine c (j + c.period / 4))
               let wi := half (if inv then sine c j else (asS16 (-sine c j)).toInt)
               let tr := (asS16 (roundedProduct wr xp.1.toInt - roundedProduct wi xp.2.toInt)).toInt
               let ti := (asS16 (roundedProduct wi xp.1.toInt + roundedProduct wr xp.2.toInt)).toInt
               (x (t + 1))[i]?
                   = some (asS16 (half xi.1.toInt + tr), asS16 (half xi.2.toInt + ti))
               ∧ (x (t + 1))[i + 2 ^ t]?
                   = some (asS16 (half xi.1.toInt - tr), asS16 (half xi.2.toInt - ti))))
      ∧ fftReference c m inv re im = ⟨(x m).map Prod.fst, (x m).map Prod.snd,
          BitVec.ofNat 5 (if inv then ((List.range m).filter shift).length else 0)⟩)
  ∧ ∀ (c : Config) (m : Nat) (inv : Bool),
    fftReference c m inv (List.replicate (2 ^ m) 0) (List.replicate (2 ^ m) 0)
      = ⟨List.replicate (2 ^ m) 0, List.replicate (2 ^ m) 0, 0⟩

/-! ## Capture -/

/-- R163: step 1 of SAMPLE. -/
def Obligations.SampleMovesAverage : Prop :=
  ∀ (raw : Half) (an : Analog) (s : State), s.Inv → sampleLegal s.cfg raw an = true →
    ∃ t, exec (.sample raw an) s = .next t
      ∧ (let scaled : Int := raw.toNat * 2 ^ s.cfg.dcFrac
         t.avg.toInt = s.avg.toInt + (scaled - s.avg.toInt) / 2 ^ s.cfg.dcShift
         ∧ min s.avg.toInt scaled ≤ t.avg.toInt ∧ t.avg.toInt ≤ max s.avg.toInt scaled)
      ∧ t.dc = t.avg.toInt / 2 ^ s.cfg.dcFrac
      ∧ 0 ≤ t.dc ∧ t.dc ≤ rawMax s.cfg

/-- R164: step 2 of SAMPLE, with the `dc` of step 1. -/
def Obligations.SampleDecimates : Prop :=
  ∀ (raw : Half) (an : Analog) (s : State), s.Inv → sampleLegal s.cfg raw an = true →
    ∃ t, exec (.sample raw an) s = .next t
      ∧ (s.decCnt + 1 = s.cfg.k →
          (∃ v, t.halfAt .ring s.head = some v
            ∧ v.toInt = (((s.decAcc.toNat + raw.toNat) / s.cfg.k : Nat) : Int) - t.dc)
          ∧ (∀ a, a ≠ s.head → t.halfAt .ring a = s.halfAt .ring a)
          ∧ t.head = (s.head + 1) % s.cfg.nLow ∧ t.decAcc = 0 ∧ t.decCnt = 0)
      ∧ (s.decCnt + 1 ≠ s.cfg.k →
          (∀ a, t.halfAt .ring a = s.halfAt .ring a) ∧ t.head = s.head
          ∧ t.decAcc.toNat = s.decAcc.toNat + raw.toNat ∧ t.decCnt = s.decCnt + 1)

/-- R165: step 3 of SAMPLE; no other element of either side changes. -/
def Obligations.SampleStoresInActiveSide : Prop :=
  ∀ (raw : Half) (an : Analog) (s : State), s.Inv → sampleLegal s.cfg raw an = true →
    ∃ t, exec (.sample raw an) s = .next t
      ∧ (∃ v, t.halfAt (.high s.active) s.writePos = some v ∧ v.toInt = raw.toNat - t.dc
          ∧ -(rawMax s.cfg : Int) ≤ v.toInt ∧ v.toInt ≤ rawMax s.cfg)
      ∧ (∀ a, a ≠ s.writePos → t.halfAt (.high s.active) a = s.halfAt (.high s.active) a)
      ∧ (∀ a, t.halfAt (.high s.active.other) a = s.halfAt (.high s.active.other) a)
      ∧ t.writePos = (if s.writePos + 1 = s.cfg.nHigh then 0 else s.writePos + 1)

/-- R167, R82: step 4 of SAMPLE, the flip: `LOWSNAP` is the ring from `HEAD` on, oldest first, as step
2 of the same SAMPLE left it; and without a flip nothing of this changes. -/
def Obligations.SampleFlips : Prop :=
  ∀ (raw : Half) (an : Analog) (s : State), s.Inv → sampleLegal s.cfg raw an = true →
    ∃ t, exec (.sample raw an) s = .next t
      ∧ (s.writePos + 1 = s.cfg.nHigh →
          (∀ i < s.cfg.nLow, t.halfAt .lowSnap i = t.halfAt .ring ((t.head + i) % s.cfg.nLow))
          ∧ (∀ k < 6, t.halfAt .analogSnap k = an.toList[k]?)
          ∧ t.active = s.active.other ∧ t.writePos = 0 ∧ t.frameReady = true ∧ t.own = false)
      ∧ (s.writePos + 1 ≠ s.cfg.nHigh → SameHandOff s t ∧ t.active = s.active)

/-- R161: the frame of SAMPLE: it never writes `MODE`, `ACCEL`, a result register, `IMAG`, `FRAMEBUF`,
emits nothing, and its result is empty. -/
def Obligations.SampleLeavesTheRest : Prop :=
  ∀ (raw : Half) (an : Analog) (s : State), s.Inv → sampleLegal s.cfg raw an = true →
    ∃ t, exec (.sample raw an) s = .next t
      ∧ SameBus s t ∧ SameResults s t ∧ SameOutside s t ∧ t.accel = s.accel
      ∧ t.frameBuf = s.frameBuf ∧ t.imag = s.imag ∧ t.commands = s.commands ∧ t.result = .empty

/-- R168, R169: `N_HIGH` samples from the start of a window flip `ACTIVE` exactly once, at the last of
them, and raise frame ready there; before it nothing of the hand-off changes, and the side that was
ready keeps its contents to the end. -/
def Obligations.WindowOfSamplesFlipsOnce : Prop :=
  ∀ (s : State) (xs : List (Half × Analog)), s.Inv → s.writePos = 0 → xs.length = s.cfg.nHigh →
    (∀ x ∈ xs, sampleLegal s.cfg x.1 x.2 = true) →
    (∀ j < s.cfg.nHigh, ∃ t,
      execAll ((xs.take j).map (fun x => Instr.sample x.1 x.2)) s = .next t
      ∧ SameHandOff s t ∧ t.active = s.active ∧ t.writePos = j)
    ∧ ∃ t, execAll (xs.map (fun x => Instr.sample x.1 x.2)) s = .next t
      ∧ t.active = s.active.other ∧ t.frameReady = true ∧ t.writePos = 0 ∧ t.own = false
      ∧ ∀ a, t.halfAt (.high s.active.other) a = s.halfAt (.high s.active.other) a

/-- R175: TAKE reads and clears `FRAME_READY` in one step and names the ready side; ghost `OWN` is set
when it claimed a frame and stays as it was when it did not. -/
def Obligations.TakeClaimsFrame : Prop :=
  ∀ s : State,
    (s.frameReady = true → exec .take s = .next
      { s with frameReady := false, own := true, result := .take true s.active.other })
    ∧ (s.frameReady = false → exec .take s = .next { s with result := .take false s.active.other })

/-! ## Analysis -/

/-- R194: the windowed sample is the floor of the product over `2^WINDOW_SHIFT`, exactly, wherever that is
within s16; and it is so for every sample when the table's entry is at most `2^WINDOW_SHIFT`. Outside s16
the rule states no value, and the sample is free (the model's choice, log entry 22). -/
def Obligations.WindowMultipliesOnce : Prop :=
  ∀ (c : Config) (buf : List Half) (i : Nat) (x : Half), configOk c = true → buf[i]? = some x →
    ∃ (v : Half) (y : Int), (windowed c buf buf.length)[i]? = some v
      ∧ y = (x.toInt * sine c (i * (c.period / 2) / buf.length)) / 2 ^ c.windowShift
      ∧ (-2 ^ 15 ≤ y → y < 2 ^ 15 → v.toInt = y)
      ∧ (-2 ^ c.windowShift < sine c (i * (c.period / 2) / buf.length) →
          sine c (i * (c.period / 2) / buf.length) ≤ 2 ^ c.windowShift → -2 ^ 15 ≤ y ∧ y < 2 ^ 15)
      ∧ (¬(-2 ^ 15 ≤ y ∧ y < 2 ^ 15) → v = c.windowOutside buf.length i x)

/-- R197, R198, R199: the sum of squares is at most `2^31` and is `2^31` only when both parts are
-32768, where the bin is the fault MagOverflow (under the treatment of R320, log entry 7); every other
bin has the magnitude FSQRT shifted and clamped at 65535. -/
def Obligations.MagnitudeOfBin : Prop :=
  ∀ (c : Config) (n k : Nat) (re im : Half),
    sumOfSquares (re, im) ≤ 2 ^ 31
    ∧ (sumOfSquares (re, im) = 2 ^ 31 ↔ re.toInt = -32768 ∧ im.toInt = -32768)
    ∧ (re.toInt = -32768 ∧ im.toInt = -32768 → c.undefinedAs = .fault →
        magnitude c n k (re, im) = .error .magOverflow)
    ∧ (¬(re.toInt = -32768 ∧ im.toInt = -32768) → ∃ v, magnitude c n k (re, im) = .ok v
        ∧ v = min (fixedSqrt c (re.toInt.natAbs ^ 2 + im.toInt.natAbs ^ 2) / 2 ^ c.magShift) 65535)

/-- R202: each low band is the largest magnitude of its bin range, and the ranges are contiguous from
`LOW_FIRST_BIN` to the last entry of the table, each ending at its own entry. -/
def Obligations.LowBandsAreRangeMaxima : Prop :=
  ∀ (c : Config) (mag : List Nat), configOk c = true → lowBandsOk c = true →
    mag.length = c.nLow / 2 →
    lowBandFirst c 0 = c.lowFirstBin
    ∧ (∀ b < 6, c.lowBandMap[b]? = some (lowBandLast c b))
    ∧ (∀ b < 5, lowBandFirst c (b + 1) = lowBandLast c b + 1)
    ∧ ∀ b < 6, lowBandFirst c b ≤ lowBandLast c b
      ∧ (∃ k, lowBandFirst c b ≤ k ∧ k ≤ lowBandLast c b ∧ mag[k]? = some (bandMap c mag b))
      ∧ ∀ k v, lowBandFirst c b ≤ k → k ≤ lowBandLast c b → mag[k]? = some v → v ≤ bandMap c mag b

/-- R207: the boundaries are the integer parts of the accumulator, strictly increasing, the first one
is 1, and the last is the first one reaching or exceeding the half-length. -/
def Obligations.BoundariesRiseToHalfLength : Prop :=
  ∀ g h : Nat, 0x10000 ≤ g → 2 ≤ h →
    (∀ i < (boundaries g h).length,
      (boundaries g h)[i]? = some (((expStep g)^[i + 1] 0) / 2 ^ 16))
    ∧ (boundaries g h).Pairwise (· < ·)
    ∧ (boundaries g h).head? = some 1
    ∧ (∃ b, (boundaries g h).getLast? = some b ∧ h ≤ b)
    ∧ ∀ b ∈ (boundaries g h).dropLast, b < h

/-- R208: band `k` runs from boundary `k - 1` (from 0 for the first) up to but not including boundary `k`
or `H`; the bands are contiguous, none is empty, they cover the bins 0 to `H - 1` exactly once, and band
0 is bin 0 alone. -/
def Obligations.HighBandsPartitionBins : Prop :=
  ∀ (c : Config) (h : Nat), 0x10000 ≤ c.expGrowth → 2 ≤ h →
    highBandFirst c h 0 = 0 ∧ highBandEnd c h 0 = 1
    ∧ (∀ k b, (boundaries c.expGrowth h)[k]? = some b →
        highBandFirst c h (k + 1) = b ∧ highBandEnd c h k = min b h)
    ∧ (∀ k < (boundaries c.expGrowth h).length, highBandFirst c h k < highBandEnd c h k)
    ∧ ∀ i < h, ∃! k, k < (boundaries c.expGrowth h).length
        ∧ highBandFirst c h k ≤ i ∧ i < highBandEnd c h k

/-- R209: a high band is the largest magnitude of its range, or the floor of their mean. -/
def Obligations.HighBandAggregates : Prop :=
  ∀ (c : Config) (mag : List Nat) (h k : Nat), 0x10000 ≤ c.expGrowth → 2 ≤ h → mag.length = h →
    k < (boundaries c.expGrowth h).length →
    (c.expAgg = .max →
      (∃ i, highBandFirst c h k ≤ i ∧ i < highBandEnd c h k ∧ mag[i]? = some (bandExp c mag h k))
      ∧ ∀ i v, highBandFirst c h k ≤ i → i < highBandEnd c h k → mag[i]? = some v →
          v ≤ bandExp c mag h k)
    ∧ (c.expAgg = .mean →
      bandExp c mag h k
        = (∑ i ∈ Finset.Ico (highBandFirst c h k) (highBandEnd c h k), mag.getD i 0)
          / (highBandEnd c h k - highBandFirst c h k))

/-- R220, R221: the peak is the first bin of largest magnitude, bin 0 excluded; when every other bin
is 0 it is index 1 with magnitude 0. -/
def Obligations.PeakIsFirstMaximum : Prop :=
  ∀ mag : List Nat, 2 ≤ mag.length →
    1 ≤ (peak mag).1 ∧ (peak mag).1 < mag.length
    ∧ mag[(peak mag).1]? = some (peak mag).2
    ∧ (∀ k v, 1 ≤ k → mag[k]? = some v → v ≤ (peak mag).2)
    ∧ (∀ k v, 1 ≤ k → k < (peak mag).1 → mag[k]? = some v → v < (peak mag).2)
    ∧ ((∀ k v, 1 ≤ k → mag[k]? = some v → v = 0) → peak mag = (1, 0))

/-- R190: ANLO completes for every snapshot whose spectrum has no bin at -32768 in both parts (or under
the other treatment of such a bin, log entry 7), and what it writes: the
energy, the bands, and the spectrum in place; all else stays. -/
def Obligations.AnloAnalysesSnapshot : Prop :=
  ∀ (s : State) (buf : List Half) (r : Spectrum), s.Inv → anloOk s.cfg = true →
    s.mayUseFrame = true → buf.length = s.cfg.nLow →
    (∀ i < s.cfg.nLow, s.halfAt .lowSnap i = buf[i]?) →
    fftApply s.cfg s.cfg.mLow false (windowed s.cfg buf s.cfg.nLow) (List.replicate s.cfg.nLow 0) = r →
    (s.cfg.undefinedAs = .run ∨ ∀ p ∈ (r.re.zip r.im).take (s.cfg.nLow / 2),
      ¬(p.1.toInt = -32768 ∧ p.2.toInt = -32768)) →
    ∃ t mag, exec .anlo s = .next t
      ∧ mag.length = s.cfg.nLow / 2
      ∧ (∀ k p, ((r.re.zip r.im).take (s.cfg.nLow / 2))[k]? = some p →
          ∃ v, mag[k]? = some v ∧ magnitude s.cfg s.cfg.nLow k p = .ok v)
      ∧ t.energyLo.toNat = (buf.map (fun v => v.toInt.natAbs)).sum / s.cfg.nLow
      ∧ (∀ b : Fin 6, t.lowBand[b].toNat = bandMap s.cfg mag b)
      ∧ (∀ i < s.cfg.nLow, t.halfAt .lowSnap i = r.re[i]? ∧ t.halfAt .imag i = r.im[i]?)
      ∧ (∀ i, s.cfg.nLow ≤ i → t.halfAt .imag i = s.halfAt .imag i)
      ∧ SameBus s t ∧ SameCapture s t ∧ SameOutside s t
      ∧ t.high0 = s.high0 ∧ t.high1 = s.high1 ∧ t.analogSnap = s.analogSnap ∧ t.accel = s.accel
      ∧ t.frameBuf = s.frameBuf ∧ t.frameReady = s.frameReady ∧ t.own = s.own
      ∧ t.highBand = s.highBand ∧ t.energy = s.energy ∧ t.peakMag = s.peakMag
      ∧ t.peakIdx = s.peakIdx ∧ t.peakHz = s.peakHz
      ∧ t.commands = s.commands ∧ t.result = .empty

/-- R215, R222: ANHI completes under the same condition on the spectrum of the ready side, and what it
writes: the energy, the bands, the peak and its frequency (where each fits its u16, as R42 and R222 say
they do; a value beyond is free, log entry 22), and the spectrum in place; all else stays. -/
def Obligations.AnhiAnalysesReadySide : Prop :=
  ∀ (s : State) (buf : List Half) (r : Spectrum), s.Inv → anhiOk s.cfg = true →
    s.mayUseFrame = true → buf.length = s.cfg.nHigh →
    (∀ i < s.cfg.nHigh, s.halfAt (.high s.active.other) i = buf[i]?) →
    fftApply s.cfg s.cfg.mHigh false (windowed s.cfg buf s.cfg.nHigh) (List.replicate s.cfg.nHigh 0)
      = r →
    (s.cfg.undefinedAs = .run ∨ ∀ p ∈ (r.re.zip r.im).take (s.cfg.nHigh / 2),
      ¬(p.1.toInt = -32768 ∧ p.2.toInt = -32768)) →
    ∃ t mag, exec .anhi s = .next t
      ∧ mag.length = s.cfg.nHigh / 2
      ∧ (∀ k p, ((r.re.zip r.im).take (s.cfg.nHigh / 2))[k]? = some p →
          ∃ v, mag[k]? = some v ∧ magnitude s.cfg s.cfg.nHigh k p = .ok v)
      ∧ t.energy.toNat = (buf.map (fun v => v.toInt.natAbs)).sum / s.cfg.nHigh
      ∧ (∀ k : Fin 26, t.highBand[k].toNat = bandExp s.cfg mag (s.cfg.nHigh / 2) k)
      ∧ t.peakMag.toNat = (peak mag).2
      ∧ ((peak mag).1 < 2 ^ 16 → t.peakIdx.toNat = (peak mag).1)
      ∧ (t.peakIdx.toNat * s.cfg.sampleRate / s.cfg.nHigh < 2 ^ 16 →
          t.peakHz.toNat = t.peakIdx.toNat * s.cfg.sampleRate / s.cfg.nHigh)
      ∧ (∀ i < s.cfg.nHigh, t.halfAt (.high s.active.other) i = r.re[i]?
          ∧ t.halfAt .imag i = r.im[i]?)
      ∧ (∀ i, s.cfg.nHigh ≤ i → t.halfAt .imag i = s.halfAt .imag i)
      ∧ (∀ i, t.halfAt (.high s.active) i = s.halfAt (.high s.active) i)
      ∧ SameBus s t ∧ SameCapture s t ∧ SameHandOff s t ∧ SameOutside s t
      ∧ t.accel = s.accel ∧ t.frameBuf = s.frameBuf
      ∧ t.lowBand = s.lowBand ∧ t.energyLo = s.energyLo
      ∧ t.commands = s.commands ∧ t.result = .empty

/-- R225, one way: if ANLO and then ANHI complete, so do ANHI and then ANLO, with the same results. -/
def Obligations.AnalysisOrderDoesNotMatter : Prop :=
  ∀ s a b : State, s.Inv → exec .anlo s = .next a → exec .anhi a = .next b →
    ∃ c d, exec .anhi s = .next c ∧ exec .anlo c = .next d
      ∧ SameResults b d ∧ d.lowSnap = b.lowSnap ∧ d.high0 = b.high0 ∧ d.high1 = b.high1

/-- R352, R354: without ownership of the frame ANLO, ANHI and ENCODE are the fault FrameNotOwned (under
the treatment of R320, log entry 7). -/
def Obligations.UnownedFrameFaults : Prop :=
  ∀ s : State, s.own = false → s.cfg.undefinedAs = .fault →
    (anloOk s.cfg = true → exec .anlo s = .fault .frameNotOwned)
    ∧ (anhiOk s.cfg = true → exec .anhi s = .fault .frameNotOwned)
    ∧ exec .encode s = .fault .frameNotOwned

/-! ## The output frame -/

/-- R65: the two bytes of a 16-bit value under each byte order, and the value of two bytes. -/
def Obligations.TwoByteLayout : Prop :=
  ∀ v : Half, ∃ lo hi : Byte, lo.toNat = v.toNat % 256 ∧ hi.toNat = v.toNat / 256
    ∧ halfBytes .little v = [lo, hi] ∧ halfBytes .big v = [hi, lo]
    ∧ halfOfBytes .little lo hi = v ∧ halfOfBytes .big hi lo = v

/-- R232: an analog field loses nothing: a reading below `2^RAW_BITS` is multiplied by
`2^ANALOG_SHIFT`. -/
def Obligations.AnalogFieldKeepsReading : Prop :=
  ∀ (c : Config) (v : Half), configOk c = true → v.toNat < 2 ^ c.rawBits →
    (analogField c v).toNat = v.toNat * 2 ^ (16 - c.rawBits)
    ∧ (v.toNat = 2 ^ c.rawBits - 1 → (analogField c v).toNat = 0xFFFF - (2 ^ (16 - c.rawBits) - 1))

/-- R110, R231, R66: ENCODE writes the 96 bytes of the frame, each field at its offset in the
configured byte order, the accelerometer bytes copied as they are (claimed in `Idle` alone, as R355 asks,
log entry 17), sends a copy of them, and changes nothing else. -/
def Obligations.EncodeWritesFrame : Prop :=
  ∀ s : State, s.Inv → s.mayUseFrame = true →
    ∃ t bytes, exec .encode s = .next t
      ∧ t = { s with frameBuf := t.frameBuf
                     commands := s.commands ++ [.transportSend bytes]
                     result := .empty }
      ∧ bytes.length = 96
      ∧ (∀ i < 96, t.byteAt .frameBuf i = bytes[i]?)
      ∧ bytes.take 5 = [0x53, 0x42, 0x31, 0x2E, 0x30]
      ∧ (∀ b : Fin 6, (bytes.drop (5 + 2 * b)).take 2 = halfBytes s.cfg.byteOrder s.lowBand[b])
      ∧ (∀ k : Fin 26, (bytes.drop (17 + 2 * k)).take 2 = halfBytes s.cfg.byteOrder s.highBand[k])
      ∧ (bytes.drop 69).take 2 = halfBytes s.cfg.byteOrder s.energy
      ∧ (bytes.drop 71).take 2 = halfBytes s.cfg.byteOrder s.peakMag
      ∧ (bytes.drop 73).take 2 = halfBytes s.cfg.byteOrder s.peakHz
      ∧ (s.mode = .idle → ∀ i < 6, bytes[75 + i]? = s.byteAt .accel i)
      ∧ (∀ k < 6, ∃ v, s.halfAt .analogSnap k = some v
          ∧ (bytes.drop (81 + 2 * k)).take 2 = halfBytes s.cfg.byteOrder (analogField s.cfg v))
      ∧ bytes.drop 93 = [0x45, 0x4E, 0x44]

/-! ## The transaction -/

/-- R255: POLL from `Idle` starts a transaction, and outside `Idle` is a violation (R310). -/
def Obligations.PollStartsOrViolates : Prop :=
  ∀ s : State,
    (s.mode = .idle → exec .poll s = .next
      { s with mode := .starting, irqen := s.irqen ||| 1,
               commands := s.commands ++ [.busStartWrite s.cfg.accAddr 1], result := .empty })
    ∧ (s.mode ≠ .idle → exec .poll s = .next
      { s with mode := .needsReset, irqen := s.irqen &&& 0xC, dmaCnt := 0, dmaTcif := false,
               commands := s.commands ++ [.busStop], result := .empty })

/-- R275: REINIT from `Idle` or `NeedsReset` initialises the device, and in a busy state is a violation
(R310). -/
def Obligations.ReinitReturnsToIdle : Prop :=
  ∀ s : State,
    (s.mode = .idle ∨ s.mode = .needsReset → exec .reinit s = .next
      { s with mode := .idle, irqen := 0xC, dmaCnt := 0, dmaTcif := false,
               commands := s.commands ++ [.deviceInit], result := .empty })
    ∧ (s.mode ≠ .idle ∧ s.mode ≠ .needsReset → exec .reinit s = .next
      { s with mode := .needsReset, irqen := s.irqen &&& 0xC, dmaCnt := 0, dmaTcif := false,
               commands := s.commands ++ [.busStop], result := .empty })

/-- R280, R25: RDMODE returns the number of the transaction state and changes nothing else. -/
def Obligations.RdmodeReadsMode : Prop :=
  ∀ s : State, ∃ m : BitVec 3, exec .rdmode s = .next { s with result := .rdmode m }
    ∧ (s.mode = .idle → m = 0) ∧ (s.mode = .starting → m = 1)
    ∧ (s.mode = .sendingRegister → m = 2) ∧ (s.mode = .reading → m = 3)
    ∧ (s.mode = .stopping → m = 4) ∧ (s.mode = .needsReset → m = 5)

/-- R282: a BUSIRQ with an error bit acknowledges the error bits and forces `NeedsReset` from any
state. -/
def Obligations.BusErrorForcesReset : Prop :=
  ∀ (b : BitVec 6) (s : State), (nack b = true ∨ arLo b = true ∨ bErr b = true) →
    exec (.busirq b) s = .next
      { s with mode := .needsReset, irqen := s.irqen &&& 0xC, dmaCnt := 0, dmaTcif := false,
               commands := s.commands ++ [.irqAck (b &&& 0x38), .busStop], result := .empty }

/-- R261, R260: the three progress transitions of BUSIRQ, whatever other progress bits are set. -/
def Obligations.BusirqProgresses : Prop :=
  ∀ (b : BitVec 6) (s : State), b &&& 0x38 = 0 →
    (s.mode = .starting → txRdy b = true → exec (.busirq b) s = .next
      { s with mode := .sendingRegister, irqen := (s.irqen &&& 0xE) ||| 2,
               commands := s.commands ++ [.busSendByte (s.cfg.accReg ||| s.cfg.accAutoinc)],
               result := .empty })
    ∧ (s.mode = .sendingRegister → tc b = true → exec (.busirq b) s = .next
      { s with mode := .reading, irqen := s.irqen &&& 0xD, dmaCnt := 6, dmaTcif := false,
               commands := s.commands ++ [.busStartRead s.cfg.accAddr 6], result := .empty })
    ∧ (s.mode = .stopping → stopF b = true → exec (.busirq b) s = .next
      { s with mode := .idle, commands := s.commands ++ [.irqAck 4], result := .empty })

/-- R262, R268 (d): a BUSIRQ the state does not expect acknowledges every bit presented and is a
violation. -/
def Obligations.UnexpectedBusirqViolates : Prop :=
  ∀ (b : BitVec 6) (s : State), b &&& 0x38 = 0 →
    (s.mode = .idle ∨ s.mode = .reading ∨ (s.mode = .starting ∧ txRdy b = false)
      ∨ (s.mode = .sendingRegister ∧ tc b = false) ∨ (s.mode = .stopping ∧ stopF b = false)) →
    exec (.busirq b) s = .next
      { s with mode := .needsReset, irqen := s.irqen &&& 0xC, dmaCnt := 0, dmaTcif := false,
               commands := s.commands ++ (if b = 0 then [.busStop] else [.irqAck b, .busStop]),
               result := .empty }

/-- R264: in `NeedsReset` a BUSIRQ without error bits is acknowledged and changes nothing. -/
def Obligations.BusirqAbsorbedInNeedsReset : Prop :=
  ∀ (b : BitVec 6) (s : State), b &&& 0x38 = 0 → s.mode = .needsReset →
    exec (.busirq b) s = .next
      { s with commands := s.commands ++ (if b = 0 then [] else [.irqAck b]), result := .empty }

/-- The columns of R252 for BUSIRQ, evaluated left to right. -/
def transitionOnBusirq (m : Mode) (b : BitVec 6) : Mode :=
  if b &&& 0x38 ≠ 0 then .needsReset
  else match m with
    | .idle => .needsReset
    | .starting => if b.getLsbD 0 then .sendingRegister else .needsReset
    | .sendingRegister => if b.getLsbD 1 then .reading else .needsReset
    | .reading => .needsReset
    | .stopping => if b.getLsbD 2 then .idle else .needsReset
    | .needsReset => .needsReset

/-- R252: the whole transition function of `MODE`, one clause per column group of the table. -/
def Obligations.TransitionTable : Prop :=
  ∀ s : State,
    (∃ t, exec .poll s = .next t ∧ t.mode = if s.mode = .idle then .starting else .needsReset)
    ∧ (∀ b, ∃ t, exec (.busirq b) s = .next t ∧ t.mode = transitionOnBusirq s.mode b)
    ∧ (∃ t, exec .dmadone s = .next t
        ∧ (s.dmaTcif = true → s.BusInv → s.mode = .reading ∧ t.mode = .stopping)
        ∧ (s.dmaTcif = false → t.mode = s.mode))
    ∧ (∃ t, exec .reinit s = .next t
        ∧ t.mode = if s.mode = .idle ∨ s.mode = .needsReset then .idle else .needsReset)
    ∧ (∀ b t, exec (.dmawr b) s = .next t → t.mode = s.mode)
    ∧ (∃ t, exec .rdmode s = .next t ∧ t.mode = s.mode)

/-- R270: DMAWR deposits the byte at `ACC_BYTES - DMA_CNT`, counts down, and sets `DMA_TCIF` with the
last byte; with `DMA_CNT = 0` it is ignored. Nothing else changes. -/
def Obligations.DmawrDepositsByte : Prop :=
  ∀ (b : Byte) (s : State),
    (s.dmaCnt = 0 → exec (.dmawr b) s = .next { s with result := .empty })
    ∧ (s.Inv → s.dmaCnt ≠ 0 → ∃ t, exec (.dmawr b) s = .next t
        ∧ t = { s with accel := t.accel, dmaCnt := s.dmaCnt - 1,
                       dmaTcif := decide (s.dmaCnt = 1), result := .empty }
        ∧ ∀ a, t.byteAt .accel a
            = if a = 6 - s.dmaCnt.toNat then some b else s.byteAt .accel a)

/-- R272, R273: DMADONE acts only on a pending completion: in `Reading` it issues the stop. -/
def Obligations.DmadoneStopsTheBus : Prop :=
  ∀ s : State,
    (s.dmaTcif = false → exec .dmadone s = .next { s with result := .empty })
    ∧ (s.dmaTcif = true → s.mode = .reading → exec .dmadone s = .next
        { s with mode := .stopping, dmaTcif := false, commands := s.commands ++ [.busStop],
                 result := .empty })
    ∧ (s.dmaTcif = true → s.mode ≠ .reading → exec .dmadone s = .next
        { s with mode := .needsReset, irqen := s.irqen &&& 0xC, dmaCnt := 0, dmaTcif := false,
                 commands := s.commands ++ [.busStop], result := .empty })

/-- R268: `IRQ_ACK` never has a bit set that was not presented, and no other operation emits one. -/
def Obligations.AcknowledgesOnlyPresented : Prop :=
  ∀ (i : Instr) (s t : State), exec i s = .next t →
    ∃ cs, t.commands = s.commands ++ cs
      ∧ ∀ m, Command.irqAck m ∈ cs → ∃ b, i = .busirq b ∧ m &&& b = m

/-- R313: the only way out of `NeedsReset` is REINIT, and it does get out. -/
def Obligations.OnlyReinitLeavesNeedsReset : Prop :=
  (∀ (i : Instr) (s t : State), s.mode = .needsReset → exec i s = .next t →
    t.mode = .needsReset ∨ i = .reinit)
  ∧ ∀ s : State, s.mode = .needsReset → ∃ t, exec .reinit s = .next t ∧ t.mode = .idle
      ∧ t.irqen = 0xC ∧ t.dmaCnt = 0 ∧ t.dmaTcif = false
      ∧ t.commands = s.commands ++ [.deviceInit] ∧ t.accel = s.accel

/-- R281: from `Idle`, a poll and the full success event sequence end in `Idle` with `ACCEL` holding
the six bytes in order, and the five commands of the table emitted in order. -/
def Obligations.SuccessSequence : Prop :=
  ∀ (s : State) (b0 b1 b2 b3 b4 b5 : Byte), s.Inv → s.mode = .idle → s.irqen = 0xC →
    ∃ t, execAll [.poll, .busirq 0x01, .busirq 0x02, .dmawr b0, .dmawr b1, .dmawr b2, .dmawr b3,
        .dmawr b4, .dmawr b5, .dmadone, .busirq 0x04] s = .next t
      ∧ t = { s with accel := t.accel
                     commands := s.commands ++ [.busStartWrite s.cfg.accAddr 1,
                       .busSendByte (s.cfg.accReg ||| s.cfg.accAutoinc),
                       .busStartRead s.cfg.accAddr 6, .busStop, .irqAck 4]
                     result := .empty }
      ∧ ∀ k < 6, t.byteAt .accel k = [b0, b1, b2, b3, b4, b5][k]?

/-- R283: from every state two REINIT, and from every state but `Idle` a POLL and a REINIT, lead to
`Idle` with nothing in flight. -/
def Obligations.RecoveryInTwoOperations : Prop :=
  ∀ s : State,
    (∃ t, execAll [.reinit, .reinit] s = .next t ∧ t.mode = .idle ∧ t.irqen = 0xC ∧ t.dmaCnt = 0
      ∧ t.dmaTcif = false)
    ∧ (s.mode ≠ .idle → ∃ t, execAll [.poll, .reinit] s = .next t ∧ t.mode = .idle
      ∧ t.irqen = 0xC ∧ t.dmaCnt = 0 ∧ t.dmaTcif = false)

/-! ## The whole machine -/

/-- R317: what the context of each port may not change. For the DMA port a state that meets R47 is
needed: the violation UNEXPECTED_DMA is unreachable there (R300). -/
def Obligations.ContextsKeepTheirState : Prop :=
  ∀ (i : Instr) (s t : State), s.BusInv → exec i s = .next t →
    match i.op.port with
    | .au => t = { s with result := t.result }
    | .cap => SameBus s t ∧ t.accel = s.accel ∧ SameResults s t ∧ t.frameBuf = s.frameBuf
        ∧ t.imag = s.imag ∧ t.commands = s.commands ∧ SameOutside s t
        ∧ t.halves (.high s.active.other) = s.halves (.high s.active.other)
    | .ml => SameCapture s t ∧ t.accel = s.accel ∧ t.analogSnap = s.analogSnap ∧ SameOutside s t
        ∧ t.halves (.high s.active) = s.halves (.high s.active)
        ∧ (t.frameReady = true → s.frameReady = true)
    | .bus => SameCapture s t ∧ SameHandOff s t ∧ SameHigh s t ∧ SameResults s t
        ∧ t.accel = s.accel ∧ t.frameBuf = s.frameBuf ∧ SameOutside s t
    | .dma => t = { s with accel := t.accel, dmaCnt := t.dmaCnt, dmaTcif := t.dmaTcif,
                           mode := t.mode, commands := t.commands, result := t.result }

/-- R356, one way: if an operation of port ML, BUS or DMA and then a SAMPLE that does not flip complete,
so do the SAMPLE and then the operation, and they end in the same state but for the result record of the
last of the two. -/
def Obligations.SampleCommutesWithoutFlip : Prop :=
  ∀ (i : Instr) (raw : Half) (an : Analog) (s a b : State),
    i.op.port = .ml ∨ i.op.port = .bus ∨ i.op.port = .dma →
    s.writePos + 1 ≠ s.cfg.nHigh →
    exec i s = .next a → exec (.sample raw an) a = .next b →
    ∃ c d, exec (.sample raw an) s = .next c ∧ exec i c = .next d
      ∧ { d with result := b.result } = b ∧ d.result = a.result

/-- R51, R340: what reset leaves, for any configuration; `State.reset` is the one of the default
configuration (the model's choice, log entry 2). `MS_TICK` is not stated by the spec and is not
claimed here. -/
def Obligations.ResetValues : Prop :=
  ∀ c : Config, ∃ s, State.resetWith c = s ∧ State.reset = State.resetWith Config.default
    ∧ s.mode = .needsReset ∧ s.irqen = 0 ∧ s.frameReady = false ∧ s.active = .side0
    ∧ s.dmaCnt = 0 ∧ s.dmaTcif = false ∧ s.writePos = 0 ∧ s.head = 0 ∧ s.decAcc = 0 ∧ s.decCnt = 0
    ∧ s.avg = 0 ∧ (∀ b : Fin 6, s.lowBand[b] = 0) ∧ (∀ k : Fin 26, s.highBand[k] = 0)
    ∧ s.energy = 0 ∧ s.energyLo = 0 ∧ s.peakMag = 0 ∧ s.peakIdx = 0 ∧ s.peakHz = 0
    ∧ (∀ side a, s.halfAt (.high side) a = some 0) ∧ (∀ a, s.halfAt .ring a = some 0)
    ∧ (∀ a, s.halfAt .lowSnap a = some 0) ∧ (∀ a, s.halfAt .analogSnap a = some 0)
    ∧ (∀ a, s.byteAt .accel a = some 0) ∧ (∀ a, s.halfAt .imag a = none)
    ∧ (∀ a, s.byteAt .frameBuf a = none) ∧ s.own = false ∧ s.commands = []

/-- R47, R51: the invariant holds right after reset, under every well-formed configuration, the default
one (the model's choice, log entry 2) among them. -/
def Obligations.ResetMeetsInvariant : Prop :=
  (∀ c : Config, configOk c = true → (State.resetWith c).Inv) ∧ State.reset.Inv

/-- R47, R285 with R36, R69, R286: every step keeps the invariant, from every state that meets it. -/
def Obligations.StepKeepsInvariant : Prop :=
  ∀ s t : State, s.Inv → step s = .next t → t.Inv

/-- R69, R320: from a state that meets the invariant no step computes an index outside a memory and
none reads an element never written; and when the open behaviours run (log entry 7) no step faults at
all. -/
def Obligations.GoodStatesNeverMisaddress : Prop :=
  ∀ s : State, s.Inv →
    step s ≠ .fault .indexRange ∧ step s ≠ .fault .unwrittenRead
    ∧ (s.cfg.undefinedAs = .run → ∀ f, step s ≠ .fault f)

/-- R199 at the operation: ANLO, and ANHI, of a good owned state is the fault MagOverflow exactly when its
spectrum has a bin below N/2 with both parts -32768 (under the treatment of R320, log entry 7). -/
def Obligations.OverflowingBinFaults : Prop :=
  ∀ (s : State) (buf : List Half) (r : Spectrum), s.Inv → s.own = true →
    s.cfg.undefinedAs = .fault →
    (anloOk s.cfg = true → buf.length = s.cfg.nLow →
      (∀ i < s.cfg.nLow, s.halfAt .lowSnap i = buf[i]?) →
      fftApply s.cfg s.cfg.mLow false (windowed s.cfg buf s.cfg.nLow)
        (List.replicate s.cfg.nLow 0) = r →
      (exec .anlo s = .fault .magOverflow ↔
        ∃ p ∈ (r.re.zip r.im).take (s.cfg.nLow / 2), p.1.toInt = -32768 ∧ p.2.toInt = -32768))
    ∧ (anhiOk s.cfg = true → buf.length = s.cfg.nHigh →
      (∀ i < s.cfg.nHigh, s.halfAt (.high s.active.other) i = buf[i]?) →
      fftApply s.cfg s.cfg.mHigh false (windowed s.cfg buf s.cfg.nHigh)
        (List.replicate s.cfg.nHigh 0) = r →
      (exec .anhi s = .fault .magOverflow ↔
        ∃ p ∈ (r.re.zip r.im).take (s.cfg.nHigh / 2), p.1.toInt = -32768 ∧ p.2.toInt = -32768))
end

