-- ==== Sys2Proof/Laws/Memory.lean ====
section
/-! SUPPORT. The laws of one memory space: reading after a write, the canonical form kept by every
write, and ranges. -/

namespace Sys2Proof.Machine

variable {w : Nat} {d : Option (BitVec w)}

/-- Below every listed index a canonical memory reads as unlisted. -/
theorem Mem.read_of_lt {m : Mem w} {a : Nat} (h : ∀ c ∈ m, a < c.1) : Mem.read d m a = d := by
  induction m with
  | nil => rfl
  | cons c rest ih =>
    obtain ⟨k, v⟩ := c
    have hk : a < k := h (k, v) (by simp)
    rw [Mem.read, if_neg (by omega)]
    exact ih (fun c hc => h c (by simp [hc]))

/-- Every entry a write leaves is an old one or the one written. -/
theorem Mem.mem_write {m : Mem w} {a : Nat} {v : BitVec w} {c : Nat × BitVec w}
    (h : c ∈ Mem.write d m a v) : c ∈ m ∨ (c = (a, v) ∧ some v ≠ d) := by
  induction m with
  | nil =>
    simp only [Mem.write] at h
    split at h
    · cases h
    · rename_i hv
      exact .inr ⟨by simpa using h, hv⟩
  | cons e rest ih =>
    obtain ⟨k, u⟩ := e
    simp only [Mem.write] at h
    split at h
    · split at h
      · exact .inl h
      · rename_i hv
        rcases List.mem_cons.1 h with h | h
        · exact .inr ⟨h, hv⟩
        · exact .inl h
    · split at h
      · split at h
        · exact .inl (by simp [h])
        · rename_i hv
          rcases List.mem_cons.1 h with h | h
          · exact .inr ⟨h, hv⟩
          · exact .inl (by simp [h])
      · rcases List.mem_cons.1 h with h | h
        · exact .inl (by simp [h])
        · rcases ih h with h | h
          · exact .inl (by simp [h])
          · exact .inr h

/-- A write keeps the canonical form. -/
theorem Mem.write_wf {m : Mem w} (h : Mem.wf d m) (a : Nat) (v : BitVec w) :
    Mem.wf d (Mem.write d m a v) := by
  refine ⟨?_, fun c hc => ?_⟩
  · obtain ⟨hs, -⟩ := h
    induction m with
    | nil =>
      simp only [Mem.write]
      split <;> simp
    | cons e rest ih =>
      obtain ⟨k, u⟩ := e
      rw [List.pairwise_cons] at hs
      simp only [Mem.write]
      split
      · rename_i hlt
        split
        · exact List.pairwise_cons.2 hs
        · refine List.pairwise_cons.2 ⟨fun c hc => ?_, List.pairwise_cons.2 hs⟩
          rcases List.mem_cons.1 hc with rfl | hc
          · exact hlt
          · exact lt_trans hlt (hs.1 c hc)
      · rename_i hge
        split
        · rename_i heq
          subst heq
          split
          · exact hs.2
          · exact List.pairwise_cons.2 hs
        · rename_i hne
          refine List.pairwise_cons.2 ⟨fun c hc => ?_, ih hs.2⟩
          rcases Mem.mem_write hc with hc | ⟨rfl, -⟩
          · exact hs.1 c hc
          · simp only
            omega
  · rcases Mem.mem_write hc with hc | ⟨rfl, hv⟩
    · exact h.2 c hc
    · exact hv

/-- A write inside the size stays inside it. -/
theorem Mem.write_within {size : Nat} {m : Mem w} (h : Mem.within size m) {a : Nat} (ha : a < size)
    (v : BitVec w) : Mem.within size (Mem.write d m a v) := by
  intro c hc
  rcases Mem.mem_write hc with hc | ⟨rfl, -⟩
  · exact h c hc
  · exact ha

/-- What a write leaves at every index. -/
theorem Mem.read_write {m : Mem w} (h : Mem.wf d m) (a b : Nat) (v : BitVec w) :
    Mem.read d (Mem.write d m a v) b = if b = a then some v else Mem.read d m b := by
  obtain ⟨hs, -⟩ := h
  induction m with
  | nil =>
    by_cases hv : some v = d <;> by_cases hb : b = a <;> simp [Mem.write, Mem.read, hv, hb]
  | cons e rest ih =>
    obtain ⟨k, u⟩ := e
    rw [List.pairwise_cons] at hs
    have ih := ih hs.2
    have hlow : ∀ x, x ≤ k → Mem.read d rest x = d := fun x hx =>
      Mem.read_of_lt (fun c hc => lt_of_le_of_lt hx (hs.1 c hc))
    simp only [Mem.write]
    by_cases hlt : a < k
    · rw [if_pos hlt]
      by_cases hv : some v = d
      · rw [if_pos hv]
        by_cases hb : b = a
        · subst hb
          simp [Mem.read, hv, hlow b hlt.le, Nat.ne_of_lt hlt]
        · simp [hb]
      · rw [if_neg hv]
        by_cases hb : b = a <;> simp [Mem.read, hb]
    · rw [if_neg hlt]
      by_cases heq : a = k
      · subst heq
        rw [if_pos rfl]
        by_cases hv : some v = d
        · rw [if_pos hv]
          by_cases hb : b = a
          · subst hb
            simp [hlow b le_rfl, hv]
          · simp [Mem.read, hb]
        · rw [if_neg hv]
          by_cases hb : b = a <;> simp [Mem.read, hb]
      · rw [if_neg heq]
        by_cases hb : b = k
        · subst hb
          simp [Mem.read, Ne.symm heq]
        · simp [Mem.read, hb, ih]

/-- A range of writes keeps the canonical form. -/
theorem Mem.writeN_wf {m : Mem w} (h : Mem.wf d m) (base : Nat) (vs : List (BitVec w)) :
    Mem.wf d (Mem.writeN d m base vs) := by
  induction vs generalizing m base with
  | nil => exact h
  | cons v vs ih => exact ih (Mem.write_wf h base v) (base + 1)

/-- A range of writes inside the size stays inside it. -/
theorem Mem.writeN_within {size : Nat} {m : Mem w} (h : Mem.within size m) {base : Nat}
    {vs : List (BitVec w)} (hb : base + vs.length ≤ size) :
    Mem.within size (Mem.writeN d m base vs) := by
  induction vs generalizing m base with
  | nil => exact h
  | cons v vs ih =>
    rw [List.length_cons] at hb
    exact ih (Mem.write_within h (by omega) v) (by omega)

/-- What a range of writes leaves at every index. -/
theorem Mem.read_writeN {m : Mem w} (h : Mem.wf d m) (base b : Nat) (vs : List (BitVec w)) :
    Mem.read d (Mem.writeN d m base vs) b =
      if base ≤ b ∧ b < base + vs.length then vs[b - base]? else Mem.read d m b := by
  induction vs generalizing m base with
  | nil => simp [Mem.writeN]
  | cons v vs ih =>
    rw [Mem.writeN, ih (Mem.write_wf h base v), Mem.read_write h]
    rw [List.length_cons]
    by_cases hb : b = base
    · subst hb
      simp
    · by_cases hr : base + 1 ≤ b ∧ b < base + 1 + vs.length
      · rw [if_pos hr, if_pos (by omega), show b - base = (b - (base + 1)) + 1 by omega]
        simp
      · rw [if_neg hr, if_neg hb, if_neg (by omega)]

/-- A range read element by element. -/
theorem Mem.readN_eq_some {m : Mem w} {base n : Nat} {vs : List (BitVec w)} :
    Mem.readN d m base n = some vs ↔
      vs.length = n ∧ ∀ i < n, Mem.read d m (base + i) = vs[i]? := by
  induction n generalizing base vs with
  | zero =>
    constructor
    · intro h
      simp only [Mem.readN, Option.some.injEq] at h
      subst h
      simp
    · rintro ⟨h, -⟩
      simp [Mem.readN, List.length_eq_zero_iff.1 h]
  | succ n ih =>
    constructor
    · intro h
      rw [Mem.readN] at h
      split at h
      · rename_i v us hv hus
        cases h
        obtain ⟨hl, hi⟩ := ih.1 hus
        refine ⟨by simp [hl], fun i hin => ?_⟩
        cases i with
        | zero => simpa using hv
        | succ i =>
          have := hi i (by omega)
          rw [show base + (i + 1) = base + 1 + i by omega]
          simpa using this
      · cases h
    · rintro ⟨hl, hi⟩
      cases vs with
      | nil => simp at hl
      | cons v us =>
        have h0 : Mem.read d m base = some v := by simpa using hi 0 (by omega)
        have hus : Mem.readN d m (base + 1) n = some us := by
          refine ih.2 ⟨by simpa using hl, fun i hin => ?_⟩
          have := hi (i + 1) (by omega)
          rw [show base + (i + 1) = base + 1 + i by omega] at this
          simpa using this
        rw [Mem.readN, h0, hus]

/-- A range whose unlisted elements have a value is always readable. -/
theorem Mem.readN_of_value {v : BitVec w} (m : Mem w) (base n : Nat) :
    ∃ vs, Mem.readN (some v) m base n = some vs := by
  have hr : ∀ a, ∃ u, Mem.read (some v) m a = some u := by
    intro a
    induction m with
    | nil => exact ⟨v, rfl⟩
    | cons c rest ih =>
      obtain ⟨k, u⟩ := c
      by_cases h : a = k
      · exact ⟨u, by simp [Mem.read, h]⟩
      · obtain ⟨u', hu⟩ := ih
        exact ⟨u', by simp [Mem.read, h, hu]⟩
  induction n generalizing base with
  | zero => exact ⟨[], rfl⟩
  | succ n ih =>
    obtain ⟨u, hu⟩ := hr base
    obtain ⟨us, hus⟩ := ih (base + 1)
    exact ⟨u :: us, by rw [Mem.readN, hu, hus]⟩

/-- What was just written reads back. -/
theorem Mem.readN_writeN {m : Mem w} (h : Mem.wf d m) (base : Nat) (vs : List (BitVec w)) :
    Mem.readN d (Mem.writeN d m base vs) base vs.length = some vs := by
  refine Mem.readN_eq_some.2 ⟨rfl, fun i hi => ?_⟩
  rw [Mem.read_writeN h, if_pos (by omega), Nat.add_sub_cancel_left]

/-- Two canonical memories that read alike everywhere are equal data. -/
theorem Mem.ext_of_read {m m' : Mem w} (h : Mem.wf d m) (h' : Mem.wf d m')
    (hr : ∀ a, Mem.read d m a = Mem.read d m' a) : m = m' := by
  induction m generalizing m' with
  | nil =>
    cases m' with
    | nil => rfl
    | cons e rest =>
      obtain ⟨k, v⟩ := e
      have := hr k
      simp only [Mem.read, if_true] at this
      exact absurd this.symm (h'.2 (k, v) (by simp))
  | cons e rest ih =>
    obtain ⟨k, v⟩ := e
    have hs := List.pairwise_cons.1 h.1
    cases m' with
    | nil =>
      have := hr k
      simp only [Mem.read, if_true] at this
      exact absurd this (h.2 (k, v) (by simp))
    | cons e' rest' =>
      obtain ⟨k', v'⟩ := e'
      have hs' := List.pairwise_cons.1 h'.1
      have hk : k = k' := by
        by_contra hne
        rcases Nat.lt_or_gt_of_ne hne with hlt | hlt
        · have := hr k
          simp only [Mem.read, if_true, if_neg hne] at this
          rw [Mem.read_of_lt (fun c hc => lt_trans hlt (hs'.1 c hc))] at this
          exact h.2 (k, v) (by simp) this
        · have := hr k'
          simp only [Mem.read, if_true, if_neg (Ne.symm hne)] at this
          rw [Mem.read_of_lt (fun c hc => lt_trans hlt (hs.1 c hc))] at this
          exact h'.2 (k', v') (by simp) this.symm
      subst hk
      have hv : v = v' := by
        have := hr k
        simpa [Mem.read] using this
      subst hv
      congr 1
      refine ih ⟨hs.2, fun c hc => h.2 c (by simp [hc])⟩
        ⟨hs'.2, fun c hc => h'.2 c (by simp [hc])⟩ (fun a => ?_)
      by_cases ha : a = k
      · subst ha
        rw [Mem.read_of_lt (fun c hc => hs.1 c hc), Mem.read_of_lt (fun c hc => hs'.1 c hc)]
      · have := hr a
        simpa [Mem.read, ha] using this

end Sys2Proof.Machine
end

