-- ==== Sys2Proof/Laws/State.lean ====
section
/-! SUPPORT. What each update of the state does to each field: one lemma per field per update, true by
definition, so that no later proof unfolds a record update. -/

namespace Sys2Proof.Machine

/-! ## `emit` -/

@[simp] theorem State.emit_cfg (s : State) (x : Command) : (s.emit x).cfg = s.cfg := rfl
@[simp] theorem State.emit_mode (s : State) (x : Command) : (s.emit x).mode = s.mode := rfl
@[simp] theorem State.emit_irqen (s : State) (x : Command) : (s.emit x).irqen = s.irqen := rfl
@[simp] theorem State.emit_frameReady (s : State) (x : Command) : (s.emit x).frameReady = s.frameReady := rfl
@[simp] theorem State.emit_active (s : State) (x : Command) : (s.emit x).active = s.active := rfl
@[simp] theorem State.emit_dmaCnt (s : State) (x : Command) : (s.emit x).dmaCnt = s.dmaCnt := rfl
@[simp] theorem State.emit_dmaTcif (s : State) (x : Command) : (s.emit x).dmaTcif = s.dmaTcif := rfl
@[simp] theorem State.emit_msTick (s : State) (x : Command) : (s.emit x).msTick = s.msTick := rfl
@[simp] theorem State.emit_writePos (s : State) (x : Command) : (s.emit x).writePos = s.writePos := rfl
@[simp] theorem State.emit_head (s : State) (x : Command) : (s.emit x).head = s.head := rfl
@[simp] theorem State.emit_decAcc (s : State) (x : Command) : (s.emit x).decAcc = s.decAcc := rfl
@[simp] theorem State.emit_decCnt (s : State) (x : Command) : (s.emit x).decCnt = s.decCnt := rfl
@[simp] theorem State.emit_avg (s : State) (x : Command) : (s.emit x).avg = s.avg := rfl
@[simp] theorem State.emit_lowBand (s : State) (x : Command) : (s.emit x).lowBand = s.lowBand := rfl
@[simp] theorem State.emit_highBand (s : State) (x : Command) : (s.emit x).highBand = s.highBand := rfl
@[simp] theorem State.emit_energy (s : State) (x : Command) : (s.emit x).energy = s.energy := rfl
@[simp] theorem State.emit_energyLo (s : State) (x : Command) : (s.emit x).energyLo = s.energyLo := rfl
@[simp] theorem State.emit_peakMag (s : State) (x : Command) : (s.emit x).peakMag = s.peakMag := rfl
@[simp] theorem State.emit_peakIdx (s : State) (x : Command) : (s.emit x).peakIdx = s.peakIdx := rfl
@[simp] theorem State.emit_peakHz (s : State) (x : Command) : (s.emit x).peakHz = s.peakHz := rfl
@[simp] theorem State.emit_own (s : State) (x : Command) : (s.emit x).own = s.own := rfl
@[simp] theorem State.emit_high0 (s : State) (x : Command) : (s.emit x).high0 = s.high0 := rfl
@[simp] theorem State.emit_high1 (s : State) (x : Command) : (s.emit x).high1 = s.high1 := rfl
@[simp] theorem State.emit_ring (s : State) (x : Command) : (s.emit x).ring = s.ring := rfl
@[simp] theorem State.emit_lowSnap (s : State) (x : Command) : (s.emit x).lowSnap = s.lowSnap := rfl
@[simp] theorem State.emit_imag (s : State) (x : Command) : (s.emit x).imag = s.imag := rfl
@[simp] theorem State.emit_analogSnap (s : State) (x : Command) : (s.emit x).analogSnap = s.analogSnap := rfl
@[simp] theorem State.emit_accel (s : State) (x : Command) : (s.emit x).accel = s.accel := rfl
@[simp] theorem State.emit_frameBuf (s : State) (x : Command) : (s.emit x).frameBuf = s.frameBuf := rfl
@[simp] theorem State.emit_commands (s : State) (x : Command) : (s.emit x).commands = s.commands ++ [x] := rfl
@[simp] theorem State.emit_result (s : State) (x : Command) : (s.emit x).result = s.result := rfl
@[simp] theorem State.emit_inbox (s : State) (x : Command) : (s.emit x).inbox = s.inbox := rfl
@[simp] theorem State.emit_halves (s : State) (x : Command) (sp : HalfSpace) :
    (s.emit x).halves sp = s.halves sp := by
  rcases sp with (_ | _) | _ | _ | _ | _ <;> rfl
@[simp] theorem State.emit_bytes (s : State) (x : Command) (sp : ByteSpace) :
    (s.emit x).bytes sp = s.bytes sp := by
  cases sp <;> rfl
@[simp] theorem State.emit_halfAt (s : State) (x : Command) (sp : HalfSpace) (k : Nat) :
    (s.emit x).halfAt sp k = s.halfAt sp k := by
  simp [State.halfAt]
@[simp] theorem State.emit_byteAt (s : State) (x : Command) (sp : ByteSpace) (k : Nat) :
    (s.emit x).byteAt sp k = s.byteAt sp k := by
  simp [State.byteAt]

/-! ## `withResult` -/

@[simp] theorem State.withResult_cfg (s : State) (x : Result) : (s.withResult x).cfg = s.cfg := rfl
@[simp] theorem State.withResult_mode (s : State) (x : Result) : (s.withResult x).mode = s.mode := rfl
@[simp] theorem State.withResult_irqen (s : State) (x : Result) : (s.withResult x).irqen = s.irqen := rfl
@[simp] theorem State.withResult_frameReady (s : State) (x : Result) : (s.withResult x).frameReady = s.frameReady := rfl
@[simp] theorem State.withResult_active (s : State) (x : Result) : (s.withResult x).active = s.active := rfl
@[simp] theorem State.withResult_dmaCnt (s : State) (x : Result) : (s.withResult x).dmaCnt = s.dmaCnt := rfl
@[simp] theorem State.withResult_dmaTcif (s : State) (x : Result) : (s.withResult x).dmaTcif = s.dmaTcif := rfl
@[simp] theorem State.withResult_msTick (s : State) (x : Result) : (s.withResult x).msTick = s.msTick := rfl
@[simp] theorem State.withResult_writePos (s : State) (x : Result) : (s.withResult x).writePos = s.writePos := rfl
@[simp] theorem State.withResult_head (s : State) (x : Result) : (s.withResult x).head = s.head := rfl
@[simp] theorem State.withResult_decAcc (s : State) (x : Result) : (s.withResult x).decAcc = s.decAcc := rfl
@[simp] theorem State.withResult_decCnt (s : State) (x : Result) : (s.withResult x).decCnt = s.decCnt := rfl
@[simp] theorem State.withResult_avg (s : State) (x : Result) : (s.withResult x).avg = s.avg := rfl
@[simp] theorem State.withResult_lowBand (s : State) (x : Result) : (s.withResult x).lowBand = s.lowBand := rfl
@[simp] theorem State.withResult_highBand (s : State) (x : Result) : (s.withResult x).highBand = s.highBand := rfl
@[simp] theorem State.withResult_energy (s : State) (x : Result) : (s.withResult x).energy = s.energy := rfl
@[simp] theorem State.withResult_energyLo (s : State) (x : Result) : (s.withResult x).energyLo = s.energyLo := rfl
@[simp] theorem State.withResult_peakMag (s : State) (x : Result) : (s.withResult x).peakMag = s.peakMag := rfl
@[simp] theorem State.withResult_peakIdx (s : State) (x : Result) : (s.withResult x).peakIdx = s.peakIdx := rfl
@[simp] theorem State.withResult_peakHz (s : State) (x : Result) : (s.withResult x).peakHz = s.peakHz := rfl
@[simp] theorem State.withResult_own (s : State) (x : Result) : (s.withResult x).own = s.own := rfl
@[simp] theorem State.withResult_high0 (s : State) (x : Result) : (s.withResult x).high0 = s.high0 := rfl
@[simp] theorem State.withResult_high1 (s : State) (x : Result) : (s.withResult x).high1 = s.high1 := rfl
@[simp] theorem State.withResult_ring (s : State) (x : Result) : (s.withResult x).ring = s.ring := rfl
@[simp] theorem State.withResult_lowSnap (s : State) (x : Result) : (s.withResult x).lowSnap = s.lowSnap := rfl
@[simp] theorem State.withResult_imag (s : State) (x : Result) : (s.withResult x).imag = s.imag := rfl
@[simp] theorem State.withResult_analogSnap (s : State) (x : Result) : (s.withResult x).analogSnap = s.analogSnap := rfl
@[simp] theorem State.withResult_accel (s : State) (x : Result) : (s.withResult x).accel = s.accel := rfl
@[simp] theorem State.withResult_frameBuf (s : State) (x : Result) : (s.withResult x).frameBuf = s.frameBuf := rfl
@[simp] theorem State.withResult_commands (s : State) (x : Result) : (s.withResult x).commands = s.commands := rfl
@[simp] theorem State.withResult_result (s : State) (x : Result) : (s.withResult x).result = x := rfl
@[simp] theorem State.withResult_inbox (s : State) (x : Result) : (s.withResult x).inbox = s.inbox := rfl
@[simp] theorem State.withResult_halves (s : State) (x : Result) (sp : HalfSpace) :
    (s.withResult x).halves sp = s.halves sp := by
  rcases sp with (_ | _) | _ | _ | _ | _ <;> rfl
@[simp] theorem State.withResult_bytes (s : State) (x : Result) (sp : ByteSpace) :
    (s.withResult x).bytes sp = s.bytes sp := by
  cases sp <;> rfl
@[simp] theorem State.withResult_halfAt (s : State) (x : Result) (sp : HalfSpace) (k : Nat) :
    (s.withResult x).halfAt sp k = s.halfAt sp k := by
  simp [State.halfAt]
@[simp] theorem State.withResult_byteAt (s : State) (x : Result) (sp : ByteSpace) (k : Nat) :
    (s.withResult x).byteAt sp k = s.byteAt sp k := by
  simp [State.byteAt]

/-! ## `setBus` -/

@[simp] theorem State.setBus_cfg (s : State) (m : Mode) (e : BitVec 4) : (s.setBus m e).cfg = s.cfg := rfl
@[simp] theorem State.setBus_mode (s : State) (m : Mode) (e : BitVec 4) : (s.setBus m e).mode = m := rfl
@[simp] theorem State.setBus_irqen (s : State) (m : Mode) (e : BitVec 4) : (s.setBus m e).irqen = e := rfl
@[simp] theorem State.setBus_frameReady (s : State) (m : Mode) (e : BitVec 4) : (s.setBus m e).frameReady = s.frameReady := rfl
@[simp] theorem State.setBus_active (s : State) (m : Mode) (e : BitVec 4) : (s.setBus m e).active = s.active := rfl
@[simp] theorem State.setBus_dmaCnt (s : State) (m : Mode) (e : BitVec 4) : (s.setBus m e).dmaCnt = s.dmaCnt := rfl
@[simp] theorem State.setBus_dmaTcif (s : State) (m : Mode) (e : BitVec 4) : (s.setBus m e).dmaTcif = s.dmaTcif := rfl
@[simp] theorem State.setBus_msTick (s : State) (m : Mode) (e : BitVec 4) : (s.setBus m e).msTick = s.msTick := rfl
@[simp] theorem State.setBus_writePos (s : State) (m : Mode) (e : BitVec 4) : (s.setBus m e).writePos = s.writePos := rfl
@[simp] theorem State.setBus_head (s : State) (m : Mode) (e : BitVec 4) : (s.setBus m e).head = s.head := rfl
@[simp] theorem State.setBus_decAcc (s : State) (m : Mode) (e : BitVec 4) : (s.setBus m e).decAcc = s.decAcc := rfl
@[simp] theorem State.setBus_decCnt (s : State) (m : Mode) (e : BitVec 4) : (s.setBus m e).decCnt = s.decCnt := rfl
@[simp] theorem State.setBus_avg (s : State) (m : Mode) (e : BitVec 4) : (s.setBus m e).avg = s.avg := rfl
@[simp] theorem State.setBus_lowBand (s : State) (m : Mode) (e : BitVec 4) : (s.setBus m e).lowBand = s.lowBand := rfl
@[simp] theorem State.setBus_highBand (s : State) (m : Mode) (e : BitVec 4) : (s.setBus m e).highBand = s.highBand := rfl
@[simp] theorem State.setBus_energy (s : State) (m : Mode) (e : BitVec 4) : (s.setBus m e).energy = s.energy := rfl
@[simp] theorem State.setBus_energyLo (s : State) (m : Mode) (e : BitVec 4) : (s.setBus m e).energyLo = s.energyLo := rfl
@[simp] theorem State.setBus_peakMag (s : State) (m : Mode) (e : BitVec 4) : (s.setBus m e).peakMag = s.peakMag := rfl
@[simp] theorem State.setBus_peakIdx (s : State) (m : Mode) (e : BitVec 4) : (s.setBus m e).peakIdx = s.peakIdx := rfl
@[simp] theorem State.setBus_peakHz (s : State) (m : Mode) (e : BitVec 4) : (s.setBus m e).peakHz = s.peakHz := rfl
@[simp] theorem State.setBus_own (s : State) (m : Mode) (e : BitVec 4) : (s.setBus m e).own = s.own := rfl
@[simp] theorem State.setBus_high0 (s : State) (m : Mode) (e : BitVec 4) : (s.setBus m e).high0 = s.high0 := rfl
@[simp] theorem State.setBus_high1 (s : State) (m : Mode) (e : BitVec 4) : (s.setBus m e).high1 = s.high1 := rfl
@[simp] theorem State.setBus_ring (s : State) (m : Mode) (e : BitVec 4) : (s.setBus m e).ring = s.ring := rfl
@[simp] theorem State.setBus_lowSnap (s : State) (m : Mode) (e : BitVec 4) : (s.setBus m e).lowSnap = s.lowSnap := rfl
@[simp] theorem State.setBus_imag (s : State) (m : Mode) (e : BitVec 4) : (s.setBus m e).imag = s.imag := rfl
@[simp] theorem State.setBus_analogSnap (s : State) (m : Mode) (e : BitVec 4) : (s.setBus m e).analogSnap = s.analogSnap := rfl
@[simp] theorem State.setBus_accel (s : State) (m : Mode) (e : BitVec 4) : (s.setBus m e).accel = s.accel := rfl
@[simp] theorem State.setBus_frameBuf (s : State) (m : Mode) (e : BitVec 4) : (s.setBus m e).frameBuf = s.frameBuf := rfl
@[simp] theorem State.setBus_commands (s : State) (m : Mode) (e : BitVec 4) : (s.setBus m e).commands = s.commands := rfl
@[simp] theorem State.setBus_result (s : State) (m : Mode) (e : BitVec 4) : (s.setBus m e).result = s.result := rfl
@[simp] theorem State.setBus_inbox (s : State) (m : Mode) (e : BitVec 4) : (s.setBus m e).inbox = s.inbox := rfl
@[simp] theorem State.setBus_halves (s : State) (m : Mode) (e : BitVec 4) (sp : HalfSpace) :
    (s.setBus m e).halves sp = s.halves sp := by
  rcases sp with (_ | _) | _ | _ | _ | _ <;> rfl
@[simp] theorem State.setBus_bytes (s : State) (m : Mode) (e : BitVec 4) (sp : ByteSpace) :
    (s.setBus m e).bytes sp = s.bytes sp := by
  cases sp <;> rfl
@[simp] theorem State.setBus_halfAt (s : State) (m : Mode) (e : BitVec 4) (sp : HalfSpace) (k : Nat) :
    (s.setBus m e).halfAt sp k = s.halfAt sp k := by
  simp [State.halfAt]
@[simp] theorem State.setBus_byteAt (s : State) (m : Mode) (e : BitVec 4) (sp : ByteSpace) (k : Nat) :
    (s.setBus m e).byteAt sp k = s.byteAt sp k := by
  simp [State.byteAt]

/-! ## `setDma` -/

@[simp] theorem State.setDma_cfg (s : State) (n : BitVec 3) (f : Bool) : (s.setDma n f).cfg = s.cfg := rfl
@[simp] theorem State.setDma_mode (s : State) (n : BitVec 3) (f : Bool) : (s.setDma n f).mode = s.mode := rfl
@[simp] theorem State.setDma_irqen (s : State) (n : BitVec 3) (f : Bool) : (s.setDma n f).irqen = s.irqen := rfl
@[simp] theorem State.setDma_frameReady (s : State) (n : BitVec 3) (f : Bool) : (s.setDma n f).frameReady = s.frameReady := rfl
@[simp] theorem State.setDma_active (s : State) (n : BitVec 3) (f : Bool) : (s.setDma n f).active = s.active := rfl
@[simp] theorem State.setDma_dmaCnt (s : State) (n : BitVec 3) (f : Bool) : (s.setDma n f).dmaCnt = n := rfl
@[simp] theorem State.setDma_dmaTcif (s : State) (n : BitVec 3) (f : Bool) : (s.setDma n f).dmaTcif = f := rfl
@[simp] theorem State.setDma_msTick (s : State) (n : BitVec 3) (f : Bool) : (s.setDma n f).msTick = s.msTick := rfl
@[simp] theorem State.setDma_writePos (s : State) (n : BitVec 3) (f : Bool) : (s.setDma n f).writePos = s.writePos := rfl
@[simp] theorem State.setDma_head (s : State) (n : BitVec 3) (f : Bool) : (s.setDma n f).head = s.head := rfl
@[simp] theorem State.setDma_decAcc (s : State) (n : BitVec 3) (f : Bool) : (s.setDma n f).decAcc = s.decAcc := rfl
@[simp] theorem State.setDma_decCnt (s : State) (n : BitVec 3) (f : Bool) : (s.setDma n f).decCnt = s.decCnt := rfl
@[simp] theorem State.setDma_avg (s : State) (n : BitVec 3) (f : Bool) : (s.setDma n f).avg = s.avg := rfl
@[simp] theorem State.setDma_lowBand (s : State) (n : BitVec 3) (f : Bool) : (s.setDma n f).lowBand = s.lowBand := rfl
@[simp] theorem State.setDma_highBand (s : State) (n : BitVec 3) (f : Bool) : (s.setDma n f).highBand = s.highBand := rfl
@[simp] theorem State.setDma_energy (s : State) (n : BitVec 3) (f : Bool) : (s.setDma n f).energy = s.energy := rfl
@[simp] theorem State.setDma_energyLo (s : State) (n : BitVec 3) (f : Bool) : (s.setDma n f).energyLo = s.energyLo := rfl
@[simp] theorem State.setDma_peakMag (s : State) (n : BitVec 3) (f : Bool) : (s.setDma n f).peakMag = s.peakMag := rfl
@[simp] theorem State.setDma_peakIdx (s : State) (n : BitVec 3) (f : Bool) : (s.setDma n f).peakIdx = s.peakIdx := rfl
@[simp] theorem State.setDma_peakHz (s : State) (n : BitVec 3) (f : Bool) : (s.setDma n f).peakHz = s.peakHz := rfl
@[simp] theorem State.setDma_own (s : State) (n : BitVec 3) (f : Bool) : (s.setDma n f).own = s.own := rfl
@[simp] theorem State.setDma_high0 (s : State) (n : BitVec 3) (f : Bool) : (s.setDma n f).high0 = s.high0 := rfl
@[simp] theorem State.setDma_high1 (s : State) (n : BitVec 3) (f : Bool) : (s.setDma n f).high1 = s.high1 := rfl
@[simp] theorem State.setDma_ring (s : State) (n : BitVec 3) (f : Bool) : (s.setDma n f).ring = s.ring := rfl
@[simp] theorem State.setDma_lowSnap (s : State) (n : BitVec 3) (f : Bool) : (s.setDma n f).lowSnap = s.lowSnap := rfl
@[simp] theorem State.setDma_imag (s : State) (n : BitVec 3) (f : Bool) : (s.setDma n f).imag = s.imag := rfl
@[simp] theorem State.setDma_analogSnap (s : State) (n : BitVec 3) (f : Bool) : (s.setDma n f).analogSnap = s.analogSnap := rfl
@[simp] theorem State.setDma_accel (s : State) (n : BitVec 3) (f : Bool) : (s.setDma n f).accel = s.accel := rfl
@[simp] theorem State.setDma_frameBuf (s : State) (n : BitVec 3) (f : Bool) : (s.setDma n f).frameBuf = s.frameBuf := rfl
@[simp] theorem State.setDma_commands (s : State) (n : BitVec 3) (f : Bool) : (s.setDma n f).commands = s.commands := rfl
@[simp] theorem State.setDma_result (s : State) (n : BitVec 3) (f : Bool) : (s.setDma n f).result = s.result := rfl
@[simp] theorem State.setDma_inbox (s : State) (n : BitVec 3) (f : Bool) : (s.setDma n f).inbox = s.inbox := rfl
@[simp] theorem State.setDma_halves (s : State) (n : BitVec 3) (f : Bool) (sp : HalfSpace) :
    (s.setDma n f).halves sp = s.halves sp := by
  rcases sp with (_ | _) | _ | _ | _ | _ <;> rfl
@[simp] theorem State.setDma_bytes (s : State) (n : BitVec 3) (f : Bool) (sp : ByteSpace) :
    (s.setDma n f).bytes sp = s.bytes sp := by
  cases sp <;> rfl
@[simp] theorem State.setDma_halfAt (s : State) (n : BitVec 3) (f : Bool) (sp : HalfSpace) (k : Nat) :
    (s.setDma n f).halfAt sp k = s.halfAt sp k := by
  simp [State.halfAt]
@[simp] theorem State.setDma_byteAt (s : State) (n : BitVec 3) (f : Bool) (sp : ByteSpace) (k : Nat) :
    (s.setDma n f).byteAt sp k = s.byteAt sp k := by
  simp [State.byteAt]

/-! ## `setAvg` -/

@[simp] theorem State.setAvg_cfg (s : State) (v : Word) : (s.setAvg v).cfg = s.cfg := rfl
@[simp] theorem State.setAvg_mode (s : State) (v : Word) : (s.setAvg v).mode = s.mode := rfl
@[simp] theorem State.setAvg_irqen (s : State) (v : Word) : (s.setAvg v).irqen = s.irqen := rfl
@[simp] theorem State.setAvg_frameReady (s : State) (v : Word) : (s.setAvg v).frameReady = s.frameReady := rfl
@[simp] theorem State.setAvg_active (s : State) (v : Word) : (s.setAvg v).active = s.active := rfl
@[simp] theorem State.setAvg_dmaCnt (s : State) (v : Word) : (s.setAvg v).dmaCnt = s.dmaCnt := rfl
@[simp] theorem State.setAvg_dmaTcif (s : State) (v : Word) : (s.setAvg v).dmaTcif = s.dmaTcif := rfl
@[simp] theorem State.setAvg_msTick (s : State) (v : Word) : (s.setAvg v).msTick = s.msTick := rfl
@[simp] theorem State.setAvg_writePos (s : State) (v : Word) : (s.setAvg v).writePos = s.writePos := rfl
@[simp] theorem State.setAvg_head (s : State) (v : Word) : (s.setAvg v).head = s.head := rfl
@[simp] theorem State.setAvg_decAcc (s : State) (v : Word) : (s.setAvg v).decAcc = s.decAcc := rfl
@[simp] theorem State.setAvg_decCnt (s : State) (v : Word) : (s.setAvg v).decCnt = s.decCnt := rfl
@[simp] theorem State.setAvg_avg (s : State) (v : Word) : (s.setAvg v).avg = v := rfl
@[simp] theorem State.setAvg_lowBand (s : State) (v : Word) : (s.setAvg v).lowBand = s.lowBand := rfl
@[simp] theorem State.setAvg_highBand (s : State) (v : Word) : (s.setAvg v).highBand = s.highBand := rfl
@[simp] theorem State.setAvg_energy (s : State) (v : Word) : (s.setAvg v).energy = s.energy := rfl
@[simp] theorem State.setAvg_energyLo (s : State) (v : Word) : (s.setAvg v).energyLo = s.energyLo := rfl
@[simp] theorem State.setAvg_peakMag (s : State) (v : Word) : (s.setAvg v).peakMag = s.peakMag := rfl
@[simp] theorem State.setAvg_peakIdx (s : State) (v : Word) : (s.setAvg v).peakIdx = s.peakIdx := rfl
@[simp] theorem State.setAvg_peakHz (s : State) (v : Word) : (s.setAvg v).peakHz = s.peakHz := rfl
@[simp] theorem State.setAvg_own (s : State) (v : Word) : (s.setAvg v).own = s.own := rfl
@[simp] theorem State.setAvg_high0 (s : State) (v : Word) : (s.setAvg v).high0 = s.high0 := rfl
@[simp] theorem State.setAvg_high1 (s : State) (v : Word) : (s.setAvg v).high1 = s.high1 := rfl
@[simp] theorem State.setAvg_ring (s : State) (v : Word) : (s.setAvg v).ring = s.ring := rfl
@[simp] theorem State.setAvg_lowSnap (s : State) (v : Word) : (s.setAvg v).lowSnap = s.lowSnap := rfl
@[simp] theorem State.setAvg_imag (s : State) (v : Word) : (s.setAvg v).imag = s.imag := rfl
@[simp] theorem State.setAvg_analogSnap (s : State) (v : Word) : (s.setAvg v).analogSnap = s.analogSnap := rfl
@[simp] theorem State.setAvg_accel (s : State) (v : Word) : (s.setAvg v).accel = s.accel := rfl
@[simp] theorem State.setAvg_frameBuf (s : State) (v : Word) : (s.setAvg v).frameBuf = s.frameBuf := rfl
@[simp] theorem State.setAvg_commands (s : State) (v : Word) : (s.setAvg v).commands = s.commands := rfl
@[simp] theorem State.setAvg_result (s : State) (v : Word) : (s.setAvg v).result = s.result := rfl
@[simp] theorem State.setAvg_inbox (s : State) (v : Word) : (s.setAvg v).inbox = s.inbox := rfl
@[simp] theorem State.setAvg_halves (s : State) (v : Word) (sp : HalfSpace) :
    (s.setAvg v).halves sp = s.halves sp := by
  rcases sp with (_ | _) | _ | _ | _ | _ <;> rfl
@[simp] theorem State.setAvg_bytes (s : State) (v : Word) (sp : ByteSpace) :
    (s.setAvg v).bytes sp = s.bytes sp := by
  cases sp <;> rfl
@[simp] theorem State.setAvg_halfAt (s : State) (v : Word) (sp : HalfSpace) (k : Nat) :
    (s.setAvg v).halfAt sp k = s.halfAt sp k := by
  simp [State.halfAt]
@[simp] theorem State.setAvg_byteAt (s : State) (v : Word) (sp : ByteSpace) (k : Nat) :
    (s.setAvg v).byteAt sp k = s.byteAt sp k := by
  simp [State.byteAt]

/-! ## `setDecimation` -/

@[simp] theorem State.setDecimation_cfg (s : State) (a : Word) (n h : Nat) : (s.setDecimation a n h).cfg = s.cfg := rfl
@[simp] theorem State.setDecimation_mode (s : State) (a : Word) (n h : Nat) : (s.setDecimation a n h).mode = s.mode := rfl
@[simp] theorem State.setDecimation_irqen (s : State) (a : Word) (n h : Nat) : (s.setDecimation a n h).irqen = s.irqen := rfl
@[simp] theorem State.setDecimation_frameReady (s : State) (a : Word) (n h : Nat) : (s.setDecimation a n h).frameReady = s.frameReady := rfl
@[simp] theorem State.setDecimation_active (s : State) (a : Word) (n h : Nat) : (s.setDecimation a n h).active = s.active := rfl
@[simp] theorem State.setDecimation_dmaCnt (s : State) (a : Word) (n h : Nat) : (s.setDecimation a n h).dmaCnt = s.dmaCnt := rfl
@[simp] theorem State.setDecimation_dmaTcif (s : State) (a : Word) (n h : Nat) : (s.setDecimation a n h).dmaTcif = s.dmaTcif := rfl
@[simp] theorem State.setDecimation_msTick (s : State) (a : Word) (n h : Nat) : (s.setDecimation a n h).msTick = s.msTick := rfl
@[simp] theorem State.setDecimation_writePos (s : State) (a : Word) (n h : Nat) : (s.setDecimation a n h).writePos = s.writePos := rfl
@[simp] theorem State.setDecimation_head (s : State) (a : Word) (n h : Nat) : (s.setDecimation a n h).head = h := rfl
@[simp] theorem State.setDecimation_decAcc (s : State) (a : Word) (n h : Nat) : (s.setDecimation a n h).decAcc = a := rfl
@[simp] theorem State.setDecimation_decCnt (s : State) (a : Word) (n h : Nat) : (s.setDecimation a n h).decCnt = n := rfl
@[simp] theorem State.setDecimation_avg (s : State) (a : Word) (n h : Nat) : (s.setDecimation a n h).avg = s.avg := rfl
@[simp] theorem State.setDecimation_lowBand (s : State) (a : Word) (n h : Nat) : (s.setDecimation a n h).lowBand = s.lowBand := rfl
@[simp] theorem State.setDecimation_highBand (s : State) (a : Word) (n h : Nat) : (s.setDecimation a n h).highBand = s.highBand := rfl
@[simp] theorem State.setDecimation_energy (s : State) (a : Word) (n h : Nat) : (s.setDecimation a n h).energy = s.energy := rfl
@[simp] theorem State.setDecimation_energyLo (s : State) (a : Word) (n h : Nat) : (s.setDecimation a n h).energyLo = s.energyLo := rfl
@[simp] theorem State.setDecimation_peakMag (s : State) (a : Word) (n h : Nat) : (s.setDecimation a n h).peakMag = s.peakMag := rfl
@[simp] theorem State.setDecimation_peakIdx (s : State) (a : Word) (n h : Nat) : (s.setDecimation a n h).peakIdx = s.peakIdx := rfl
@[simp] theorem State.setDecimation_peakHz (s : State) (a : Word) (n h : Nat) : (s.setDecimation a n h).peakHz = s.peakHz := rfl
@[simp] theorem State.setDecimation_own (s : State) (a : Word) (n h : Nat) : (s.setDecimation a n h).own = s.own := rfl
@[simp] theorem State.setDecimation_high0 (s : State) (a : Word) (n h : Nat) : (s.setDecimation a n h).high0 = s.high0 := rfl
@[simp] theorem State.setDecimation_high1 (s : State) (a : Word) (n h : Nat) : (s.setDecimation a n h).high1 = s.high1 := rfl
@[simp] theorem State.setDecimation_ring (s : State) (a : Word) (n h : Nat) : (s.setDecimation a n h).ring = s.ring := rfl
@[simp] theorem State.setDecimation_lowSnap (s : State) (a : Word) (n h : Nat) : (s.setDecimation a n h).lowSnap = s.lowSnap := rfl
@[simp] theorem State.setDecimation_imag (s : State) (a : Word) (n h : Nat) : (s.setDecimation a n h).imag = s.imag := rfl
@[simp] theorem State.setDecimation_analogSnap (s : State) (a : Word) (n h : Nat) : (s.setDecimation a n h).analogSnap = s.analogSnap := rfl
@[simp] theorem State.setDecimation_accel (s : State) (a : Word) (n h : Nat) : (s.setDecimation a n h).accel = s.accel := rfl
@[simp] theorem State.setDecimation_frameBuf (s : State) (a : Word) (n h : Nat) : (s.setDecimation a n h).frameBuf = s.frameBuf := rfl
@[simp] theorem State.setDecimation_commands (s : State) (a : Word) (n h : Nat) : (s.setDecimation a n h).commands = s.commands := rfl
@[simp] theorem State.setDecimation_result (s : State) (a : Word) (n h : Nat) : (s.setDecimation a n h).result = s.result := rfl
@[simp] theorem State.setDecimation_inbox (s : State) (a : Word) (n h : Nat) : (s.setDecimation a n h).inbox = s.inbox := rfl
@[simp] theorem State.setDecimation_halves (s : State) (a : Word) (n h : Nat) (sp : HalfSpace) :
    (s.setDecimation a n h).halves sp = s.halves sp := by
  rcases sp with (_ | _) | _ | _ | _ | _ <;> rfl
@[simp] theorem State.setDecimation_bytes (s : State) (a : Word) (n h : Nat) (sp : ByteSpace) :
    (s.setDecimation a n h).bytes sp = s.bytes sp := by
  cases sp <;> rfl
@[simp] theorem State.setDecimation_halfAt (s : State) (a : Word) (n h : Nat) (sp : HalfSpace) (k : Nat) :
    (s.setDecimation a n h).halfAt sp k = s.halfAt sp k := by
  simp [State.halfAt]
@[simp] theorem State.setDecimation_byteAt (s : State) (a : Word) (n h : Nat) (sp : ByteSpace) (k : Nat) :
    (s.setDecimation a n h).byteAt sp k = s.byteAt sp k := by
  simp [State.byteAt]

/-! ## `setWritePos` -/

@[simp] theorem State.setWritePos_cfg (s : State) (p : Nat) : (s.setWritePos p).cfg = s.cfg := rfl
@[simp] theorem State.setWritePos_mode (s : State) (p : Nat) : (s.setWritePos p).mode = s.mode := rfl
@[simp] theorem State.setWritePos_irqen (s : State) (p : Nat) : (s.setWritePos p).irqen = s.irqen := rfl
@[simp] theorem State.setWritePos_frameReady (s : State) (p : Nat) : (s.setWritePos p).frameReady = s.frameReady := rfl
@[simp] theorem State.setWritePos_active (s : State) (p : Nat) : (s.setWritePos p).active = s.active := rfl
@[simp] theorem State.setWritePos_dmaCnt (s : State) (p : Nat) : (s.setWritePos p).dmaCnt = s.dmaCnt := rfl
@[simp] theorem State.setWritePos_dmaTcif (s : State) (p : Nat) : (s.setWritePos p).dmaTcif = s.dmaTcif := rfl
@[simp] theorem State.setWritePos_msTick (s : State) (p : Nat) : (s.setWritePos p).msTick = s.msTick := rfl
@[simp] theorem State.setWritePos_writePos (s : State) (p : Nat) : (s.setWritePos p).writePos = p := rfl
@[simp] theorem State.setWritePos_head (s : State) (p : Nat) : (s.setWritePos p).head = s.head := rfl
@[simp] theorem State.setWritePos_decAcc (s : State) (p : Nat) : (s.setWritePos p).decAcc = s.decAcc := rfl
@[simp] theorem State.setWritePos_decCnt (s : State) (p : Nat) : (s.setWritePos p).decCnt = s.decCnt := rfl
@[simp] theorem State.setWritePos_avg (s : State) (p : Nat) : (s.setWritePos p).avg = s.avg := rfl
@[simp] theorem State.setWritePos_lowBand (s : State) (p : Nat) : (s.setWritePos p).lowBand = s.lowBand := rfl
@[simp] theorem State.setWritePos_highBand (s : State) (p : Nat) : (s.setWritePos p).highBand = s.highBand := rfl
@[simp] theorem State.setWritePos_energy (s : State) (p : Nat) : (s.setWritePos p).energy = s.energy := rfl
@[simp] theorem State.setWritePos_energyLo (s : State) (p : Nat) : (s.setWritePos p).energyLo = s.energyLo := rfl
@[simp] theorem State.setWritePos_peakMag (s : State) (p : Nat) : (s.setWritePos p).peakMag = s.peakMag := rfl
@[simp] theorem State.setWritePos_peakIdx (s : State) (p : Nat) : (s.setWritePos p).peakIdx = s.peakIdx := rfl
@[simp] theorem State.setWritePos_peakHz (s : State) (p : Nat) : (s.setWritePos p).peakHz = s.peakHz := rfl
@[simp] theorem State.setWritePos_own (s : State) (p : Nat) : (s.setWritePos p).own = s.own := rfl
@[simp] theorem State.setWritePos_high0 (s : State) (p : Nat) : (s.setWritePos p).high0 = s.high0 := rfl
@[simp] theorem State.setWritePos_high1 (s : State) (p : Nat) : (s.setWritePos p).high1 = s.high1 := rfl
@[simp] theorem State.setWritePos_ring (s : State) (p : Nat) : (s.setWritePos p).ring = s.ring := rfl
@[simp] theorem State.setWritePos_lowSnap (s : State) (p : Nat) : (s.setWritePos p).lowSnap = s.lowSnap := rfl
@[simp] theorem State.setWritePos_imag (s : State) (p : Nat) : (s.setWritePos p).imag = s.imag := rfl
@[simp] theorem State.setWritePos_analogSnap (s : State) (p : Nat) : (s.setWritePos p).analogSnap = s.analogSnap := rfl
@[simp] theorem State.setWritePos_accel (s : State) (p : Nat) : (s.setWritePos p).accel = s.accel := rfl
@[simp] theorem State.setWritePos_frameBuf (s : State) (p : Nat) : (s.setWritePos p).frameBuf = s.frameBuf := rfl
@[simp] theorem State.setWritePos_commands (s : State) (p : Nat) : (s.setWritePos p).commands = s.commands := rfl
@[simp] theorem State.setWritePos_result (s : State) (p : Nat) : (s.setWritePos p).result = s.result := rfl
@[simp] theorem State.setWritePos_inbox (s : State) (p : Nat) : (s.setWritePos p).inbox = s.inbox := rfl
@[simp] theorem State.setWritePos_halves (s : State) (p : Nat) (sp : HalfSpace) :
    (s.setWritePos p).halves sp = s.halves sp := by
  rcases sp with (_ | _) | _ | _ | _ | _ <;> rfl
@[simp] theorem State.setWritePos_bytes (s : State) (p : Nat) (sp : ByteSpace) :
    (s.setWritePos p).bytes sp = s.bytes sp := by
  cases sp <;> rfl
@[simp] theorem State.setWritePos_halfAt (s : State) (p : Nat) (sp : HalfSpace) (k : Nat) :
    (s.setWritePos p).halfAt sp k = s.halfAt sp k := by
  simp [State.halfAt]
@[simp] theorem State.setWritePos_byteAt (s : State) (p : Nat) (sp : ByteSpace) (k : Nat) :
    (s.setWritePos p).byteAt sp k = s.byteAt sp k := by
  simp [State.byteAt]

/-! ## `setHandOff` -/

@[simp] theorem State.setHandOff_cfg (s : State) (a : Side) (f o : Bool) : (s.setHandOff a f o).cfg = s.cfg := rfl
@[simp] theorem State.setHandOff_mode (s : State) (a : Side) (f o : Bool) : (s.setHandOff a f o).mode = s.mode := rfl
@[simp] theorem State.setHandOff_irqen (s : State) (a : Side) (f o : Bool) : (s.setHandOff a f o).irqen = s.irqen := rfl
@[simp] theorem State.setHandOff_frameReady (s : State) (a : Side) (f o : Bool) : (s.setHandOff a f o).frameReady = f := rfl
@[simp] theorem State.setHandOff_active (s : State) (a : Side) (f o : Bool) : (s.setHandOff a f o).active = a := rfl
@[simp] theorem State.setHandOff_dmaCnt (s : State) (a : Side) (f o : Bool) : (s.setHandOff a f o).dmaCnt = s.dmaCnt := rfl
@[simp] theorem State.setHandOff_dmaTcif (s : State) (a : Side) (f o : Bool) : (s.setHandOff a f o).dmaTcif = s.dmaTcif := rfl
@[simp] theorem State.setHandOff_msTick (s : State) (a : Side) (f o : Bool) : (s.setHandOff a f o).msTick = s.msTick := rfl
@[simp] theorem State.setHandOff_writePos (s : State) (a : Side) (f o : Bool) : (s.setHandOff a f o).writePos = s.writePos := rfl
@[simp] theorem State.setHandOff_head (s : State) (a : Side) (f o : Bool) : (s.setHandOff a f o).head = s.head := rfl
@[simp] theorem State.setHandOff_decAcc (s : State) (a : Side) (f o : Bool) : (s.setHandOff a f o).decAcc = s.decAcc := rfl
@[simp] theorem State.setHandOff_decCnt (s : State) (a : Side) (f o : Bool) : (s.setHandOff a f o).decCnt = s.decCnt := rfl
@[simp] theorem State.setHandOff_avg (s : State) (a : Side) (f o : Bool) : (s.setHandOff a f o).avg = s.avg := rfl
@[simp] theorem State.setHandOff_lowBand (s : State) (a : Side) (f o : Bool) : (s.setHandOff a f o).lowBand = s.lowBand := rfl
@[simp] theorem State.setHandOff_highBand (s : State) (a : Side) (f o : Bool) : (s.setHandOff a f o).highBand = s.highBand := rfl
@[simp] theorem State.setHandOff_energy (s : State) (a : Side) (f o : Bool) : (s.setHandOff a f o).energy = s.energy := rfl
@[simp] theorem State.setHandOff_energyLo (s : State) (a : Side) (f o : Bool) : (s.setHandOff a f o).energyLo = s.energyLo := rfl
@[simp] theorem State.setHandOff_peakMag (s : State) (a : Side) (f o : Bool) : (s.setHandOff a f o).peakMag = s.peakMag := rfl
@[simp] theorem State.setHandOff_peakIdx (s : State) (a : Side) (f o : Bool) : (s.setHandOff a f o).peakIdx = s.peakIdx := rfl
@[simp] theorem State.setHandOff_peakHz (s : State) (a : Side) (f o : Bool) : (s.setHandOff a f o).peakHz = s.peakHz := rfl
@[simp] theorem State.setHandOff_own (s : State) (a : Side) (f o : Bool) : (s.setHandOff a f o).own = o := rfl
@[simp] theorem State.setHandOff_high0 (s : State) (a : Side) (f o : Bool) : (s.setHandOff a f o).high0 = s.high0 := rfl
@[simp] theorem State.setHandOff_high1 (s : State) (a : Side) (f o : Bool) : (s.setHandOff a f o).high1 = s.high1 := rfl
@[simp] theorem State.setHandOff_ring (s : State) (a : Side) (f o : Bool) : (s.setHandOff a f o).ring = s.ring := rfl
@[simp] theorem State.setHandOff_lowSnap (s : State) (a : Side) (f o : Bool) : (s.setHandOff a f o).lowSnap = s.lowSnap := rfl
@[simp] theorem State.setHandOff_imag (s : State) (a : Side) (f o : Bool) : (s.setHandOff a f o).imag = s.imag := rfl
@[simp] theorem State.setHandOff_analogSnap (s : State) (a : Side) (f o : Bool) : (s.setHandOff a f o).analogSnap = s.analogSnap := rfl
@[simp] theorem State.setHandOff_accel (s : State) (a : Side) (f o : Bool) : (s.setHandOff a f o).accel = s.accel := rfl
@[simp] theorem State.setHandOff_frameBuf (s : State) (a : Side) (f o : Bool) : (s.setHandOff a f o).frameBuf = s.frameBuf := rfl
@[simp] theorem State.setHandOff_commands (s : State) (a : Side) (f o : Bool) : (s.setHandOff a f o).commands = s.commands := rfl
@[simp] theorem State.setHandOff_result (s : State) (a : Side) (f o : Bool) : (s.setHandOff a f o).result = s.result := rfl
@[simp] theorem State.setHandOff_inbox (s : State) (a : Side) (f o : Bool) : (s.setHandOff a f o).inbox = s.inbox := rfl
@[simp] theorem State.setHandOff_halves (s : State) (a : Side) (f o : Bool) (sp : HalfSpace) :
    (s.setHandOff a f o).halves sp = s.halves sp := by
  rcases sp with (_ | _) | _ | _ | _ | _ <;> rfl
@[simp] theorem State.setHandOff_bytes (s : State) (a : Side) (f o : Bool) (sp : ByteSpace) :
    (s.setHandOff a f o).bytes sp = s.bytes sp := by
  cases sp <;> rfl
@[simp] theorem State.setHandOff_halfAt (s : State) (a : Side) (f o : Bool) (sp : HalfSpace) (k : Nat) :
    (s.setHandOff a f o).halfAt sp k = s.halfAt sp k := by
  simp [State.halfAt]
@[simp] theorem State.setHandOff_byteAt (s : State) (a : Side) (f o : Bool) (sp : ByteSpace) (k : Nat) :
    (s.setHandOff a f o).byteAt sp k = s.byteAt sp k := by
  simp [State.byteAt]

/-! ## `setLowResults` -/

@[simp] theorem State.setLowResults_cfg (s : State) (b : Vector Half 6) (e : Half) : (s.setLowResults b e).cfg = s.cfg := rfl
@[simp] theorem State.setLowResults_mode (s : State) (b : Vector Half 6) (e : Half) : (s.setLowResults b e).mode = s.mode := rfl
@[simp] theorem State.setLowResults_irqen (s : State) (b : Vector Half 6) (e : Half) : (s.setLowResults b e).irqen = s.irqen := rfl
@[simp] theorem State.setLowResults_frameReady (s : State) (b : Vector Half 6) (e : Half) : (s.setLowResults b e).frameReady = s.frameReady := rfl
@[simp] theorem State.setLowResults_active (s : State) (b : Vector Half 6) (e : Half) : (s.setLowResults b e).active = s.active := rfl
@[simp] theorem State.setLowResults_dmaCnt (s : State) (b : Vector Half 6) (e : Half) : (s.setLowResults b e).dmaCnt = s.dmaCnt := rfl
@[simp] theorem State.setLowResults_dmaTcif (s : State) (b : Vector Half 6) (e : Half) : (s.setLowResults b e).dmaTcif = s.dmaTcif := rfl
@[simp] theorem State.setLowResults_msTick (s : State) (b : Vector Half 6) (e : Half) : (s.setLowResults b e).msTick = s.msTick := rfl
@[simp] theorem State.setLowResults_writePos (s : State) (b : Vector Half 6) (e : Half) : (s.setLowResults b e).writePos = s.writePos := rfl
@[simp] theorem State.setLowResults_head (s : State) (b : Vector Half 6) (e : Half) : (s.setLowResults b e).head = s.head := rfl
@[simp] theorem State.setLowResults_decAcc (s : State) (b : Vector Half 6) (e : Half) : (s.setLowResults b e).decAcc = s.decAcc := rfl
@[simp] theorem State.setLowResults_decCnt (s : State) (b : Vector Half 6) (e : Half) : (s.setLowResults b e).decCnt = s.decCnt := rfl
@[simp] theorem State.setLowResults_avg (s : State) (b : Vector Half 6) (e : Half) : (s.setLowResults b e).avg = s.avg := rfl
@[simp] theorem State.setLowResults_lowBand (s : State) (b : Vector Half 6) (e : Half) : (s.setLowResults b e).lowBand = b := rfl
@[simp] theorem State.setLowResults_highBand (s : State) (b : Vector Half 6) (e : Half) : (s.setLowResults b e).highBand = s.highBand := rfl
@[simp] theorem State.setLowResults_energy (s : State) (b : Vector Half 6) (e : Half) : (s.setLowResults b e).energy = s.energy := rfl
@[simp] theorem State.setLowResults_energyLo (s : State) (b : Vector Half 6) (e : Half) : (s.setLowResults b e).energyLo = e := rfl
@[simp] theorem State.setLowResults_peakMag (s : State) (b : Vector Half 6) (e : Half) : (s.setLowResults b e).peakMag = s.peakMag := rfl
@[simp] theorem State.setLowResults_peakIdx (s : State) (b : Vector Half 6) (e : Half) : (s.setLowResults b e).peakIdx = s.peakIdx := rfl
@[simp] theorem State.setLowResults_peakHz (s : State) (b : Vector Half 6) (e : Half) : (s.setLowResults b e).peakHz = s.peakHz := rfl
@[simp] theorem State.setLowResults_own (s : State) (b : Vector Half 6) (e : Half) : (s.setLowResults b e).own = s.own := rfl
@[simp] theorem State.setLowResults_high0 (s : State) (b : Vector Half 6) (e : Half) : (s.setLowResults b e).high0 = s.high0 := rfl
@[simp] theorem State.setLowResults_high1 (s : State) (b : Vector Half 6) (e : Half) : (s.setLowResults b e).high1 = s.high1 := rfl
@[simp] theorem State.setLowResults_ring (s : State) (b : Vector Half 6) (e : Half) : (s.setLowResults b e).ring = s.ring := rfl
@[simp] theorem State.setLowResults_lowSnap (s : State) (b : Vector Half 6) (e : Half) : (s.setLowResults b e).lowSnap = s.lowSnap := rfl
@[simp] theorem State.setLowResults_imag (s : State) (b : Vector Half 6) (e : Half) : (s.setLowResults b e).imag = s.imag := rfl
@[simp] theorem State.setLowResults_analogSnap (s : State) (b : Vector Half 6) (e : Half) : (s.setLowResults b e).analogSnap = s.analogSnap := rfl
@[simp] theorem State.setLowResults_accel (s : State) (b : Vector Half 6) (e : Half) : (s.setLowResults b e).accel = s.accel := rfl
@[simp] theorem State.setLowResults_frameBuf (s : State) (b : Vector Half 6) (e : Half) : (s.setLowResults b e).frameBuf = s.frameBuf := rfl
@[simp] theorem State.setLowResults_commands (s : State) (b : Vector Half 6) (e : Half) : (s.setLowResults b e).commands = s.commands := rfl
@[simp] theorem State.setLowResults_result (s : State) (b : Vector Half 6) (e : Half) : (s.setLowResults b e).result = s.result := rfl
@[simp] theorem State.setLowResults_inbox (s : State) (b : Vector Half 6) (e : Half) : (s.setLowResults b e).inbox = s.inbox := rfl
@[simp] theorem State.setLowResults_halves (s : State) (b : Vector Half 6) (e : Half) (sp : HalfSpace) :
    (s.setLowResults b e).halves sp = s.halves sp := by
  rcases sp with (_ | _) | _ | _ | _ | _ <;> rfl
@[simp] theorem State.setLowResults_bytes (s : State) (b : Vector Half 6) (e : Half) (sp : ByteSpace) :
    (s.setLowResults b e).bytes sp = s.bytes sp := by
  cases sp <;> rfl
@[simp] theorem State.setLowResults_halfAt (s : State) (b : Vector Half 6) (e : Half) (sp : HalfSpace) (k : Nat) :
    (s.setLowResults b e).halfAt sp k = s.halfAt sp k := by
  simp [State.halfAt]
@[simp] theorem State.setLowResults_byteAt (s : State) (b : Vector Half 6) (e : Half) (sp : ByteSpace) (k : Nat) :
    (s.setLowResults b e).byteAt sp k = s.byteAt sp k := by
  simp [State.byteAt]

/-! ## `setHighResults` -/

@[simp] theorem State.setHighResults_cfg (s : State) (b : Vector Half 26) (e m i h : Half) : (s.setHighResults b e m i h).cfg = s.cfg := rfl
@[simp] theorem State.setHighResults_mode (s : State) (b : Vector Half 26) (e m i h : Half) : (s.setHighResults b e m i h).mode = s.mode := rfl
@[simp] theorem State.setHighResults_irqen (s : State) (b : Vector Half 26) (e m i h : Half) : (s.setHighResults b e m i h).irqen = s.irqen := rfl
@[simp] theorem State.setHighResults_frameReady (s : State) (b : Vector Half 26) (e m i h : Half) : (s.setHighResults b e m i h).frameReady = s.frameReady := rfl
@[simp] theorem State.setHighResults_active (s : State) (b : Vector Half 26) (e m i h : Half) : (s.setHighResults b e m i h).active = s.active := rfl
@[simp] theorem State.setHighResults_dmaCnt (s : State) (b : Vector Half 26) (e m i h : Half) : (s.setHighResults b e m i h).dmaCnt = s.dmaCnt := rfl
@[simp] theorem State.setHighResults_dmaTcif (s : State) (b : Vector Half 26) (e m i h : Half) : (s.setHighResults b e m i h).dmaTcif = s.dmaTcif := rfl
@[simp] theorem State.setHighResults_msTick (s : State) (b : Vector Half 26) (e m i h : Half) : (s.setHighResults b e m i h).msTick = s.msTick := rfl
@[simp] theorem State.setHighResults_writePos (s : State) (b : Vector Half 26) (e m i h : Half) : (s.setHighResults b e m i h).writePos = s.writePos := rfl
@[simp] theorem State.setHighResults_head (s : State) (b : Vector Half 26) (e m i h : Half) : (s.setHighResults b e m i h).head = s.head := rfl
@[simp] theorem State.setHighResults_decAcc (s : State) (b : Vector Half 26) (e m i h : Half) : (s.setHighResults b e m i h).decAcc = s.decAcc := rfl
@[simp] theorem State.setHighResults_decCnt (s : State) (b : Vector Half 26) (e m i h : Half) : (s.setHighResults b e m i h).decCnt = s.decCnt := rfl
@[simp] theorem State.setHighResults_avg (s : State) (b : Vector Half 26) (e m i h : Half) : (s.setHighResults b e m i h).avg = s.avg := rfl
@[simp] theorem State.setHighResults_lowBand (s : State) (b : Vector Half 26) (e m i h : Half) : (s.setHighResults b e m i h).lowBand = s.lowBand := rfl
@[simp] theorem State.setHighResults_highBand (s : State) (b : Vector Half 26) (e m i h : Half) : (s.setHighResults b e m i h).highBand = b := rfl
@[simp] theorem State.setHighResults_energy (s : State) (b : Vector Half 26) (e m i h : Half) : (s.setHighResults b e m i h).energy = e := rfl
@[simp] theorem State.setHighResults_energyLo (s : State) (b : Vector Half 26) (e m i h : Half) : (s.setHighResults b e m i h).energyLo = s.energyLo := rfl
@[simp] theorem State.setHighResults_peakMag (s : State) (b : Vector Half 26) (e m i h : Half) : (s.setHighResults b e m i h).peakMag = m := rfl
@[simp] theorem State.setHighResults_peakIdx (s : State) (b : Vector Half 26) (e m i h : Half) : (s.setHighResults b e m i h).peakIdx = i := rfl
@[simp] theorem State.setHighResults_peakHz (s : State) (b : Vector Half 26) (e m i h : Half) : (s.setHighResults b e m i h).peakHz = h := rfl
@[simp] theorem State.setHighResults_own (s : State) (b : Vector Half 26) (e m i h : Half) : (s.setHighResults b e m i h).own = s.own := rfl
@[simp] theorem State.setHighResults_high0 (s : State) (b : Vector Half 26) (e m i h : Half) : (s.setHighResults b e m i h).high0 = s.high0 := rfl
@[simp] theorem State.setHighResults_high1 (s : State) (b : Vector Half 26) (e m i h : Half) : (s.setHighResults b e m i h).high1 = s.high1 := rfl
@[simp] theorem State.setHighResults_ring (s : State) (b : Vector Half 26) (e m i h : Half) : (s.setHighResults b e m i h).ring = s.ring := rfl
@[simp] theorem State.setHighResults_lowSnap (s : State) (b : Vector Half 26) (e m i h : Half) : (s.setHighResults b e m i h).lowSnap = s.lowSnap := rfl
@[simp] theorem State.setHighResults_imag (s : State) (b : Vector Half 26) (e m i h : Half) : (s.setHighResults b e m i h).imag = s.imag := rfl
@[simp] theorem State.setHighResults_analogSnap (s : State) (b : Vector Half 26) (e m i h : Half) : (s.setHighResults b e m i h).analogSnap = s.analogSnap := rfl
@[simp] theorem State.setHighResults_accel (s : State) (b : Vector Half 26) (e m i h : Half) : (s.setHighResults b e m i h).accel = s.accel := rfl
@[simp] theorem State.setHighResults_frameBuf (s : State) (b : Vector Half 26) (e m i h : Half) : (s.setHighResults b e m i h).frameBuf = s.frameBuf := rfl
@[simp] theorem State.setHighResults_commands (s : State) (b : Vector Half 26) (e m i h : Half) : (s.setHighResults b e m i h).commands = s.commands := rfl
@[simp] theorem State.setHighResults_result (s : State) (b : Vector Half 26) (e m i h : Half) : (s.setHighResults b e m i h).result = s.result := rfl
@[simp] theorem State.setHighResults_inbox (s : State) (b : Vector Half 26) (e m i h : Half) : (s.setHighResults b e m i h).inbox = s.inbox := rfl
@[simp] theorem State.setHighResults_halves (s : State) (b : Vector Half 26) (e m i h : Half) (sp : HalfSpace) :
    (s.setHighResults b e m i h).halves sp = s.halves sp := by
  rcases sp with (_ | _) | _ | _ | _ | _ <;> rfl
@[simp] theorem State.setHighResults_bytes (s : State) (b : Vector Half 26) (e m i h : Half) (sp : ByteSpace) :
    (s.setHighResults b e m i h).bytes sp = s.bytes sp := by
  cases sp <;> rfl
@[simp] theorem State.setHighResults_halfAt (s : State) (b : Vector Half 26) (e m i h : Half) (sp : HalfSpace) (k : Nat) :
    (s.setHighResults b e m i h).halfAt sp k = s.halfAt sp k := by
  simp [State.halfAt]
@[simp] theorem State.setHighResults_byteAt (s : State) (b : Vector Half 26) (e m i h : Half) (sp : ByteSpace) (k : Nat) :
    (s.setHighResults b e m i h).byteAt sp k = s.byteAt sp k := by
  simp [State.byteAt]

/-! ## `setInbox` -/

@[simp] theorem State.setInbox_cfg (s : State) (es : List Event) : (s.setInbox es).cfg = s.cfg := rfl
@[simp] theorem State.setInbox_mode (s : State) (es : List Event) : (s.setInbox es).mode = s.mode := rfl
@[simp] theorem State.setInbox_irqen (s : State) (es : List Event) : (s.setInbox es).irqen = s.irqen := rfl
@[simp] theorem State.setInbox_frameReady (s : State) (es : List Event) : (s.setInbox es).frameReady = s.frameReady := rfl
@[simp] theorem State.setInbox_active (s : State) (es : List Event) : (s.setInbox es).active = s.active := rfl
@[simp] theorem State.setInbox_dmaCnt (s : State) (es : List Event) : (s.setInbox es).dmaCnt = s.dmaCnt := rfl
@[simp] theorem State.setInbox_dmaTcif (s : State) (es : List Event) : (s.setInbox es).dmaTcif = s.dmaTcif := rfl
@[simp] theorem State.setInbox_msTick (s : State) (es : List Event) : (s.setInbox es).msTick = s.msTick := rfl
@[simp] theorem State.setInbox_writePos (s : State) (es : List Event) : (s.setInbox es).writePos = s.writePos := rfl
@[simp] theorem State.setInbox_head (s : State) (es : List Event) : (s.setInbox es).head = s.head := rfl
@[simp] theorem State.setInbox_decAcc (s : State) (es : List Event) : (s.setInbox es).decAcc = s.decAcc := rfl
@[simp] theorem State.setInbox_decCnt (s : State) (es : List Event) : (s.setInbox es).decCnt = s.decCnt := rfl
@[simp] theorem State.setInbox_avg (s : State) (es : List Event) : (s.setInbox es).avg = s.avg := rfl
@[simp] theorem State.setInbox_lowBand (s : State) (es : List Event) : (s.setInbox es).lowBand = s.lowBand := rfl
@[simp] theorem State.setInbox_highBand (s : State) (es : List Event) : (s.setInbox es).highBand = s.highBand := rfl
@[simp] theorem State.setInbox_energy (s : State) (es : List Event) : (s.setInbox es).energy = s.energy := rfl
@[simp] theorem State.setInbox_energyLo (s : State) (es : List Event) : (s.setInbox es).energyLo = s.energyLo := rfl
@[simp] theorem State.setInbox_peakMag (s : State) (es : List Event) : (s.setInbox es).peakMag = s.peakMag := rfl
@[simp] theorem State.setInbox_peakIdx (s : State) (es : List Event) : (s.setInbox es).peakIdx = s.peakIdx := rfl
@[simp] theorem State.setInbox_peakHz (s : State) (es : List Event) : (s.setInbox es).peakHz = s.peakHz := rfl
@[simp] theorem State.setInbox_own (s : State) (es : List Event) : (s.setInbox es).own = s.own := rfl
@[simp] theorem State.setInbox_high0 (s : State) (es : List Event) : (s.setInbox es).high0 = s.high0 := rfl
@[simp] theorem State.setInbox_high1 (s : State) (es : List Event) : (s.setInbox es).high1 = s.high1 := rfl
@[simp] theorem State.setInbox_ring (s : State) (es : List Event) : (s.setInbox es).ring = s.ring := rfl
@[simp] theorem State.setInbox_lowSnap (s : State) (es : List Event) : (s.setInbox es).lowSnap = s.lowSnap := rfl
@[simp] theorem State.setInbox_imag (s : State) (es : List Event) : (s.setInbox es).imag = s.imag := rfl
@[simp] theorem State.setInbox_analogSnap (s : State) (es : List Event) : (s.setInbox es).analogSnap = s.analogSnap := rfl
@[simp] theorem State.setInbox_accel (s : State) (es : List Event) : (s.setInbox es).accel = s.accel := rfl
@[simp] theorem State.setInbox_frameBuf (s : State) (es : List Event) : (s.setInbox es).frameBuf = s.frameBuf := rfl
@[simp] theorem State.setInbox_commands (s : State) (es : List Event) : (s.setInbox es).commands = s.commands := rfl
@[simp] theorem State.setInbox_result (s : State) (es : List Event) : (s.setInbox es).result = s.result := rfl
@[simp] theorem State.setInbox_inbox (s : State) (es : List Event) : (s.setInbox es).inbox = es := rfl
@[simp] theorem State.setInbox_halves (s : State) (es : List Event) (sp : HalfSpace) :
    (s.setInbox es).halves sp = s.halves sp := by
  rcases sp with (_ | _) | _ | _ | _ | _ <;> rfl
@[simp] theorem State.setInbox_bytes (s : State) (es : List Event) (sp : ByteSpace) :
    (s.setInbox es).bytes sp = s.bytes sp := by
  cases sp <;> rfl
@[simp] theorem State.setInbox_halfAt (s : State) (es : List Event) (sp : HalfSpace) (k : Nat) :
    (s.setInbox es).halfAt sp k = s.halfAt sp k := by
  simp [State.halfAt]
@[simp] theorem State.setInbox_byteAt (s : State) (es : List Event) (sp : ByteSpace) (k : Nat) :
    (s.setInbox es).byteAt sp k = s.byteAt sp k := by
  simp [State.byteAt]

/-! ## `tick` -/

@[simp] theorem State.tick_cfg (s : State) : (s.tick).cfg = s.cfg := rfl
@[simp] theorem State.tick_mode (s : State) : (s.tick).mode = s.mode := rfl
@[simp] theorem State.tick_irqen (s : State) : (s.tick).irqen = s.irqen := rfl
@[simp] theorem State.tick_frameReady (s : State) : (s.tick).frameReady = s.frameReady := rfl
@[simp] theorem State.tick_active (s : State) : (s.tick).active = s.active := rfl
@[simp] theorem State.tick_dmaCnt (s : State) : (s.tick).dmaCnt = s.dmaCnt := rfl
@[simp] theorem State.tick_dmaTcif (s : State) : (s.tick).dmaTcif = s.dmaTcif := rfl
@[simp] theorem State.tick_msTick (s : State) : (s.tick).msTick = (s.msTick + 1) % 2 ^ s.cfg.msTickBits := rfl
@[simp] theorem State.tick_writePos (s : State) : (s.tick).writePos = s.writePos := rfl
@[simp] theorem State.tick_head (s : State) : (s.tick).head = s.head := rfl
@[simp] theorem State.tick_decAcc (s : State) : (s.tick).decAcc = s.decAcc := rfl
@[simp] theorem State.tick_decCnt (s : State) : (s.tick).decCnt = s.decCnt := rfl
@[simp] theorem State.tick_avg (s : State) : (s.tick).avg = s.avg := rfl
@[simp] theorem State.tick_lowBand (s : State) : (s.tick).lowBand = s.lowBand := rfl
@[simp] theorem State.tick_highBand (s : State) : (s.tick).highBand = s.highBand := rfl
@[simp] theorem State.tick_energy (s : State) : (s.tick).energy = s.energy := rfl
@[simp] theorem State.tick_energyLo (s : State) : (s.tick).energyLo = s.energyLo := rfl
@[simp] theorem State.tick_peakMag (s : State) : (s.tick).peakMag = s.peakMag := rfl
@[simp] theorem State.tick_peakIdx (s : State) : (s.tick).peakIdx = s.peakIdx := rfl
@[simp] theorem State.tick_peakHz (s : State) : (s.tick).peakHz = s.peakHz := rfl
@[simp] theorem State.tick_own (s : State) : (s.tick).own = s.own := rfl
@[simp] theorem State.tick_high0 (s : State) : (s.tick).high0 = s.high0 := rfl
@[simp] theorem State.tick_high1 (s : State) : (s.tick).high1 = s.high1 := rfl
@[simp] theorem State.tick_ring (s : State) : (s.tick).ring = s.ring := rfl
@[simp] theorem State.tick_lowSnap (s : State) : (s.tick).lowSnap = s.lowSnap := rfl
@[simp] theorem State.tick_imag (s : State) : (s.tick).imag = s.imag := rfl
@[simp] theorem State.tick_analogSnap (s : State) : (s.tick).analogSnap = s.analogSnap := rfl
@[simp] theorem State.tick_accel (s : State) : (s.tick).accel = s.accel := rfl
@[simp] theorem State.tick_frameBuf (s : State) : (s.tick).frameBuf = s.frameBuf := rfl
@[simp] theorem State.tick_commands (s : State) : (s.tick).commands = s.commands := rfl
@[simp] theorem State.tick_result (s : State) : (s.tick).result = s.result := rfl
@[simp] theorem State.tick_inbox (s : State) : (s.tick).inbox = s.inbox := rfl
@[simp] theorem State.tick_halves (s : State) (sp : HalfSpace) :
    (s.tick).halves sp = s.halves sp := by
  rcases sp with (_ | _) | _ | _ | _ | _ <;> rfl
@[simp] theorem State.tick_bytes (s : State) (sp : ByteSpace) :
    (s.tick).bytes sp = s.bytes sp := by
  cases sp <;> rfl
@[simp] theorem State.tick_halfAt (s : State) (sp : HalfSpace) (k : Nat) :
    (s.tick).halfAt sp k = s.halfAt sp k := by
  simp [State.halfAt]
@[simp] theorem State.tick_byteAt (s : State) (sp : ByteSpace) (k : Nat) :
    (s.tick).byteAt sp k = s.byteAt sp k := by
  simp [State.byteAt]

/-! ## `violation` -/

@[simp] theorem State.violation_cfg (s : State) : (s.violation).cfg = s.cfg := rfl
@[simp] theorem State.violation_mode (s : State) : (s.violation).mode = .needsReset := rfl
@[simp] theorem State.violation_irqen (s : State) : (s.violation).irqen = clearTcie (clearTxie s.irqen) := rfl
@[simp] theorem State.violation_frameReady (s : State) : (s.violation).frameReady = s.frameReady := rfl
@[simp] theorem State.violation_active (s : State) : (s.violation).active = s.active := rfl
@[simp] theorem State.violation_dmaCnt (s : State) : (s.violation).dmaCnt = 0 := rfl
@[simp] theorem State.violation_dmaTcif (s : State) : (s.violation).dmaTcif = false := rfl
@[simp] theorem State.violation_msTick (s : State) : (s.violation).msTick = s.msTick := rfl
@[simp] theorem State.violation_writePos (s : State) : (s.violation).writePos = s.writePos := rfl
@[simp] theorem State.violation_head (s : State) : (s.violation).head = s.head := rfl
@[simp] theorem State.violation_decAcc (s : State) : (s.violation).decAcc = s.decAcc := rfl
@[simp] theorem State.violation_decCnt (s : State) : (s.violation).decCnt = s.decCnt := rfl
@[simp] theorem State.violation_avg (s : State) : (s.violation).avg = s.avg := rfl
@[simp] theorem State.violation_lowBand (s : State) : (s.violation).lowBand = s.lowBand := rfl
@[simp] theorem State.violation_highBand (s : State) : (s.violation).highBand = s.highBand := rfl
@[simp] theorem State.violation_energy (s : State) : (s.violation).energy = s.energy := rfl
@[simp] theorem State.violation_energyLo (s : State) : (s.violation).energyLo = s.energyLo := rfl
@[simp] theorem State.violation_peakMag (s : State) : (s.violation).peakMag = s.peakMag := rfl
@[simp] theorem State.violation_peakIdx (s : State) : (s.violation).peakIdx = s.peakIdx := rfl
@[simp] theorem State.violation_peakHz (s : State) : (s.violation).peakHz = s.peakHz := rfl
@[simp] theorem State.violation_own (s : State) : (s.violation).own = s.own := rfl
@[simp] theorem State.violation_high0 (s : State) : (s.violation).high0 = s.high0 := rfl
@[simp] theorem State.violation_high1 (s : State) : (s.violation).high1 = s.high1 := rfl
@[simp] theorem State.violation_ring (s : State) : (s.violation).ring = s.ring := rfl
@[simp] theorem State.violation_lowSnap (s : State) : (s.violation).lowSnap = s.lowSnap := rfl
@[simp] theorem State.violation_imag (s : State) : (s.violation).imag = s.imag := rfl
@[simp] theorem State.violation_analogSnap (s : State) : (s.violation).analogSnap = s.analogSnap := rfl
@[simp] theorem State.violation_accel (s : State) : (s.violation).accel = s.accel := rfl
@[simp] theorem State.violation_frameBuf (s : State) : (s.violation).frameBuf = s.frameBuf := rfl
@[simp] theorem State.violation_commands (s : State) : (s.violation).commands = s.commands ++ [.busStop] := rfl
@[simp] theorem State.violation_result (s : State) : (s.violation).result = s.result := rfl
@[simp] theorem State.violation_inbox (s : State) : (s.violation).inbox = s.inbox := rfl
@[simp] theorem State.violation_halves (s : State) (sp : HalfSpace) :
    (s.violation).halves sp = s.halves sp := by
  rcases sp with (_ | _) | _ | _ | _ | _ <;> rfl
@[simp] theorem State.violation_bytes (s : State) (sp : ByteSpace) :
    (s.violation).bytes sp = s.bytes sp := by
  cases sp <;> rfl
@[simp] theorem State.violation_halfAt (s : State) (sp : HalfSpace) (k : Nat) :
    (s.violation).halfAt sp k = s.halfAt sp k := by
  simp [State.halfAt]
@[simp] theorem State.violation_byteAt (s : State) (sp : ByteSpace) (k : Nat) :
    (s.violation).byteAt sp k = s.byteAt sp k := by
  simp [State.byteAt]

/-! ## `reinitialise` -/

@[simp] theorem State.reinitialise_cfg (s : State) : (s.reinitialise).cfg = s.cfg := rfl
@[simp] theorem State.reinitialise_mode (s : State) : (s.reinitialise).mode = .idle := rfl
@[simp] theorem State.reinitialise_irqen (s : State) : (s.reinitialise).irqen = irqenInit := rfl
@[simp] theorem State.reinitialise_frameReady (s : State) : (s.reinitialise).frameReady = s.frameReady := rfl
@[simp] theorem State.reinitialise_active (s : State) : (s.reinitialise).active = s.active := rfl
@[simp] theorem State.reinitialise_dmaCnt (s : State) : (s.reinitialise).dmaCnt = 0 := rfl
@[simp] theorem State.reinitialise_dmaTcif (s : State) : (s.reinitialise).dmaTcif = false := rfl
@[simp] theorem State.reinitialise_msTick (s : State) : (s.reinitialise).msTick = s.msTick := rfl
@[simp] theorem State.reinitialise_writePos (s : State) : (s.reinitialise).writePos = s.writePos := rfl
@[simp] theorem State.reinitialise_head (s : State) : (s.reinitialise).head = s.head := rfl
@[simp] theorem State.reinitialise_decAcc (s : State) : (s.reinitialise).decAcc = s.decAcc := rfl
@[simp] theorem State.reinitialise_decCnt (s : State) : (s.reinitialise).decCnt = s.decCnt := rfl
@[simp] theorem State.reinitialise_avg (s : State) : (s.reinitialise).avg = s.avg := rfl
@[simp] theorem State.reinitialise_lowBand (s : State) : (s.reinitialise).lowBand = s.lowBand := rfl
@[simp] theorem State.reinitialise_highBand (s : State) : (s.reinitialise).highBand = s.highBand := rfl
@[simp] theorem State.reinitialise_energy (s : State) : (s.reinitialise).energy = s.energy := rfl
@[simp] theorem State.reinitialise_energyLo (s : State) : (s.reinitialise).energyLo = s.energyLo := rfl
@[simp] theorem State.reinitialise_peakMag (s : State) : (s.reinitialise).peakMag = s.peakMag := rfl
@[simp] theorem State.reinitialise_peakIdx (s : State) : (s.reinitialise).peakIdx = s.peakIdx := rfl
@[simp] theorem State.reinitialise_peakHz (s : State) : (s.reinitialise).peakHz = s.peakHz := rfl
@[simp] theorem State.reinitialise_own (s : State) : (s.reinitialise).own = s.own := rfl
@[simp] theorem State.reinitialise_high0 (s : State) : (s.reinitialise).high0 = s.high0 := rfl
@[simp] theorem State.reinitialise_high1 (s : State) : (s.reinitialise).high1 = s.high1 := rfl
@[simp] theorem State.reinitialise_ring (s : State) : (s.reinitialise).ring = s.ring := rfl
@[simp] theorem State.reinitialise_lowSnap (s : State) : (s.reinitialise).lowSnap = s.lowSnap := rfl
@[simp] theorem State.reinitialise_imag (s : State) : (s.reinitialise).imag = s.imag := rfl
@[simp] theorem State.reinitialise_analogSnap (s : State) : (s.reinitialise).analogSnap = s.analogSnap := rfl
@[simp] theorem State.reinitialise_accel (s : State) : (s.reinitialise).accel = s.accel := rfl
@[simp] theorem State.reinitialise_frameBuf (s : State) : (s.reinitialise).frameBuf = s.frameBuf := rfl
@[simp] theorem State.reinitialise_commands (s : State) : (s.reinitialise).commands = s.commands ++ [.deviceInit] := rfl
@[simp] theorem State.reinitialise_result (s : State) : (s.reinitialise).result = s.result := rfl
@[simp] theorem State.reinitialise_inbox (s : State) : (s.reinitialise).inbox = s.inbox := rfl
@[simp] theorem State.reinitialise_halves (s : State) (sp : HalfSpace) :
    (s.reinitialise).halves sp = s.halves sp := by
  rcases sp with (_ | _) | _ | _ | _ | _ <;> rfl
@[simp] theorem State.reinitialise_bytes (s : State) (sp : ByteSpace) :
    (s.reinitialise).bytes sp = s.bytes sp := by
  cases sp <;> rfl
@[simp] theorem State.reinitialise_halfAt (s : State) (sp : HalfSpace) (k : Nat) :
    (s.reinitialise).halfAt sp k = s.halfAt sp k := by
  simp [State.halfAt]
@[simp] theorem State.reinitialise_byteAt (s : State) (sp : ByteSpace) (k : Nat) :
    (s.reinitialise).byteAt sp k = s.byteAt sp k := by
  simp [State.byteAt]

/-! ## `setHalves` -/

@[simp] theorem State.setHalves_cfg (s : State) (sp : HalfSpace) (m : Mem 16) :
    (s.setHalves sp m).cfg = s.cfg := by rcases sp with (_ | _) | _ | _ | _ | _ <;> rfl
@[simp] theorem State.setHalves_mode (s : State) (sp : HalfSpace) (m : Mem 16) :
    (s.setHalves sp m).mode = s.mode := by rcases sp with (_ | _) | _ | _ | _ | _ <;> rfl
@[simp] theorem State.setHalves_irqen (s : State) (sp : HalfSpace) (m : Mem 16) :
    (s.setHalves sp m).irqen = s.irqen := by rcases sp with (_ | _) | _ | _ | _ | _ <;> rfl
@[simp] theorem State.setHalves_frameReady (s : State) (sp : HalfSpace) (m : Mem 16) :
    (s.setHalves sp m).frameReady = s.frameReady := by rcases sp with (_ | _) | _ | _ | _ | _ <;> rfl
@[simp] theorem State.setHalves_active (s : State) (sp : HalfSpace) (m : Mem 16) :
    (s.setHalves sp m).active = s.active := by rcases sp with (_ | _) | _ | _ | _ | _ <;> rfl
@[simp] theorem State.setHalves_dmaCnt (s : State) (sp : HalfSpace) (m : Mem 16) :
    (s.setHalves sp m).dmaCnt = s.dmaCnt := by rcases sp with (_ | _) | _ | _ | _ | _ <;> rfl
@[simp] theorem State.setHalves_dmaTcif (s : State) (sp : HalfSpace) (m : Mem 16) :
    (s.setHalves sp m).dmaTcif = s.dmaTcif := by rcases sp with (_ | _) | _ | _ | _ | _ <;> rfl
@[simp] theorem State.setHalves_msTick (s : State) (sp : HalfSpace) (m : Mem 16) :
    (s.setHalves sp m).msTick = s.msTick := by rcases sp with (_ | _) | _ | _ | _ | _ <;> rfl
@[simp] theorem State.setHalves_writePos (s : State) (sp : HalfSpace) (m : Mem 16) :
    (s.setHalves sp m).writePos = s.writePos := by rcases sp with (_ | _) | _ | _ | _ | _ <;> rfl
@[simp] theorem State.setHalves_head (s : State) (sp : HalfSpace) (m : Mem 16) :
    (s.setHalves sp m).head = s.head := by rcases sp with (_ | _) | _ | _ | _ | _ <;> rfl
@[simp] theorem State.setHalves_decAcc (s : State) (sp : HalfSpace) (m : Mem 16) :
    (s.setHalves sp m).decAcc = s.decAcc := by rcases sp with (_ | _) | _ | _ | _ | _ <;> rfl
@[simp] theorem State.setHalves_decCnt (s : State) (sp : HalfSpace) (m : Mem 16) :
    (s.setHalves sp m).decCnt = s.decCnt := by rcases sp with (_ | _) | _ | _ | _ | _ <;> rfl
@[simp] theorem State.setHalves_avg (s : State) (sp : HalfSpace) (m : Mem 16) :
    (s.setHalves sp m).avg = s.avg := by rcases sp with (_ | _) | _ | _ | _ | _ <;> rfl
@[simp] theorem State.setHalves_lowBand (s : State) (sp : HalfSpace) (m : Mem 16) :
    (s.setHalves sp m).lowBand = s.lowBand := by rcases sp with (_ | _) | _ | _ | _ | _ <;> rfl
@[simp] theorem State.setHalves_highBand (s : State) (sp : HalfSpace) (m : Mem 16) :
    (s.setHalves sp m).highBand = s.highBand := by rcases sp with (_ | _) | _ | _ | _ | _ <;> rfl
@[simp] theorem State.setHalves_energy (s : State) (sp : HalfSpace) (m : Mem 16) :
    (s.setHalves sp m).energy = s.energy := by rcases sp with (_ | _) | _ | _ | _ | _ <;> rfl
@[simp] theorem State.setHalves_energyLo (s : State) (sp : HalfSpace) (m : Mem 16) :
    (s.setHalves sp m).energyLo = s.energyLo := by rcases sp with (_ | _) | _ | _ | _ | _ <;> rfl
@[simp] theorem State.setHalves_peakMag (s : State) (sp : HalfSpace) (m : Mem 16) :
    (s.setHalves sp m).peakMag = s.peakMag := by rcases sp with (_ | _) | _ | _ | _ | _ <;> rfl
@[simp] theorem State.setHalves_peakIdx (s : State) (sp : HalfSpace) (m : Mem 16) :
    (s.setHalves sp m).peakIdx = s.peakIdx := by rcases sp with (_ | _) | _ | _ | _ | _ <;> rfl
@[simp] theorem State.setHalves_peakHz (s : State) (sp : HalfSpace) (m : Mem 16) :
    (s.setHalves sp m).peakHz = s.peakHz := by rcases sp with (_ | _) | _ | _ | _ | _ <;> rfl
@[simp] theorem State.setHalves_own (s : State) (sp : HalfSpace) (m : Mem 16) :
    (s.setHalves sp m).own = s.own := by rcases sp with (_ | _) | _ | _ | _ | _ <;> rfl
@[simp] theorem State.setHalves_accel (s : State) (sp : HalfSpace) (m : Mem 16) :
    (s.setHalves sp m).accel = s.accel := by rcases sp with (_ | _) | _ | _ | _ | _ <;> rfl
@[simp] theorem State.setHalves_frameBuf (s : State) (sp : HalfSpace) (m : Mem 16) :
    (s.setHalves sp m).frameBuf = s.frameBuf := by rcases sp with (_ | _) | _ | _ | _ | _ <;> rfl
@[simp] theorem State.setHalves_commands (s : State) (sp : HalfSpace) (m : Mem 16) :
    (s.setHalves sp m).commands = s.commands := by rcases sp with (_ | _) | _ | _ | _ | _ <;> rfl
@[simp] theorem State.setHalves_result (s : State) (sp : HalfSpace) (m : Mem 16) :
    (s.setHalves sp m).result = s.result := by rcases sp with (_ | _) | _ | _ | _ | _ <;> rfl
@[simp] theorem State.setHalves_inbox (s : State) (sp : HalfSpace) (m : Mem 16) :
    (s.setHalves sp m).inbox = s.inbox := by rcases sp with (_ | _) | _ | _ | _ | _ <;> rfl
/-! ## `setBytes` -/

@[simp] theorem State.setBytes_cfg (s : State) (sp : ByteSpace) (m : Mem 8) :
    (s.setBytes sp m).cfg = s.cfg := by cases sp <;> rfl
@[simp] theorem State.setBytes_mode (s : State) (sp : ByteSpace) (m : Mem 8) :
    (s.setBytes sp m).mode = s.mode := by cases sp <;> rfl
@[simp] theorem State.setBytes_irqen (s : State) (sp : ByteSpace) (m : Mem 8) :
    (s.setBytes sp m).irqen = s.irqen := by cases sp <;> rfl
@[simp] theorem State.setBytes_frameReady (s : State) (sp : ByteSpace) (m : Mem 8) :
    (s.setBytes sp m).frameReady = s.frameReady := by cases sp <;> rfl
@[simp] theorem State.setBytes_active (s : State) (sp : ByteSpace) (m : Mem 8) :
    (s.setBytes sp m).active = s.active := by cases sp <;> rfl
@[simp] theorem State.setBytes_dmaCnt (s : State) (sp : ByteSpace) (m : Mem 8) :
    (s.setBytes sp m).dmaCnt = s.dmaCnt := by cases sp <;> rfl
@[simp] theorem State.setBytes_dmaTcif (s : State) (sp : ByteSpace) (m : Mem 8) :
    (s.setBytes sp m).dmaTcif = s.dmaTcif := by cases sp <;> rfl
@[simp] theorem State.setBytes_msTick (s : State) (sp : ByteSpace) (m : Mem 8) :
    (s.setBytes sp m).msTick = s.msTick := by cases sp <;> rfl
@[simp] theorem State.setBytes_writePos (s : State) (sp : ByteSpace) (m : Mem 8) :
    (s.setBytes sp m).writePos = s.writePos := by cases sp <;> rfl
@[simp] theorem State.setBytes_head (s : State) (sp : ByteSpace) (m : Mem 8) :
    (s.setBytes sp m).head = s.head := by cases sp <;> rfl
@[simp] theorem State.setBytes_decAcc (s : State) (sp : ByteSpace) (m : Mem 8) :
    (s.setBytes sp m).decAcc = s.decAcc := by cases sp <;> rfl
@[simp] theorem State.setBytes_decCnt (s : State) (sp : ByteSpace) (m : Mem 8) :
    (s.setBytes sp m).decCnt = s.decCnt := by cases sp <;> rfl
@[simp] theorem State.setBytes_avg (s : State) (sp : ByteSpace) (m : Mem 8) :
    (s.setBytes sp m).avg = s.avg := by cases sp <;> rfl
@[simp] theorem State.setBytes_lowBand (s : State) (sp : ByteSpace) (m : Mem 8) :
    (s.setBytes sp m).lowBand = s.lowBand := by cases sp <;> rfl
@[simp] theorem State.setBytes_highBand (s : State) (sp : ByteSpace) (m : Mem 8) :
    (s.setBytes sp m).highBand = s.highBand := by cases sp <;> rfl
@[simp] theorem State.setBytes_energy (s : State) (sp : ByteSpace) (m : Mem 8) :
    (s.setBytes sp m).energy = s.energy := by cases sp <;> rfl
@[simp] theorem State.setBytes_energyLo (s : State) (sp : ByteSpace) (m : Mem 8) :
    (s.setBytes sp m).energyLo = s.energyLo := by cases sp <;> rfl
@[simp] theorem State.setBytes_peakMag (s : State) (sp : ByteSpace) (m : Mem 8) :
    (s.setBytes sp m).peakMag = s.peakMag := by cases sp <;> rfl
@[simp] theorem State.setBytes_peakIdx (s : State) (sp : ByteSpace) (m : Mem 8) :
    (s.setBytes sp m).peakIdx = s.peakIdx := by cases sp <;> rfl
@[simp] theorem State.setBytes_peakHz (s : State) (sp : ByteSpace) (m : Mem 8) :
    (s.setBytes sp m).peakHz = s.peakHz := by cases sp <;> rfl
@[simp] theorem State.setBytes_own (s : State) (sp : ByteSpace) (m : Mem 8) :
    (s.setBytes sp m).own = s.own := by cases sp <;> rfl
@[simp] theorem State.setBytes_high0 (s : State) (sp : ByteSpace) (m : Mem 8) :
    (s.setBytes sp m).high0 = s.high0 := by cases sp <;> rfl
@[simp] theorem State.setBytes_high1 (s : State) (sp : ByteSpace) (m : Mem 8) :
    (s.setBytes sp m).high1 = s.high1 := by cases sp <;> rfl
@[simp] theorem State.setBytes_ring (s : State) (sp : ByteSpace) (m : Mem 8) :
    (s.setBytes sp m).ring = s.ring := by cases sp <;> rfl
@[simp] theorem State.setBytes_lowSnap (s : State) (sp : ByteSpace) (m : Mem 8) :
    (s.setBytes sp m).lowSnap = s.lowSnap := by cases sp <;> rfl
@[simp] theorem State.setBytes_imag (s : State) (sp : ByteSpace) (m : Mem 8) :
    (s.setBytes sp m).imag = s.imag := by cases sp <;> rfl
@[simp] theorem State.setBytes_analogSnap (s : State) (sp : ByteSpace) (m : Mem 8) :
    (s.setBytes sp m).analogSnap = s.analogSnap := by cases sp <;> rfl
@[simp] theorem State.setBytes_commands (s : State) (sp : ByteSpace) (m : Mem 8) :
    (s.setBytes sp m).commands = s.commands := by cases sp <;> rfl
@[simp] theorem State.setBytes_result (s : State) (sp : ByteSpace) (m : Mem 8) :
    (s.setBytes sp m).result = s.result := by cases sp <;> rfl
@[simp] theorem State.setBytes_inbox (s : State) (sp : ByteSpace) (m : Mem 8) :
    (s.setBytes sp m).inbox = s.inbox := by cases sp <;> rfl

@[simp] theorem State.setHalves_bytes (s : State) (sp : HalfSpace) (m : Mem 16) (q : ByteSpace) :
    (s.setHalves sp m).bytes q = s.bytes q := by
  cases q <;> simp [State.bytes]

@[simp] theorem State.setBytes_halves (s : State) (sp : ByteSpace) (m : Mem 8) (q : HalfSpace) :
    (s.setBytes sp m).halves q = s.halves q := by
  rcases q with (_ | _) | _ | _ | _ | _ <;> simp [State.halves]

/-- A memory written whole reads back. -/
@[simp] theorem State.setHalves_halves_same (s : State) (sp : HalfSpace) (m : Mem 16) :
    (s.setHalves sp m).halves sp = m := by
  rcases sp with (_ | _) | _ | _ | _ | _ <;> rfl

/-- Writing one memory leaves every other memory as it was (`20_memory.md` R60, R62). -/
theorem State.setHalves_halves_other (s : State) {sp q : HalfSpace} (m : Mem 16) (h : q ≠ sp) :
    (s.setHalves sp m).halves q = s.halves q := by
  rcases sp with (_ | _) | _ | _ | _ | _ <;> rcases q with (_ | _) | _ | _ | _ | _ <;>
    first | rfl | exact absurd rfl h

@[simp] theorem State.setBytes_bytes_same (s : State) (sp : ByteSpace) (m : Mem 8) :
    (s.setBytes sp m).bytes sp = m := by
  cases sp <;> rfl

theorem State.setBytes_bytes_other (s : State) {sp q : ByteSpace} (m : Mem 8) (h : q ≠ sp) :
    (s.setBytes sp m).bytes q = s.bytes q := by
  cases sp <;> cases q <;> first | rfl | exact absurd rfl h

@[simp] theorem State.setHalves_byteAt (s : State) (sp : HalfSpace) (m : Mem 16) (q : ByteSpace)
    (k : Nat) : (s.setHalves sp m).byteAt q k = s.byteAt q k := by
  simp [State.byteAt]

@[simp] theorem State.setBytes_halfAt (s : State) (sp : ByteSpace) (m : Mem 8) (q : HalfSpace)
    (k : Nat) : (s.setBytes sp m).halfAt q k = s.halfAt q k := by
  simp [State.halfAt]

/-! ## Sides -/

@[simp] theorem Side.other_other (a : Side) : a.other.other = a := by cases a <;> rfl

@[simp] theorem Side.other_ne (a : Side) : a.other ≠ a := by cases a <;> decide

@[simp] theorem Side.ne_other (a : Side) : a ≠ a.other := by cases a <;> decide

/-! ## `finish` -/

@[simp] theorem finish_ok (s : State) : finish (.ok s) = .next s := rfl

@[simp] theorem finish_error (f : Fault) : finish (.error f) = .fault f := rfl

/-- An operation that ends through `finish` answers a next state exactly when it computed one. -/
theorem finish_eq_next {r : Except Fault State} {t : State} : finish r = .next t ↔ r = .ok t := by
  cases r <;> simp [finish]

/-- A computation with a fault in the middle: it answers a value exactly when each part does. -/
theorem except_bind_eq_ok {ε α β : Type} {x : Except ε α} {f : α → Except ε β} {b : β} :
    (x >>= f) = .ok b ↔ ∃ a, x = .ok a ∧ f a = .ok b := by
  cases x <;> simp [bind, Except.bind]

/-- It ends in a fault exactly when its first part does, or the rest does after it. -/
theorem except_bind_eq_error {ε α β : Type} {x : Except ε α} {f : α → Except ε β} {e : ε} :
    (x >>= f) = .error e ↔ x = .error e ∨ ∃ a, x = .ok a ∧ f a = .error e := by
  cases x <;> simp [bind, Except.bind]

end Sys2Proof.Machine
end

