-- ==== Sys2Proof/Laws/Ops.lean ====
section
/-! SUPPORT. What each shared operation can do, said once: reading and writing a space, the violation
entry and the return from it, the ghost test, and the invariant of the memories under every write. -/

namespace Sys2Proof.Machine

/-! ## Reading a space -/

/-- A read of `n` elements answers exactly the `n` elements, when they are in range and have values. -/
theorem readHalves_eq_ok {sp : HalfSpace} {base n : Nat} {s : State} {vs : List Half} :
    readHalves sp base n s = .ok vs ↔
      base + n ≤ sp.size s.cfg ∧ vs.length = n ∧ ∀ i < n, s.halfAt sp (base + i) = vs[i]? := by
  unfold readHalves
  by_cases hr : base + n ≤ sp.size s.cfg
  · rw [if_pos hr]
    cases h : Mem.readN sp.unlisted (s.halves sp) base n with
    | none =>
      constructor
      · intro hh; cases hh
      · rintro ⟨-, h2⟩
        rw [Mem.readN_eq_some.2 h2] at h
        cases h
    | some us =>
      have hu := Mem.readN_eq_some.1 h
      constructor
      · intro hh
        cases hh
        exact ⟨hr, hu⟩
      · rintro ⟨-, h2⟩
        have := Mem.readN_eq_some (m := s.halves sp) (d := sp.unlisted) (base := base).2 h2
        rw [h] at this
        cases this
        rfl
  · rw [if_neg hr]
    constructor
    · intro hh; cases hh
    · rintro ⟨h, -⟩; exact absurd h hr

/-- A read in range completes, except of `IMAG`. -/
theorem readHalves_of_range {sp : HalfSpace} {base n : Nat} {s : State}
    (h : base + n ≤ sp.size s.cfg) (hv : sp ≠ .imag) : ∃ vs, readHalves sp base n s = .ok vs := by
  have hd : ∃ v, sp.unlisted = some v := by
    rcases sp with (_ | _) | _ | _ | _ | _ <;>
      first | exact ⟨0, rfl⟩ | exact absurd rfl hv
  obtain ⟨v, hd⟩ := hd
  obtain ⟨vs, hvs⟩ := Mem.readN_of_value (v := v) (s.halves sp) base n
  refine ⟨vs, ?_⟩
  unfold readHalves
  rw [if_pos h, hd, hvs]

/-- A read of `n` bytes, likewise. -/
theorem readBytes_eq_ok {sp : ByteSpace} {base n : Nat} {s : State} {vs : List Byte} :
    readBytes sp base n s = .ok vs ↔
      base + n ≤ sp.size ∧ vs.length = n ∧ ∀ i < n, s.byteAt sp (base + i) = vs[i]? := by
  unfold readBytes
  by_cases hr : base + n ≤ sp.size
  · rw [if_pos hr]
    cases h : Mem.readN sp.unlisted (s.bytes sp) base n with
    | none =>
      constructor
      · intro hh; cases hh
      · rintro ⟨-, h2⟩
        rw [Mem.readN_eq_some.2 h2] at h
        cases h
    | some us =>
      have hu := Mem.readN_eq_some.1 h
      constructor
      · intro hh
        cases hh
        exact ⟨hr, hu⟩
      · rintro ⟨-, h2⟩
        have := Mem.readN_eq_some (m := s.bytes sp) (d := sp.unlisted) (base := base).2 h2
        rw [h] at this
        cases this
        rfl
  · rw [if_neg hr]
    constructor
    · intro hh; cases hh
    · rintro ⟨h, -⟩; exact absurd h hr

/-- `ACCEL` is readable in range. -/
theorem readBytes_accel {base n : Nat} {s : State} (h : base + n ≤ accBytes) :
    ∃ vs, readBytes .accel base n s = .ok vs := by
  obtain ⟨vs, hvs⟩ := Mem.readN_of_value (v := (0 : Byte)) (s.bytes .accel) base n
  refine ⟨vs, ?_⟩
  unfold readBytes
  rw [if_pos (by simpa [ByteSpace.size] using h)]
  simp only [ByteSpace.unlisted]
  rw [hvs]

/-! ## Writing a space -/

/-- A write answers exactly the state with the range replaced, when it is in range. -/
theorem writeHalves_eq_ok {sp : HalfSpace} {base : Nat} {vs : List Half} {s t : State} :
    writeHalves sp base vs s = .ok t ↔
      base + vs.length ≤ sp.size s.cfg
      ∧ s.setHalves sp (Mem.writeN sp.unlisted (s.halves sp) base vs) = t := by
  unfold writeHalves
  split <;> simp_all

/-- The same for a byte memory. -/
theorem writeBytes_eq_ok {sp : ByteSpace} {base : Nat} {vs : List Byte} {s t : State} :
    writeBytes sp base vs s = .ok t ↔
      base + vs.length ≤ sp.size
      ∧ s.setBytes sp (Mem.writeN sp.unlisted (s.bytes sp) base vs) = t := by
  unfold writeBytes
  split <;> simp_all

/-- What every element of every memory reads as after a write. -/
theorem halfAt_of_writeHalves {sp : HalfSpace} {base : Nat} {vs : List Half} {s t : State}
    (h : writeHalves sp base vs s = .ok t) (hw : Mem.wf sp.unlisted (s.halves sp)) (q : HalfSpace)
    (a : Nat) : t.halfAt q a =
      if q = sp ∧ base ≤ a ∧ a < base + vs.length then vs[a - base]? else s.halfAt q a := by
  obtain ⟨-, rfl⟩ := writeHalves_eq_ok.1 h
  by_cases hq : q = sp
  · subst hq
    rw [State.halfAt, State.setHalves_halves_same, Mem.read_writeN hw]
    simp [State.halfAt]
  · rw [if_neg (fun h => hq h.1), State.halfAt, State.setHalves_halves_other _ _ hq, State.halfAt]

/-- The same for the byte memories. -/
theorem byteAt_of_writeBytes {sp : ByteSpace} {base : Nat} {vs : List Byte} {s t : State}
    (h : writeBytes sp base vs s = .ok t) (hw : Mem.wf sp.unlisted (s.bytes sp)) (q : ByteSpace)
    (a : Nat) : t.byteAt q a =
      if q = sp ∧ base ≤ a ∧ a < base + vs.length then vs[a - base]? else s.byteAt q a := by
  obtain ⟨-, rfl⟩ := writeBytes_eq_ok.1 h
  by_cases hq : q = sp
  · subst hq
    rw [State.byteAt, State.setBytes_bytes_same, Mem.read_writeN hw]
    simp [State.byteAt]
  · rw [if_neg (fun h => hq h.1), State.byteAt, State.setBytes_bytes_other _ _ hq, State.byteAt]

/-! ## The canonical form of every memory -/

/-- The memory invariant, space by space. -/
theorem State.memoryInv_iff {s : State} :
    s.MemoryInv ↔ (∀ sp, s.HalfSpaceOk sp) ∧ ∀ sp, s.ByteSpaceOk sp := by
  constructor
  · rintro ⟨h1, h2, h3, h4, h5, h6, h7, h8⟩
    refine ⟨?_, ?_⟩
    · rintro ((_ | _) | _ | _ | _ | _) <;> assumption
    · rintro (_ | _) <;> assumption
  · rintro ⟨h, k⟩
    exact ⟨h _, h _, h _, h _, h _, h _, k _, k _⟩

/-- One 16-bit memory of a state whose memories are good. -/
theorem State.MemoryInv.half {s : State} (h : s.MemoryInv) (sp : HalfSpace) : s.HalfSpaceOk sp :=
  (State.memoryInv_iff.1 h).1 sp

/-- One byte memory of a state whose memories are good. -/
theorem State.MemoryInv.byte {s : State} (h : s.MemoryInv) (sp : ByteSpace) : s.ByteSpaceOk sp :=
  (State.memoryInv_iff.1 h).2 sp

/-- An update of registers alone keeps the memory invariant. -/
theorem State.MemoryInv.of_same {s t : State} (h : s.MemoryInv) (hc : t.cfg = s.cfg)
    (hh : ∀ sp, t.halves sp = s.halves sp) (hb : ∀ sp, t.bytes sp = s.bytes sp) : t.MemoryInv := by
  obtain ⟨h1, h2⟩ := State.memoryInv_iff.1 h
  refine State.memoryInv_iff.2 ⟨fun sp => ?_, fun sp => ?_⟩
  · have := h1 sp
    rw [State.HalfSpaceOk] at this ⊢
    rwa [hh, hc]
  · have := h2 sp
    rw [State.ByteSpaceOk] at this ⊢
    rwa [hb]

/-- Every write of a 16-bit memory keeps every memory canonical and inside its size. -/
theorem State.MemoryInv.writeHalves {s t : State} (h : s.MemoryInv) {sp : HalfSpace} {base : Nat}
    {vs : List Half} (hw : Machine.writeHalves sp base vs s = .ok t) : t.MemoryInv := by
  obtain ⟨hr, rfl⟩ := writeHalves_eq_ok.1 hw
  obtain ⟨h1, h2⟩ := State.memoryInv_iff.1 h
  refine State.memoryInv_iff.2 ⟨fun q => ?_, fun q => ?_⟩
  · by_cases hq : q = sp
    · subst hq
      rw [State.HalfSpaceOk, State.setHalves_halves_same, State.setHalves_cfg]
      exact ⟨Mem.writeN_wf (h1 q).1 _ _, Mem.writeN_within (h1 q).2 hr⟩
    · rw [State.HalfSpaceOk, State.setHalves_halves_other _ _ hq, State.setHalves_cfg]
      exact h1 q
  · rw [State.ByteSpaceOk, State.setHalves_bytes]
    exact h2 q

/-- Every write of a byte memory keeps every memory canonical and inside its size. -/
theorem State.MemoryInv.writeBytes {s t : State} (h : s.MemoryInv) {sp : ByteSpace} {base : Nat}
    {vs : List Byte} (hw : Machine.writeBytes sp base vs s = .ok t) : t.MemoryInv := by
  obtain ⟨hr, rfl⟩ := writeBytes_eq_ok.1 hw
  obtain ⟨h1, h2⟩ := State.memoryInv_iff.1 h
  refine State.memoryInv_iff.2 ⟨fun q => ?_, fun q => ?_⟩
  · rw [State.HalfSpaceOk, State.setBytes_halves, State.setBytes_cfg]
    exact h1 q
  · by_cases hq : q = sp
    · subst hq
      rw [State.ByteSpaceOk, State.setBytes_bytes_same]
      exact ⟨Mem.writeN_wf (h2 q).1 _ _, Mem.writeN_within (h2 q).2 hr⟩
    · rw [State.ByteSpaceOk, State.setBytes_bytes_other _ _ hq]
      exact h2 q

/-- The memories right after reset are canonical: nothing is listed. -/
theorem State.resetWith_memoryInv (c : Config) : (State.resetWith c).MemoryInv := by
  refine State.memoryInv_iff.2 ⟨?_, ?_⟩
  · rintro ((_ | _) | _ | _ | _ | _) <;>
      exact ⟨⟨List.Pairwise.nil, fun c hc => nomatch hc⟩, fun c hc => nomatch hc⟩
  · rintro (_ | _) <;>
      exact ⟨⟨List.Pairwise.nil, fun c hc => nomatch hc⟩, fun c hc => nomatch hc⟩

/-! ## The violation entry, the return from it, the ghost test -/

/-- The violation entry in one record (`60_exceptions.md` R310). -/
theorem State.violation_eq (s : State) : s.violation =
    { s with mode := .needsReset, irqen := s.irqen &&& 0xC, dmaCnt := 0, dmaTcif := false,
             commands := s.commands ++ [.busStop] } := by
  have h : clearTcie (clearTxie s.irqen) = s.irqen &&& 0xC := by
    unfold clearTcie clearTxie
    rw [BitVec.and_assoc]
    rfl
  simp only [State.violation, State.setBus, State.setDma, State.emit, h]

/-- The return in one record (`45_transaction.md` R275). -/
theorem State.reinitialise_eq (s : State) : s.reinitialise =
    { s with mode := .idle, irqen := 0xC, dmaCnt := 0, dmaTcif := false,
             commands := s.commands ++ [.deviceInit] } := rfl

/-- When the ready data may be used. -/
theorem State.mayUseFrame_iff (s : State) :
    s.mayUseFrame = true ↔ s.own = true ∨ s.cfg.undefinedAs = .run := by
  unfold State.mayUseFrame
  cases s.cfg.undefinedAs <;> simp

/-- The register of a u16 holds the value when it fits. -/
theorem asU16_toNat {v : Nat} (h : v < 2 ^ 16) : (asU16 v).toNat = v := by
  rw [asU16, BitVec.toNat_ofNat]
  exact Nat.mod_eq_of_lt h

/-- `as_s16` of a value in range is that value. -/
theorem asS16_toInt {v : Int} (h1 : -32768 ≤ v) (h2 : v ≤ 32767) : (asS16 v).toInt = v := by
  rw [asS16, BitVec.toInt_ofInt]
  exact Int.bmod_eq_of_le (by norm_num; omega) (by norm_num; omega)

/-- What a signed place holds: the value where it fits, the free value where it does not. -/
theorem fitS16_cases (free : Half) (v : Int) :
    (-2 ^ 15 ≤ v ∧ v < 2 ^ 15 ∧ (fitS16 free v).toInt = v)
    ∨ (¬(-2 ^ 15 ≤ v ∧ v < 2 ^ 15) ∧ fitS16 free v = free) := by
  unfold fitS16
  by_cases h : -2 ^ 15 ≤ v ∧ v < 2 ^ 15
  · rw [if_pos h]
    exact .inl ⟨h.1, h.2, asS16_toInt (by omega) (by omega)⟩
  · rw [if_neg h]
    exact .inr ⟨h, rfl⟩

/-- What an unsigned place holds: the value where it fits, the free value where it does not. -/
theorem fitU16_cases (free : Half) (v : Nat) :
    (v < 2 ^ 16 ∧ (fitU16 free v).toNat = v) ∨ (2 ^ 16 ≤ v ∧ fitU16 free v = free) := by
  unfold fitU16
  by_cases h : v < 2 ^ 16
  · rw [if_pos h]
    exact .inl ⟨h, asU16_toNat h⟩
  · rw [if_neg h]
    exact .inr ⟨by omega, rfl⟩

/-! ## Sequences of operations -/

/-- A sequence that completes, followed by another. -/
theorem execAll_append {a : List Instr} (b : List Instr) {s t : State}
    (h : execAll a s = .next t) : execAll (a ++ b) s = execAll b t := by
  induction a generalizing s with
  | nil =>
    cases h
    rfl
  | cons i a ih =>
    simp only [execAll, List.cons_append] at *
    cases he : exec i s with
    | next u =>
      rw [he] at h
      exact ih h
    | fault f =>
      rw [he] at h
      cases h
    | refused f =>
      rw [he] at h
      cases h

/-! ## The step -/

/-- A step is a refusal or, under a well-formed configuration, what the next event asks for. -/
theorem step_eq (s : State) :
    step s = if configOk s.cfg then
        match s.inbox with
        | [] => .next s
        | .tick :: rest => .next (s.setInbox rest).tick
        | .request r :: rest =>
          match decode r with
          | .ok i => exec i (s.setInbox rest)
          | .error why => .refused (.illegalRequest why)
      else .refused .illFormedConfig := by
  unfold step underConfig
  rcases s.inbox with _ | ⟨_ | r, rest⟩ <;> rfl

end Sys2Proof.Machine
end

