-- ==== Sys2Proof/Laws/Fft.lean ====
section
/-! SUPPORT. The lengths that the transform keeps, and what FFT can do, said once (`41_fft.md`). -/

namespace Sys2Proof.Machine

/-- Reordering keeps the length (R151). -/
@[simp] theorem reorder_length (m : Nat) (xs : List Point) : (reorder m xs).length = 2 ^ m := by
  simp [reorder]

/-- The pass of one block of `2 l` elements keeps its length (R152). -/
theorem blockPass_length (c : Config) (inv shift : Bool) {l k : Nat} {block : List Point}
    (h : block.length = 2 * l) : (blockPass c inv shift l k block).length = 2 * l := by
  simp [blockPass, h]
  omega

/-- A pass over `n` blocks keeps the length (R152). -/
theorem blocksPass_length (c : Config) (inv shift : Bool) {l k n : Nat} {xs : List Point}
    (h : xs.length = n * (2 * l)) : (blocksPass c inv shift l k n xs).length = n * (2 * l) := by
  induction n generalizing xs with
  | zero => simp [blocksPass]
  | succ n ih =>
    have e : (n + 1) * (2 * l) = n * (2 * l) + 2 * l := by ring
    rw [blocksPass, List.length_append, blockPass_length, ih, e, Nat.add_comm]
    · rw [List.length_drop, h, e]
      omega
    · rw [List.length_take, h, e]
      omega

/-- Reversing keeps an index in range, and takes bit `b` from bit `m - 1 - b` (R151). -/
theorem bitReverse_spec (m i : Nat) :
    bitReverse m i < 2 ^ m ∧ ∀ b < m, (bitReverse m i).testBit b = i.testBit (m - 1 - b) := by
  induction m generalizing i with
  | zero => simp [bitReverse]
  | succ m ih =>
    obtain ⟨h1, h2⟩ := ih (i / 2)
    constructor
    · rw [bitReverse, Nat.pow_succ]
      rcases Nat.mod_two_eq_zero_or_one i with h | h <;> rw [h] <;> omega
    · intro b hb
      rw [bitReverse, Nat.mul_comm, Nat.testBit_two_pow_mul_add _ h1]
      by_cases hbm : b < m
      · rw [if_pos hbm, h2 b hbm, show m + 1 - 1 - b = (m - 1 - b) + 1 by omega, Nat.testBit_succ]
      · obtain rfl : b = m := by omega
        simp [Nat.testBit_zero]

/-- What the pass of one block leaves at `q` and at `q + l` (R152). -/
theorem blockPass_getElem? (c : Config) (inv shift : Bool) {l k q : Nat} {block : List Point}
    (h : block.length = 2 * l) (hq : q < l) : ∃ xi xp, block[q]? = some xi ∧ block[q + l]? = some xp
      ∧ (blockPass c inv shift l k block)[q]?
          = some (butterfly (twiddle c inv shift (q <<< k)) shift xi xp).1
      ∧ (blockPass c inv shift l k block)[q + l]?
          = some (butterfly (twiddle c inv shift (q <<< k)) shift xi xp).2 := by
  have e1 : block[q]? = some block[q] := List.getElem?_eq_getElem _
  have e2 : block[q + l]? = some block[q + l] := List.getElem?_eq_getElem _
  have hpair : (((block.take l).zip (block.drop l)).zipIdx.map
      (fun e => butterfly (twiddle c inv shift (e.2 <<< k)) shift e.1.1 e.1.2))[q]?
        = some (butterfly (twiddle c inv shift (q <<< k)) shift block[q] block[q + l]) := by
    rw [List.getElem?_eq_getElem (by simp [h]; omega)]
    simp [add_comm]
  refine ⟨_, _, e1, e2, ?_, ?_⟩
  · rw [blockPass, List.getElem?_append_left (by simp [h]; omega), List.getElem?_map, hpair]
    rfl
  · rw [blockPass, List.getElem?_append_right (by simp [h]), List.getElem?_map]
    simp only [List.length_map, List.length_zipIdx, List.length_zip, List.length_take,
      List.length_drop, h]
    rw [show q + l - min (min l (2 * l)) (2 * l - l) = q by omega, hpair]
    rfl

/-- What a pass over `n` blocks leaves at element `q` of the lower half of block `b` and at its partner
`l` further on (R152). -/
theorem blocksPass_getElem? (c : Config) (inv shift : Bool) {l k n b q : Nat} {xs : List Point}
    (h : xs.length = n * (2 * l)) (hb : b < n) (hq : q < l) :
    ∃ xi xp, xs[b * (2 * l) + q]? = some xi ∧ xs[b * (2 * l) + q + l]? = some xp
      ∧ (blocksPass c inv shift l k n xs)[b * (2 * l) + q]?
          = some (butterfly (twiddle c inv shift (q <<< k)) shift xi xp).1
      ∧ (blocksPass c inv shift l k n xs)[b * (2 * l) + q + l]?
          = some (butterfly (twiddle c inv shift (q <<< k)) shift xi xp).2 := by
  induction n generalizing xs b with
  | zero => omega
  | succ n ih =>
    have e : (n + 1) * (2 * l) = n * (2 * l) + 2 * l := by ring
    have ht : (xs.take (2 * l)).length = 2 * l := by rw [List.length_take]; omega
    have hd : (xs.drop (2 * l)).length = n * (2 * l) := by rw [List.length_drop]; omega
    have hbl := blockPass_length c inv shift (k := k) ht
    rw [blocksPass]
    cases b with
    | zero =>
      obtain ⟨xi, xp, h1, h2, h3, h4⟩ := blockPass_getElem? c inv shift (k := k) ht hq
      rw [List.getElem?_take_of_lt (by omega)] at h1 h2
      refine ⟨xi, xp, by simpa using h1, by simpa using h2, ?_, ?_⟩
      · rw [List.getElem?_append_left (by omega)]
        simpa using h3
      · rw [List.getElem?_append_left (by omega)]
        simpa using h4
    | succ b =>
      obtain ⟨xi, xp, h1, h2, h3, h4⟩ := ih hd (show b < n by omega)
      rw [List.getElem?_drop] at h1 h2
      have e' : (b + 1) * (2 * l) = 2 * l + b * (2 * l) := by ring
      refine ⟨xi, xp, by rwa [e', add_assoc], ?_, ?_, ?_⟩
      · rwa [e', add_assoc, add_assoc, ← add_assoc (b * _)]
      · rwa [List.getElem?_append_right (by omega), hbl,
          show (b + 1) * (2 * l) + q - 2 * l = b * (2 * l) + q by omega]
      · rwa [List.getElem?_append_right (by omega), hbl,
          show (b + 1) * (2 * l) + q + l - 2 * l = b * (2 * l) + q + l by omega]

/-- All passes keep the length (R152). -/
theorem passes_length (c : Config) (inv : Bool) {t l k scale : Nat} {xs : List Point}
    (h : xs.length = 2 ^ t * l) : (passes c inv t l k scale xs).1.length = 2 ^ t * l := by
  induction t generalizing l k scale xs with
  | zero => simpa [passes] using h
  | succ t ih =>
    have e : 2 ^ (t + 1) * l = 2 ^ t * (2 * l) := by ring
    rw [passes, ih, e]
    rw [blocksPass_length c inv _ (by rw [h, e])]

/-- A forward transform never counts a halving (`41_fft.md` R145). -/
theorem passes_forward_scale (c : Config) (t l k scale : Nat) (xs : List Point) :
    (passes c false t l k scale xs).2 = scale := by
  induction t generalizing l k xs with
  | zero => rfl
  | succ t ih => simp [passes, ih]

/-- The configuration function keeps the length of both arrays (R140). -/
theorem fftApply_length (c : Config) (m : Nat) (inv : Bool) (re im : List Half) :
    (fftApply c m inv re im).re.length = 2 ^ m ∧ (fftApply c m inv re im).im.length = 2 ^ m := by
  unfold fftApply
  cases c.transform with
  | external n rows => simp
  | reference =>
    have hp := passes_length c inv (t := m) (l := 1) (k := c.logPeriod - 1) (scale := 0)
      (xs := reorder m (re.zip im)) (by simp)
    simp only [fftReference, List.length_map, hp, Nat.mul_one, and_self]

/-- A row that is found states the value for these arguments (R148). -/
theorem statedRow_eq_some {rows : List FftRow} {m : Nat} {inv : Bool} {re im : List Half} {row : FftRow}
    (h : statedRow rows m inv re im = some row) :
    row ∈ rows ∧ row.m = m ∧ row.inv = inv ∧ row.re = re ∧ row.im = im := by
  have e := List.find?_some h
  simp only [Bool.and_eq_true, beq_iff_eq] at e
  exact ⟨List.mem_of_find?_eq_some h, e.1.1.1, e.1.1.2, e.1.2, e.2⟩

/-- Everything FFT can do: return the transform, or refuse the length (R140). -/
theorem execFft_eq (m : BitVec 5) (inv : Bool) (re im : List Half) (s : State) :
    execFft m inv re im s =
      if fftLegal s.cfg m re im = true then
        .next (s.withResult (.fft (fftApply s.cfg m.toNat inv re im).re
          (fftApply s.cfg m.toNat inv re im).im (fftApply s.cfg m.toNat inv re im).scale))
      else .refused (.illegalRequest .fftLength) := rfl

/-- The legal lengths of FFT (`30_encoding.md` R96). -/
theorem fftLegal_iff {c : Config} {m : BitVec 5} {re im : List Half} :
    fftLegal c m re im = true ↔
      m ≠ 0 ∧ 2 ^ m.toNat ≤ c.fftMax ∧ re.length = 2 ^ m.toNat ∧ im.length = 2 ^ m.toNat := by
  simp [fftLegal, and_assoc]

end Sys2Proof.Machine
end

