-- ==== Sys2Proof/Laws/Analysis.lean ====
section
/-! SUPPORT. What the analysis operations can do, said once (`43_analysis.md`). -/

namespace Sys2Proof.Machine

/-- The window keeps the length (R194). -/
@[simp] theorem windowed_length (c : Config) (buf : List Half) (n : Nat) :
    (windowed c buf n).length = buf.length := by
  simp [windowed]

/-- Each element of the window is the windowed sample (R194). -/
theorem windowed_getElem? (c : Config) (buf : List Half) (n i : Nat) :
    (windowed c buf n)[i]? = buf[i]?.map (windowElement c n i) := by
  simp [windowed, Function.comp_def]

/-- The magnitudes of a list of bins, one by one (R197). -/
theorem magnitudesFrom_eq_ok {c : Config} {n k : Nat} {ps : List Point} {mag : List Nat} :
    magnitudesFrom c n k ps = .ok mag ↔ mag.length = ps.length ∧
      ∀ i p, ps[i]? = some p → ∃ v, mag[i]? = some v ∧ magnitude c n (k + i) p = .ok v := by
  induction ps generalizing k mag with
  | nil =>
    simp only [magnitudesFrom]
    constructor
    · intro h; cases h; simp
    · rintro ⟨h, -⟩
      rw [List.length_eq_zero_iff.1 h]
  | cons p ps ih =>
    simp only [magnitudesFrom, except_bind_eq_ok]
    constructor
    · rintro ⟨v, h1, vs, h2, h3⟩
      cases h3
      obtain ⟨hl, hi⟩ := ih.1 h2
      refine ⟨by simp [hl], fun i q hq => ?_⟩
      cases i with
      | zero =>
        simp only [List.getElem?_cons_zero, Option.some.injEq] at hq
        subst hq
        exact ⟨v, rfl, h1⟩
      | succ i =>
        obtain ⟨u, hu1, hu2⟩ := hi i q (by simpa using hq)
        exact ⟨u, by simpa using hu1, by rwa [show k + (i + 1) = k + 1 + i by omega]⟩
    · rintro ⟨hl, hi⟩
      cases mag with
      | nil => simp at hl
      | cons v vs =>
        obtain ⟨u, hu1, hu2⟩ := hi 0 p rfl
        simp only [List.getElem?_cons_zero, Option.some.injEq] at hu1
        subst hu1
        refine ⟨v, hu2, vs, ih.2 ⟨by simpa using hl, fun i q hq => ?_⟩, rfl⟩
        obtain ⟨u, hu1, hu2⟩ := hi (i + 1) q (by simpa using hq)
        exact ⟨u, by simpa using hu1, by rwa [show k + 1 + i = k + (i + 1) by omega]⟩

/-- The only stop of a bin (R199). -/
theorem magnitude_eq_error {c : Config} {n k : Nat} {p : Point} {f : Fault} :
    magnitude c n k p = .error f ↔
      sumOfSquares p = 2 ^ 31 ∧ c.undefinedAs = .fault ∧ f = .magOverflow := by
  unfold magnitude
  by_cases h : sumOfSquares p = 2 ^ 31
  · rw [if_pos h]
    cases c.undefinedAs <;> simp [h, eq_comm]
  · rw [if_neg h]
    simp only [h, false_and, reduceCtorEq]

/-- The only stop of a list of bins: one of them overflows (R199). -/
theorem magnitudesFrom_eq_error {c : Config} {n k : Nat} {ps : List Point} {f : Fault} :
    magnitudesFrom c n k ps = .error f ↔
      (∃ p ∈ ps, sumOfSquares p = 2 ^ 31) ∧ c.undefinedAs = .fault ∧ f = .magOverflow := by
  induction ps generalizing k with
  | nil => simp [magnitudesFrom]
  | cons p ps ih =>
    simp only [magnitudesFrom, except_bind_eq_error, magnitude_eq_error, ih, reduceCtorEq, and_false,
      exists_false, or_false, List.mem_cons, exists_eq_or_imp]
    constructor
    · rintro (⟨h1, h2⟩ | ⟨v, -, h1, h2⟩)
      · exact ⟨.inl h1, h2⟩
      · exact ⟨.inr h1, h2⟩
    · rintro ⟨h1, h2⟩
      cases hp : magnitude c n k p with
      | error g => exact .inl ⟨(magnitude_eq_error.1 hp).1, h2⟩
      | ok v =>
        refine h1.elim (fun h => .inl ⟨h, h2⟩) (fun h => .inr ⟨v, rfl, h, h2⟩)

/-- Everything steps 2 to 4 can do when they complete (R192). -/
theorem analyse_eq_ok {sp : HalfSpace} {m : Nat} {buf : List Half} {s : State} {mag : List Nat}
    {t : State} : analyse sp m buf s = .ok (mag, t) ↔ ∃ a im b,
      writeHalves .imag 0 (List.replicate (2 ^ m) 0) s = .ok a
      ∧ readHalves .imag 0 (2 ^ m) a = .ok im
      ∧ writeHalves sp 0 (fftApply a.cfg m false (windowed a.cfg buf (2 ^ m)) im).re a = .ok b
      ∧ writeHalves .imag 0 (fftApply a.cfg m false (windowed a.cfg buf (2 ^ m)) im).im b = .ok t
      ∧ magnitudes t.cfg (2 ^ m) (fftApply a.cfg m false (windowed a.cfg buf (2 ^ m)) im)
          = .ok mag := by
  simp only [analyse, except_bind_eq_ok]
  constructor
  · rintro ⟨a, h1, im, h2, b, h3, u, h4, mag', h5, h6⟩
    cases h6
    exact ⟨a, im, b, h1, h2, h3, h4, h5⟩
  · rintro ⟨a, im, b, h1, h2, h3, h4, h5⟩
    exact ⟨a, h1, im, h2, b, h3, t, h4, mag, h5, rfl⟩

/-- The imaginary part of the window read back is all zeros. -/
theorem imag_zeroed {n : Nat} {s a : State} {im : List Half}
    (hw : Mem.wf HalfSpace.imag.unlisted (s.halves .imag))
    (h1 : writeHalves .imag 0 (List.replicate n 0) s = .ok a)
    (h2 : readHalves .imag 0 n a = .ok im) : im = List.replicate n 0 := by
  obtain ⟨-, hl, hi⟩ := readHalves_eq_ok.1 h2
  refine List.ext_getElem? fun i => ?_
  by_cases hn : i < n
  · have := hi i hn
    rw [Nat.zero_add, halfAt_of_writeHalves h1 hw, if_pos (by simp [hn])] at this
    simpa using this.symm
  · rw [List.getElem?_eq_none (by omega), List.getElem?_eq_none (by simp; omega)]

/-- Steps 2 to 4 write `IMAG` and the analysed memory, and nothing else. -/
theorem analyse_frame {sp : HalfSpace} {m : Nat} {buf : List Half} {s t : State} {mag : List Nat}
    (h : analyse sp m buf s = .ok (mag, t)) :
    ∃ x y, t = (s.setHalves sp x).setHalves .imag y := by
  obtain ⟨a, im, b, h1, h2, h3, h4, -⟩ := analyse_eq_ok.1 h
  obtain ⟨-, rfl⟩ := writeHalves_eq_ok.1 h1
  obtain ⟨-, rfl⟩ := writeHalves_eq_ok.1 h3
  obtain ⟨-, rfl⟩ := writeHalves_eq_ok.1 h4
  rcases sp with (_ | _) | _ | _ | _ | _ <;> exact ⟨_, _, rfl⟩

/-- In a good state the analysis of a memory reaches the magnitudes: it stops where they do (R199), and
when every bin has one it completes with the spectrum in place (R191 to R197). -/
theorem analyse_completes {sp : HalfSpace} {m : Nat} {buf : List Half} {s : State} {r : Spectrum}
    (h : s.MemoryInv) (hsp : sp ≠ .imag) (hsz : 2 ^ m ≤ sp.size s.cfg)
    (hi : 2 ^ m ≤ HalfSpace.imag.size s.cfg)
    (hr : fftApply s.cfg m false (windowed s.cfg buf (2 ^ m)) (List.replicate (2 ^ m) 0) = r) :
    ∃ t, analyse sp m buf s = (magnitudes s.cfg (2 ^ m) r).map (fun mag => (mag, t))
      ∧ (∃ x y, t = (s.setHalves sp x).setHalves .imag y)
      ∧ (∀ q a, t.halfAt q a =
          if q = .imag ∧ a < 2 ^ m then r.im[a]?
          else if q = sp ∧ a < 2 ^ m then r.re[a]? else s.halfAt q a)
      ∧ r.re.length = 2 ^ m ∧ r.im.length = 2 ^ m := by
  obtain ⟨l1, l2⟩ := fftApply_length s.cfg m false (windowed s.cfg buf (2 ^ m))
    (List.replicate (2 ^ m) 0)
  rw [hr] at l1 l2
  obtain ⟨a, h1⟩ : ∃ a, writeHalves .imag 0 (List.replicate (2 ^ m) 0) s = .ok a :=
    ⟨_, writeHalves_eq_ok.2 ⟨by simpa using hi, rfl⟩⟩
  have ac : a.cfg = s.cfg := by
    obtain ⟨-, rfl⟩ := writeHalves_eq_ok.1 h1
    simp
  have h2 : readHalves .imag 0 (2 ^ m) a = .ok (List.replicate (2 ^ m) 0) := by
    refine readHalves_eq_ok.2 ⟨by rw [ac]; simpa using hi, by simp, fun i hi => ?_⟩
    rw [halfAt_of_writeHalves h1 (h.half _).1]
    simp [hi]
  rw [← ac] at hr
  obtain ⟨b, h3⟩ : ∃ b, writeHalves sp 0 r.re a = .ok b :=
    ⟨_, writeHalves_eq_ok.2 ⟨by rw [ac, l1]; simpa using hsz, rfl⟩⟩
  have bc : b.cfg = a.cfg := by
    obtain ⟨-, rfl⟩ := writeHalves_eq_ok.1 h3
    simp
  obtain ⟨t, h4⟩ : ∃ t, writeHalves .imag 0 r.im b = .ok t :=
    ⟨_, writeHalves_eq_ok.2 ⟨by rw [bc, ac, l2]; simpa using hi, rfl⟩⟩
  have tc : t.cfg = s.cfg := by
    obtain ⟨-, rfl⟩ := writeHalves_eq_ok.1 h4
    simp [bc, ac]
  have ma := h.writeHalves h1
  have mb := ma.writeHalves h3
  refine ⟨t, ?_, ?_, ?_, l1, l2⟩
  · simp only [analyse, h1, h2, hr, h3, h4, tc, Except.map, bind, Except.bind]
  · obtain ⟨-, rfl⟩ := writeHalves_eq_ok.1 h1
    obtain ⟨-, rfl⟩ := writeHalves_eq_ok.1 h3
    obtain ⟨-, rfl⟩ := writeHalves_eq_ok.1 h4
    rcases sp with (_ | _) | _ | _ | _ | _ <;> exact ⟨_, _, rfl⟩
  · intro q x
    rw [halfAt_of_writeHalves h4 (mb.half _).1, halfAt_of_writeHalves h3 (ma.half _).1,
      halfAt_of_writeHalves h1 (h.half _).1]
    simp only [Nat.zero_le, true_and, Nat.zero_add, l1, l2, Nat.sub_zero, List.length_replicate]
    by_cases hq : q = .imag
    · subst hq
      by_cases hx : x < 2 ^ m <;> simp [hx]
    · simp [hq]

/-- Every magnitude is a u16 (R198). -/
theorem magnitude_lt {c : Config} {n k v : Nat} {p : Point} (h : magnitude c n k p = .ok v) :
    v < 2 ^ 16 := by
  simp only [magnitude] at h
  split at h
  · split at h
    · cases h
    · cases h
      exact BitVec.isLt _
  · cases h
    omega

/-- The energy of a buffer of `n` elements is a u16 (R193). -/
theorem energyOf_lt {buf : List Half} {n : Nat} (h : buf.length = n) (hn : 0 < n) :
    energyOf buf n < 2 ^ 16 := by
  have key : ∀ l : List Half, (l.map (fun v => v.toInt.natAbs)).sum ≤ 32768 * l.length := by
    intro l
    induction l with
    | nil => simp
    | cons v l ih =>
      have a1 := v.toInt_lt
      have a2 := v.le_toInt
      simp only [List.map_cons, List.sum_cons, List.length_cons]
      simp at a1 a2
      omega
  have := key buf
  rw [energyOf, Nat.div_lt_iff_lt_mul hn]
  rw [h] at this
  omega

/-- Everything ANLO can do when it completes (R190). -/
theorem execAnlo_eq_next {s t : State} :
    execAnlo s = .next t ↔ anloOk s.cfg = true ∧ s.mayUseFrame = true ∧ ∃ buf mag u,
      readHalves .lowSnap 0 s.cfg.nLow s = .ok buf
      ∧ analyse .lowSnap s.cfg.mLow buf s = .ok (mag, u)
      ∧ (u.setLowResults (Vector.ofFn (fun b => asU16 (bandMap u.cfg mag b)))
          (asU16 (energyOf buf s.cfg.nLow))).withResult .empty = t := by
  unfold execAnlo
  by_cases h1 : anloOk s.cfg = true
  · by_cases h2 : s.mayUseFrame = true
    · simp [h1, h2, finish_eq_next, except_bind_eq_ok]
    · simp [h1, h2]
  · simp [h1]

/-- Everything ANHI can do when it completes (R215). -/
theorem execAnhi_eq_next {s t : State} :
    execAnhi s = .next t ↔ anhiOk s.cfg = true ∧ s.mayUseFrame = true ∧ ∃ buf mag u,
      readHalves (.high s.active.other) 0 s.cfg.nHigh s = .ok buf
      ∧ analyse (.high s.active.other) s.cfg.mHigh buf s = .ok (mag, u)
      ∧ (u.setHighResults
          (Vector.ofFn (fun k => asU16 (bandExp u.cfg mag (s.cfg.nHigh / 2) k)))
          (asU16 (energyOf buf s.cfg.nHigh)) (asU16 (peak mag).2) (peakIndex u.cfg (peak mag).1)
          (peakHertz u.cfg (peakIndex u.cfg (peak mag).1))).withResult .empty = t := by
  unfold execAnhi
  by_cases h1 : anhiOk s.cfg = true
  · by_cases h2 : s.mayUseFrame = true
    · simp [h1, h2, finish_eq_next, except_bind_eq_ok]
    · simp [h1, h2]
  · simp [h1]

/-- What ANLO leaves alone whenever it completes (R190). -/
theorem execAnlo_frame {s t : State} (h : execAnlo s = .next t) :
    t = { s with lowSnap := t.lowSnap, imag := t.imag, lowBand := t.lowBand,
                 energyLo := t.energyLo, result := .empty } := by
  obtain ⟨-, -, buf, mag, u, h1, h2, rfl⟩ := execAnlo_eq_next.1 h
  obtain ⟨x, y, rfl⟩ := analyse_frame h2
  rfl

/-- What ANHI leaves alone whenever it completes (R215): the active side among it. -/
theorem execAnhi_frame {s t : State} (h : execAnhi s = .next t) :
    t = { s with high0 := t.high0, high1 := t.high1, imag := t.imag, highBand := t.highBand,
                 energy := t.energy, peakMag := t.peakMag, peakIdx := t.peakIdx,
                 peakHz := t.peakHz, result := .empty }
    ∧ t.halves (.high s.active) = s.halves (.high s.active) := by
  have key : ∀ (side : Side) (x y : Mem 16) (bands : Vector Half 26) (e m i z : Half),
      (((s.setHalves (.high side) x).setHalves .imag y).setHighResults bands e m i z).withResult
        .empty = { s with
          high0 := ((s.setHalves (.high side) x).setHalves .imag y).high0
          high1 := ((s.setHalves (.high side) x).setHalves .imag y).high1
          imag := y, highBand := bands, energy := e, peakMag := m, peakIdx := i, peakHz := z
          result := .empty } := by
    rintro (_ | _) x y bands e m i z <;> rfl
  obtain ⟨-, -, buf, mag, u, h1, h2, h3⟩ := execAnhi_eq_next.1 h
  obtain ⟨x, y, rfl⟩ := analyse_frame h2
  generalize (Vector.ofFn _ : Vector Half 26) = bands at h3
  generalize asU16 (energyOf _ _) = e at h3
  generalize peakHertz _ _ = z at h3
  generalize peakIndex _ _ = i at h3
  generalize asU16 (peak mag).2 = m at h3
  clear h h1 h2
  subst h3
  refine ⟨key _ _ _ _ _ _ _ _, ?_⟩
  rw [State.withResult_halves, State.setHighResults_halves, State.setHalves_halves_other,
    State.setHalves_halves_other] <;> simp

end Sys2Proof.Machine
end

