-- ==== Sys2Proof/Laws/Bands.lean ====
section
/-! SUPPORT. What ranges, maxima, boundaries and the peak search compute, said once
(`43_analysis.md`). -/

namespace Sys2Proof.Machine

/-! ## Ranges and maxima -/

/-- The bins of a range, by index. -/
theorem binRange_getElem? (mag : List Nat) (lo hi i : Nat) :
    (binRange mag lo hi)[i]? = if lo + i < hi then mag[lo + i]? else none := by
  rw [binRange, List.getElem?_drop, List.getElem?_take]

/-- The length of a range. -/
@[simp] theorem binRange_length (mag : List Nat) (lo hi : Nat) :
    (binRange mag lo hi).length = min hi mag.length - lo := by
  simp [binRange]

/-- Folding `max` gives a bound of the start and of every element, and is one of them. -/
theorem foldl_max_spec (ms : List Nat) (a : Nat) :
    a ≤ ms.foldl max a ∧ (∀ v ∈ ms, v ≤ ms.foldl max a)
    ∧ (ms.foldl max a = a ∨ ms.foldl max a ∈ ms) := by
  induction ms generalizing a with
  | nil => simp
  | cons m ms ih =>
    obtain ⟨h1, h2, h3⟩ := ih (max a m)
    simp only [List.foldl_cons]
    refine ⟨by omega, ?_, ?_⟩
    · intro v hv
      rcases List.mem_cons.1 hv with rfl | hv
      · omega
      · exact h2 v hv
    · rcases h3 with h3 | h3
      · rcases le_total a m with hm | hm
        · right
          rw [h3, max_eq_right hm]
          exact List.mem_cons_self
        · left
          rw [h3, max_eq_left hm]
      · exact .inr (List.mem_cons_of_mem _ h3)

/-- The maximum of a range bounds every element, and a range that is not empty attains it. -/
theorem maxOf_spec (ms : List Nat) :
    (∀ v ∈ ms, v ≤ maxOf ms) ∧ (ms ≠ [] → maxOf ms ∈ ms) := by
  obtain ⟨-, h2, h3⟩ := foldl_max_spec ms 0
  refine ⟨h2, fun hne => ?_⟩
  rcases h3 with h3 | h3
  · cases ms with
    | nil => exact absurd rfl hne
    | cons m ms =>
      have := h2 m List.mem_cons_self
      have hm : m = 0 := by omega
      rw [maxOf, h3, hm]
      exact List.mem_cons_self
  · exact h3

/-- A range attains its maximum inside it, and no bin of it is larger. -/
theorem maxOf_binRange {mag : List Nat} {lo hi : Nat} (h : lo < hi) (hm : hi ≤ mag.length) :
    (∃ k, lo ≤ k ∧ k < hi ∧ mag[k]? = some (maxOf (binRange mag lo hi)))
    ∧ ∀ k v, lo ≤ k → k < hi → mag[k]? = some v → v ≤ maxOf (binRange mag lo hi) := by
  obtain ⟨h1, h2⟩ := maxOf_spec (binRange mag lo hi)
  refine ⟨?_, ?_⟩
  · have hne : binRange mag lo hi ≠ [] := by
      intro h0
      have := congrArg List.length h0
      simp only [binRange_length, List.length_nil] at this
      omega
    obtain ⟨i, hi⟩ := List.mem_iff_getElem?.1 (h2 hne)
    rw [binRange_getElem?] at hi
    split at hi
    · exact ⟨lo + i, by omega, by omega, hi⟩
    · cases hi
  · intro k v hk1 hk2 hv
    refine h1 v (List.mem_iff_getElem?.2 ⟨k - lo, ?_⟩)
    rw [binRange_getElem?, if_pos (by omega), show lo + (k - lo) = k by omega, hv]

/-- The sum of the first elements. -/
theorem take_sum (mag : List Nat) (n : Nat) :
    (mag.take n).sum = ∑ i ∈ Finset.range n, mag.getD i 0 := by
  induction n with
  | zero => simp
  | succ n ih =>
    rw [Finset.sum_range_succ, ← ih]
    by_cases h : n < mag.length
    · rw [List.take_succ_eq_append_getElem h]
      simp [List.getD_eq_getElem?_getD, h]
    · rw [List.take_of_length_le (by omega), List.take_of_length_le (by omega)]
      simp [List.getD_eq_getElem?_getD, not_lt.1 h]

/-- The sum of a range. -/
theorem binRange_sum (mag : List Nat) {lo hi : Nat} (h : lo ≤ hi) :
    (binRange mag lo hi).sum = ∑ i ∈ Finset.Ico lo hi, mag.getD i 0 := by
  have e : (mag.take hi).sum = (mag.take lo).sum + (binRange mag lo hi).sum := by
    rw [← List.sum_append, binRange]
    congr 1
    conv_lhs => rw [← List.take_append_drop lo (mag.take hi)]
    rw [List.take_take, min_eq_left h]
  rw [take_sum, take_sum] at e
  have := Finset.sum_range_add_sum_Ico (fun i => mag.getD i 0) h
  omega

/-! ## Boundaries -/

/-- A step of the accumulator raises its integer part (R206). -/
theorem expStep_rises {g acc : Nat} (hg : 0x10000 ≤ g) : acc >>> 16 < expStep g acc >>> 16 := by
  simp only [expStep, Nat.shiftRight_eq_div_pow]
  have h : acc ≤ acc * g / 2 ^ 16 := by
    rw [Nat.le_div_iff_mul_le (by norm_num)]
    exact Nat.mul_le_mul_left _ hg
  omega

/-- The boundary sequence from an accumulator, with enough fuel to reach `h` (R207). -/
theorem boundariesFrom_spec {g h : Nat} (hg : 0x10000 ≤ g) : ∀ (fuel acc : Nat),
    acc >>> 16 < h → h ≤ fuel + acc >>> 16 →
    (∀ i < (boundariesFrom g h fuel acc).length,
      (boundariesFrom g h fuel acc)[i]? = some (((expStep g)^[i + 1] acc) >>> 16))
    ∧ (boundariesFrom g h fuel acc).Pairwise (· < ·)
    ∧ (∀ b ∈ boundariesFrom g h fuel acc, acc >>> 16 < b)
    ∧ (boundariesFrom g h fuel acc).head? = some (expStep g acc >>> 16)
    ∧ (∃ b, (boundariesFrom g h fuel acc).getLast? = some b ∧ h ≤ b)
    ∧ ∀ b ∈ (boundariesFrom g h fuel acc).dropLast, b < h := by
  intro fuel
  induction fuel with
  | zero => intro acc h1 h2; omega
  | succ fuel ih =>
    intro acc h1 h2
    have hr := expStep_rises (acc := acc) hg
    rw [boundariesFrom]
    by_cases hb : h ≤ expStep g acc >>> 16
    · simp only [ge_iff_le, hb, if_true]
      refine ⟨?_, List.pairwise_singleton _ _, ?_, rfl, ⟨_, rfl, hb⟩, ?_⟩
      · intro i hi
        have : i = 0 := by simpa using hi
        subst this
        rfl
      · intro b hm
        rw [List.mem_singleton] at hm
        omega
      · intro b hm
        simp at hm
    · simp only [ge_iff_le, hb, if_false]
      obtain ⟨k1, k2, k3, k4, ⟨l, k5, k6⟩, k7⟩ := ih (expStep g acc) (by omega) (by omega)
      have hne : boundariesFrom g h fuel (expStep g acc) ≠ [] := by
        intro h0
        rw [h0] at k5
        simp at k5
      refine ⟨?_, List.pairwise_cons.2 ⟨k3, k2⟩, ?_, rfl, ⟨l, ?_, k6⟩, ?_⟩
      · intro i hi
        cases i with
        | zero => rfl
        | succ i =>
          rw [List.getElem?_cons_succ, k1 i (by simpa using hi)]
          rfl
      · intro b hm
        rcases List.mem_cons.1 hm with rfl | hm
        · exact hr
        · exact lt_trans hr (k3 b hm)
      · rw [List.getLast?_cons, k5]
        rfl
      · intro b hm
        rw [List.dropLast_cons_of_ne_nil hne] at hm
        rcases List.mem_cons.1 hm with rfl | hm
        · omega
        · exact k7 b hm

/-! ## The peak -/

/-- What the search keeps: the first largest of what it has seen (R220). -/
theorem peakFrom_spec {mag : List Nat} : ∀ (vs : List Nat) (k idx best : Nat),
    mag.drop k = vs → 1 ≤ idx → idx < k → k ≤ mag.length → mag[idx]? = some best →
    (∀ j v, 1 ≤ j → j < k → mag[j]? = some v → v ≤ best) →
    (∀ j v, 1 ≤ j → j < idx → mag[j]? = some v → v < best) →
    1 ≤ (peakFrom k idx best vs).1 ∧ (peakFrom k idx best vs).1 < mag.length
    ∧ mag[(peakFrom k idx best vs).1]? = some (peakFrom k idx best vs).2
    ∧ (∀ j v, 1 ≤ j → mag[j]? = some v → v ≤ (peakFrom k idx best vs).2)
    ∧ ∀ j v, 1 ≤ j → j < (peakFrom k idx best vs).1 → mag[j]? = some v →
        v < (peakFrom k idx best vs).2 := by
  intro vs
  induction vs with
  | nil =>
    intro k idx best hd h1 h2 h3 h4 h5 h6
    have hl : mag.length ≤ k := List.drop_eq_nil_iff.1 hd
    refine ⟨h1, by rw [peakFrom]; omega, h4, fun j v hj hv => ?_, h6⟩
    refine h5 j v hj ?_ hv
    have := (List.getElem?_eq_some_iff.1 hv).1
    omega
  | cons u us ih =>
    intro k idx best hd h1 h2 h3 h4 h5 h6
    have hk : mag[k]? = some u := by
      have := congrArg (fun l => l[0]?) hd
      simpa using this
    have hkl : k < mag.length := (List.getElem?_eq_some_iff.1 hk).1
    have hd' : mag.drop (k + 1) = us := by
      have := congrArg List.tail hd
      simpa using this
    rw [peakFrom]
    by_cases hu : u > best
    · rw [if_pos hu]
      refine ih (k + 1) k u hd' (by omega) (by omega) (by omega) hk ?_ ?_
      · intro j v hj hjk hv
        rcases Nat.lt_or_ge j k with hlt | hge
        · exact le_trans (h5 j v hj hlt hv) (by omega)
        · have : j = k := by omega
          subst this
          rw [hk] at hv
          cases hv
          exact le_rfl
      · intro j v hj hjk hv
        exact lt_of_le_of_lt (h5 j v hj hjk hv) hu
    · rw [if_neg hu]
      refine ih (k + 1) idx best hd' h1 (by omega) (by omega) h4 ?_ h6
      intro j v hj hjk hv
      rcases Nat.lt_or_ge j k with hlt | hge
      · exact h5 j v hj hlt hv
      · have : j = k := by omega
        subst this
        rw [hk] at hv
        cases hv
        omega

end Sys2Proof.Machine
end

