-- ==== Sys2Proof/Laws/Capture.lean ====
section
/-! SUPPORT. What SAMPLE and its steps can do, said once (`42_capture.md`). -/

namespace Sys2Proof.Machine

/-- The ranges that a well-formed configuration gives the capture arithmetic (`00_scope.md` R9). -/
theorem configOk_capture {c : Config} (h : configOk c = true) :
    0 < c.sampleRate ∧ 2 ≤ c.mHigh ∧ 2 ≤ c.mLow ∧ 1 ≤ c.rawBits ∧ c.rawBits ≤ 15 ∧ 1 ≤ c.k
    ∧ c.k * (2 ^ c.rawBits - 1) < 2 ^ 32 ∧ c.dcFrac ≤ 16 ∧ c.dcShift ≤ 31 ∧ 1 ≤ c.fsqrtFrac
    ∧ c.fsqrtFrac ≤ 15 ∧ c.magShift ≤ 31 ∧ 2 ≤ c.logPeriod ∧ c.sineTable.length = c.period
    ∧ 0x10000 < c.expGrowth ∧ c.expGrowth < 0x20000 ∧ c.nHigh ≤ c.fftMax ∧ c.nLow ≤ c.fftMax := by
  simp only [configOk, Bool.and_eq_true, decide_eq_true_eq] at h
  obtain ⟨⟨⟨⟨⟨⟨⟨⟨⟨⟨⟨⟨⟨⟨⟨⟨⟨⟨⟨h1, h2⟩, h3⟩, h4⟩, h5⟩, h6⟩, h7⟩, h8⟩, h9⟩, -⟩, h10⟩, h11⟩, h12⟩, h13⟩, h14⟩, h15⟩,
    h16⟩, h17⟩, h18⟩, -⟩ := h
  exact ⟨h1, h2, h3, h4, h5, h6, h7, h8, h9, h10, h11, h12, h13, h14, h15, h16, h17, h18⟩

theorem nHigh_pos (c : Config) : 0 < c.nHigh := Nat.pow_pos (by norm_num)

theorem nLow_pos (c : Config) : 0 < c.nLow := Nat.pow_pos (by norm_num)

/-- A raw reading is at most 32767. -/
theorem rawMax_lt {c : Config} (h : configOk c = true) : rawMax c ≤ 32767 := by
  have hr := (configOk_capture h).2.2.2.2.1
  have : 2 ^ c.rawBits ≤ 2 ^ 15 := Nat.pow_le_pow_right (by norm_num) hr
  unfold rawMax
  omega

/-- Legal readings are at most `2^RAW_BITS - 1`. -/
theorem sampleLegal_iff {c : Config} {raw : Half} {an : Analog} :
    sampleLegal c raw an = true ↔ raw.toNat ≤ rawMax c ∧ ∀ v ∈ an.toList, v.toNat ≤ rawMax c := by
  have h : 0 < 2 ^ c.rawBits := Nat.pow_pos (by norm_num)
  have hlt : ∀ v : Half, v.toNat < 2 ^ c.rawBits ↔ v.toNat ≤ rawMax c := fun v => by
    unfold rawMax; omega
  simp only [sampleLegal, List.all_cons, Bool.and_eq_true, decide_eq_true_eq, List.all_eq_true, hlt]

/-! ## Step 1 -/

/-- The average moves toward the reading and does not pass it (`42_capture.md` R163). -/
theorem dcUpdate_between (c : Config) (avg : Int) (raw : Nat) :
    min avg (raw * 2 ^ c.dcFrac) ≤ dcUpdate c avg raw
    ∧ dcUpdate c avg raw ≤ max avg (raw * 2 ^ c.dcFrac) := by
  have hp : (0 : Int) < 2 ^ c.dcShift := by positivity
  simp only [dcUpdate, Int.shiftRight_eq_div_pow]
  push_cast
  generalize hd : (raw : Int) * 2 ^ c.dcFrac - avg = d
  have hs : (raw : Int) * 2 ^ c.dcFrac = avg + d := by omega
  rw [hs]
  rcases le_or_gt 0 d with h | h
  · have h1 : 0 ≤ d / 2 ^ c.dcShift := Int.ediv_nonneg h hp.le
    have h2 : d / 2 ^ c.dcShift ≤ d := Int.ediv_le_self _ h
    omega
  · have h1 : d / 2 ^ c.dcShift < 0 := Int.ediv_neg_of_neg_of_pos h hp
    have h2 : d ≤ d / 2 ^ c.dcShift := by
      rw [Int.le_ediv_iff_mul_le hp]
      nlinarith [one_le_pow₀ (M₀ := Int) (a := 2) (n := c.dcShift) (by norm_num)]
    omega

/-- The largest scaled reading fits the s32 of `AVG`. -/
theorem scaledMax_lt {c : Config} (h : configOk c = true) :
    (rawMax c : Int) * 2 ^ c.dcFrac < 2 ^ 31 := by
  have h1 := rawMax_lt h
  have h2 : (2 : Nat) ^ c.dcFrac ≤ 2 ^ 16 :=
    Nat.pow_le_pow_right (by norm_num) (configOk_capture h).2.2.2.2.2.2.2.1
  have h3 : rawMax c * 2 ^ c.dcFrac ≤ 32767 * 2 ^ 16 := Nat.mul_le_mul h1 h2
  have h4 : ((rawMax c * 2 ^ c.dcFrac : Nat) : Int) ≤ ((32767 * 2 ^ 16 : Nat) : Int) := by
    exact_mod_cast h3
  push_cast at h4
  omega

/-- After step 1 `AVG` is the updated average, inside the range of R36. -/
theorem sampleAverage_avg {s : State} {raw : Half} (hc : configOk s.cfg = true)
    (h0 : 0 ≤ s.avg.toInt) (h1 : s.avg.toInt ≤ rawMax s.cfg * 2 ^ s.cfg.dcFrac)
    (hr : raw.toNat ≤ rawMax s.cfg) :
    (sampleAverage raw s).avg.toInt = dcUpdate s.cfg s.avg.toInt raw.toNat
    ∧ 0 ≤ (sampleAverage raw s).avg.toInt
    ∧ (sampleAverage raw s).avg.toInt ≤ rawMax s.cfg * 2 ^ s.cfg.dcFrac := by
  have hb := dcUpdate_between s.cfg s.avg.toInt raw.toNat
  have hM := scaledMax_lt hc
  have hs : (raw.toNat : Int) * 2 ^ s.cfg.dcFrac ≤ rawMax s.cfg * 2 ^ s.cfg.dcFrac :=
    mul_le_mul_of_nonneg_right (by exact_mod_cast hr) (by positivity)
  have hp : (0 : Int) ≤ raw.toNat * 2 ^ s.cfg.dcFrac := by positivity
  have he : (sampleAverage raw s).avg.toInt = dcUpdate s.cfg s.avg.toInt raw.toNat := by
    simp only [sampleAverage, State.setAvg_avg, BitVec.toInt_ofInt]
    exact Int.bmod_eq_of_le (by norm_num; omega) (by norm_num; omega)
  rw [he]
  exact ⟨rfl, by omega, by omega⟩

/-- `dc` of an average in range is a possible raw reading. -/
theorem dc_range {s : State} (h0 : 0 ≤ s.avg.toInt)
    (h1 : s.avg.toInt ≤ rawMax s.cfg * 2 ^ s.cfg.dcFrac) : 0 ≤ s.dc ∧ s.dc ≤ rawMax s.cfg := by
  have hp : (0 : Int) < 2 ^ s.cfg.dcFrac := by positivity
  simp only [State.dc, Int.shiftRight_eq_div_pow]
  push_cast
  exact ⟨Int.ediv_nonneg h0 hp.le, Int.ediv_le_of_le_mul hp h1⟩

/-! ## Steps 2 to 4 -/

/-- Everything step 2 can do (R164). -/
theorem sampleDecimate_eq_ok {raw : Half} {s t : State} :
    sampleDecimate raw s = .ok t ↔
      (s.decCnt + 1 = s.cfg.k ∧ ∃ r,
        writeHalves .ring s.head
          [asS16 ((((s.decAcc.toNat + raw.toNat) / s.cfg.k : Nat) : Int) - s.dc)] s = .ok r
        ∧ r.setDecimation 0 0 ((s.head + 1) % s.cfg.nLow) = t)
      ∨ (s.decCnt + 1 ≠ s.cfg.k
        ∧ s.setDecimation (BitVec.ofNat 32 (s.decAcc.toNat + raw.toNat)) (s.decCnt + 1) s.head
          = t) := by
  unfold sampleDecimate
  by_cases h : s.decCnt + 1 = s.cfg.k
  · simp [h, except_bind_eq_ok]
  · simp [h]

/-- Everything step 3 can do (R165). -/
theorem sampleStore_eq_ok {raw : Half} {s t : State} :
    sampleStore raw s = .ok t ↔ ∃ r,
      writeHalves (.high s.active) s.writePos [asS16 (raw.toNat - s.dc)] s = .ok r
      ∧ r.setWritePos (s.writePos + 1) = t := by
  simp [sampleStore, except_bind_eq_ok]

/-- Everything step 4 can do (R167). -/
theorem sampleFlip_eq_ok {an : Analog} {s t : State} :
    sampleFlip an s = .ok t ↔
      (s.writePos = s.cfg.nHigh ∧ ∃ snap a b, ringFromHead s = .ok snap
        ∧ writeHalves .lowSnap 0 snap s = .ok a
        ∧ writeHalves .analogSnap 0 an.toList a = .ok b
        ∧ (b.setWritePos 0).setHandOff s.active.other true false = t)
      ∨ (s.writePos ≠ s.cfg.nHigh ∧ s = t) := by
  unfold sampleFlip
  by_cases h : s.writePos = s.cfg.nHigh
  · simp only [h, if_true, except_bind_eq_ok, true_and, ne_eq, not_true, false_and, or_false]
    constructor
    · rintro ⟨snap, h1, a, h2, b, h3, h4⟩
      have ha : a.active = s.active := by
        obtain ⟨-, rfl⟩ := writeHalves_eq_ok.1 h2; simp
      have hb : b.active = a.active := by
        obtain ⟨-, rfl⟩ := writeHalves_eq_ok.1 h3; simp
      rw [hb, ha] at h4
      exact ⟨snap, a, b, h1, h2, h3, by simpa using h4⟩
    · rintro ⟨snap, a, b, h1, h2, h3, h4⟩
      have ha : a.active = s.active := by
        obtain ⟨-, rfl⟩ := writeHalves_eq_ok.1 h2; simp
      have hb : b.active = a.active := by
        obtain ⟨-, rfl⟩ := writeHalves_eq_ok.1 h3; simp
      exact ⟨snap, h1, a, h2, b, h3, by rw [hb, ha, h4]⟩
  · simp [h]

/-- The snapshot of the ring: element `i` is `RING[(HEAD + i) mod N_LOW]` (`20_memory.md` R82). -/
theorem ringFromHead_eq_ok {s : State} {snap : List Half} (hh : s.head < s.cfg.nLow)
    (h : ringFromHead s = .ok snap) : snap.length = s.cfg.nLow ∧
      ∀ i < s.cfg.nLow, snap[i]? = s.halfAt .ring ((s.head + i) % s.cfg.nLow) := by
  simp only [ringFromHead, except_bind_eq_ok] at h
  obtain ⟨all, h1, h2⟩ := h
  obtain ⟨-, hl, hi⟩ := readHalves_eq_ok.1 h1
  rw [Nat.mod_eq_of_lt hh] at h2
  have h2 : all.drop s.head ++ all.take s.head = snap := by simpa using h2
  subst h2
  refine ⟨by simp; omega, fun i hin => ?_⟩
  by_cases hlt : s.head + i < s.cfg.nLow
  · rw [Nat.mod_eq_of_lt hlt, List.getElem?_append_left (by simp; omega), List.getElem?_drop]
    have := hi (s.head + i) hlt
    rw [Nat.zero_add] at this
    exact this.symm
  · have hm : (s.head + i) % s.cfg.nLow = s.head + i - s.cfg.nLow := by
      rw [Nat.mod_eq_sub_mod (by omega), Nat.mod_eq_of_lt (by omega)]
    rw [hm, List.getElem?_append_right (by simp; omega), List.getElem?_take,
      if_pos (by simp; omega), List.length_drop, hl]
    have := hi (s.head + i - s.cfg.nLow) (by omega)
    rw [Nat.zero_add] at this
    rw [this]
    congr 1
    omega

/-- The ring is always readable. -/
theorem ringFromHead_completes (s : State) : ∃ snap, ringFromHead s = .ok snap := by
  obtain ⟨vs, hvs⟩ := readHalves_of_range (sp := .ring) (base := 0) (n := s.cfg.nLow) (s := s)
    (by simp [HalfSpace.size]) (by decide)
  exact ⟨_, by simp only [ringFromHead, hvs]; rfl⟩

/-- Everything SAMPLE can do when it completes: its four steps in order (R161). -/
theorem execSample_eq_next {raw : Half} {an : Analog} {s t : State} :
    execSample raw an s = .next t ↔ sampleLegal s.cfg raw an = true ∧ ∃ a b c,
      sampleDecimate raw (sampleAverage raw s) = .ok a ∧ sampleStore raw a = .ok b
      ∧ sampleFlip an b = .ok c ∧ c.withResult .empty = t := by
  unfold execSample
  by_cases h : sampleLegal s.cfg raw an = true
  · simp [h, finish_eq_next, except_bind_eq_ok]
  · simp [h]

/-- In a good state SAMPLE of a legal reading completes (R161). -/
theorem execSample_completes {raw : Half} {an : Analog} {s : State} (h : s.Inv)
    (hl : sampleLegal s.cfg raw an = true) : ∃ t, execSample raw an s = .next t := by
  obtain ⟨-, -, ⟨hpos, hhead, -⟩, -⟩ := h
  have h1 : ∃ a, sampleDecimate raw (sampleAverage raw s) = .ok a ∧ a.cfg = s.cfg
      ∧ a.writePos = s.writePos := by
    by_cases hk : s.decCnt + 1 = s.cfg.k
    · refine ⟨_, sampleDecimate_eq_ok.2 (.inl ⟨hk, _, writeHalves_eq_ok.2 ⟨?_, rfl⟩, rfl⟩), ?_, ?_⟩
      · simp [HalfSpace.size, sampleAverage]
        omega
      · simp [sampleAverage]
      · simp [sampleAverage]
    · exact ⟨_, sampleDecimate_eq_ok.2 (.inr ⟨hk, rfl⟩), rfl, rfl⟩
  obtain ⟨a, h1, ac, aw⟩ := h1
  have h2 : ∃ b, sampleStore raw a = .ok b := by
    refine ⟨_, sampleStore_eq_ok.2 ⟨_, writeHalves_eq_ok.2 ⟨?_, rfl⟩, rfl⟩⟩
    simp [HalfSpace.size, ac, aw]
    omega
  obtain ⟨b, h2⟩ := h2
  have h3 : ∃ c, sampleFlip an b = .ok c := by
    by_cases hp : b.writePos = b.cfg.nHigh
    · obtain ⟨snap, hs⟩ := ringFromHead_completes b
      have hlen : snap.length ≤ b.cfg.nLow := by
        simp only [ringFromHead, except_bind_eq_ok] at hs
        obtain ⟨all, h1, h2⟩ := hs
        obtain ⟨-, hl, -⟩ := readHalves_eq_ok.1 h1
        cases h2
        simp
        omega
      exact ⟨_, sampleFlip_eq_ok.2 (.inl ⟨hp, snap, _, _, hs,
        writeHalves_eq_ok.2 ⟨by simpa [HalfSpace.size] using hlen, rfl⟩,
        writeHalves_eq_ok.2 ⟨by simp [HalfSpace.size, nAnalog, Analog.toList], rfl⟩, rfl⟩)⟩
    · exact ⟨_, sampleFlip_eq_ok.2 (.inr ⟨hp, rfl⟩)⟩
  obtain ⟨c, h3⟩ := h3
  exact ⟨_, execSample_eq_next.2 ⟨hl, a, b, c, h1, h2, h3, rfl⟩⟩

/-! ## What the steps leave alone -/

/-- Step 2 writes the ring and the decimation registers (R164). -/
theorem sampleDecimate_frame {raw : Half} {s t : State} (h : sampleDecimate raw s = .ok t) :
    t = { s with ring := t.ring, decAcc := t.decAcc, decCnt := t.decCnt, head := t.head } := by
  rcases sampleDecimate_eq_ok.1 h with ⟨-, r, h1, rfl⟩ | ⟨-, rfl⟩
  · obtain ⟨-, rfl⟩ := writeHalves_eq_ok.1 h1
    rfl
  · rfl

/-- Step 3 writes the active side and `WRITE_POS` (R165). -/
theorem sampleStore_frame {raw : Half} {s t : State} (h : sampleStore raw s = .ok t) :
    t = { s with high0 := t.high0, high1 := t.high1, writePos := s.writePos + 1 }
    ∧ t.halves (.high s.active.other) = s.halves (.high s.active.other) := by
  obtain ⟨r, h1, rfl⟩ := sampleStore_eq_ok.1 h
  obtain ⟨-, rfl⟩ := writeHalves_eq_ok.1 h1
  have key : ∀ (side : Side) (m : Mem 16) (p : Nat), (s.setHalves (.high side) m).setWritePos p =
      { s with high0 := ((s.setHalves (.high side) m).setWritePos p).high0,
               high1 := ((s.setHalves (.high side) m).setWritePos p).high1, writePos := p } := by
    rintro (_ | _) m p <;> rfl
  refine ⟨key _ _ _, ?_⟩
  rw [State.setWritePos_halves, State.setHalves_halves_other]
  simp

/-- Step 4 writes the snapshots and the hand-off registers (R167). -/
theorem sampleFlip_frame {an : Analog} {s t : State} (h : sampleFlip an s = .ok t) :
    t = { s with lowSnap := t.lowSnap, analogSnap := t.analogSnap, writePos := t.writePos,
                 active := t.active, frameReady := t.frameReady, own := t.own } := by
  rcases sampleFlip_eq_ok.1 h with ⟨-, snap, a, b, -, h2, h3, rfl⟩ | ⟨-, rfl⟩
  · obtain ⟨-, rfl⟩ := writeHalves_eq_ok.1 h2
    obtain ⟨-, rfl⟩ := writeHalves_eq_ok.1 h3
    rfl
  · rfl

/-- What SAMPLE leaves alone whenever it completes (R161). -/
theorem execSample_frame {raw : Half} {an : Analog} {s t : State}
    (h : execSample raw an s = .next t) :
    t = { s with avg := t.avg, decAcc := t.decAcc, decCnt := t.decCnt, head := t.head,
                 writePos := t.writePos, active := t.active, ring := t.ring, high0 := t.high0,
                 high1 := t.high1, lowSnap := t.lowSnap, analogSnap := t.analogSnap,
                 frameReady := t.frameReady, own := t.own, result := .empty }
    ∧ t.halves (.high s.active.other) = s.halves (.high s.active.other) := by
  obtain ⟨-, a, b, c, h1, h2, h3, rfl⟩ := execSample_eq_next.1 h
  have e1 := sampleDecimate_frame h1
  obtain ⟨e2, k2⟩ := sampleStore_frame h2
  have e3 := sampleFlip_frame h3
  have ha : a.active = s.active := by rw [e1]; rfl
  refine ⟨?_, ?_⟩
  · rw [e3, e2, e1]
    rfl
  · have hc : ∀ side, (c.withResult .empty).halves (.high side) = b.halves (.high side) := by
      intro side
      rw [e3]
      cases side <;> rfl
    have hb : ∀ side, a.halves (.high side) = s.halves (.high side) := by
      intro side
      rw [e1]
      cases side <;> rfl
    rw [hc, ← ha, k2, hb]

end Sys2Proof.Machine
end

