-- ==== Sys2Proof/Laws/Decode.lean ====
section
/-! SUPPORT. The operand record and the operation map, read and written (`30_encoding.md`). -/

namespace Sys2Proof

/-- The map read after it was written (R93). -/
@[simp] theorem Op.ofWord_word (o : Op) : Op.ofWord o.word = some o := by cases o <;> rfl

/-- Two rows have two words (R93). -/
theorem Op.word_injective : Function.Injective Op.word := fun a b h => by
  have := congrArg Op.ofWord h
  simpa using this

/-- Only the words of the map are read (R95). -/
theorem Op.word_of_ofWord : ∀ (w : Byte) (o : Op), Op.ofWord w = some o → o.word = w := by
  decide +kernel

/-- The port field of a row's word is its port (R90, R93). -/
@[simp] theorem Op.portField_word (o : Op) : portField o.word = o.port.number := by
  cases o <;> rfl

/-- Two ports have two numbers (R90). -/
theorem Port.number_injective : Function.Injective Port.number := by
  intro a b h
  cases a <;> cases b <;> first | rfl | (exfalso; revert h; decide)

@[simp] theorem recordBytes_length (n v : Nat) : (recordBytes n v).length = n := by
  induction n generalizing v with
  | zero => rfl
  | succ n ih => simp [recordBytes, ih]

/-- A number that fits `n` bytes is read back from them. -/
theorem recordNat_recordBytes {n v : Nat} (h : v < 256 ^ n) : recordNat (recordBytes n v) = v := by
  induction n generalizing v with
  | zero =>
    rw [pow_zero] at h
    simp [recordBytes, recordNat]
    omega
  | succ n ih =>
    rw [pow_succ] at h
    simp only [recordBytes, recordNat, BitVec.toNat_ofNat]
    rw [ih (by omega)]
    norm_num
    omega

/-- A record of `n` bytes is a number below `256^n`. -/
theorem recordNat_lt (bs : List Byte) : recordNat bs < 256 ^ bs.length := by
  induction bs with
  | nil => simp [recordNat]
  | cons b bs ih =>
    have := b.isLt
    simp only [recordNat, List.length_cons, pow_succ]
    omega

/-- The bytes of a record are read back from its number. -/
theorem recordBytes_recordNat (bs : List Byte) : recordBytes bs.length (recordNat bs) = bs := by
  induction bs with
  | nil => rfl
  | cons b bs ih =>
    have hb := b.isLt
    have h1 : (b.toNat + 256 * recordNat bs) / 256 = recordNat bs := by omega
    have h2 : BitVec.ofNat 8 (b.toNat + 256 * recordNat bs) = b := by
      apply BitVec.eq_of_toNat_eq
      simp only [BitVec.toNat_ofNat]
      omega
    simp only [List.length_cons, recordNat, recordBytes, h1, h2, ih]

/-- A request of a row's shape is decoded by its operand format (R94 to R97). -/
theorem decode_eq {r : Request} {o : Op} (hw : Op.ofWord r.word = some o)
    (hp : portField r.word = r.port.number) (hl : r.operand.length = o.format.bytes)
    (ha : o = .fft ∨ r.re = [] ∧ r.im = []) :
    decode r = decodeOperands o (recordNat r.operand) r.re r.im := by
  have h3 : (o != .fft && !(r.re.isEmpty && r.im.isEmpty)) = false := by
    rcases ha with rfl | ⟨h1, h2⟩
    · rfl
    · simp [h1, h2]
  rw [decode, hw]
  simp only [hp, hl, h3, bne_self_eq_false, Bool.false_eq_true, if_false]

/-- A request that decodes has the shape of a row (R94 to R97). -/
theorem decode_ok {r : Request} {i : Instr} (h : decode r = .ok i) : ∃ o,
    Op.ofWord r.word = some o ∧ portField r.word = r.port.number
    ∧ r.operand.length = o.format.bytes ∧ (o = .fft ∨ r.re = [] ∧ r.im = [])
    ∧ decodeOperands o (recordNat r.operand) r.re r.im = .ok i := by
  rw [decode] at h
  split at h
  · cases h
  · rename_i o ho
    refine ⟨o, ho, ?_⟩
    split at h
    · cases h
    · rename_i h1
      split at h
      · cases h
      · rename_i h2
        split at h
        · cases h
        · rename_i h3
          refine ⟨by simpa using h1, by simpa using h2, ?_, h⟩
          by_cases hf : o = .fft
          · exact .inl hf
          · simp only [bne_iff_ne.2 hf, Bool.true_and, Bool.not_eq_true', Bool.not_eq_false,
              Bool.and_eq_true, List.isEmpty_iff] at h3
            exact .inr h3

/-- A field as a number: `operand[lo + w - 1 : lo]` (R12). -/
@[simp] theorem recordField_toNat (v lo w : Nat) :
    (recordField v lo w).toNat = v / 2 ^ lo % 2 ^ w := by
  simp [recordField]

end Sys2Proof
end

