-- ==== Sys2Proof/Laws/Frame.lean ====
section
/-! SUPPORT. The layout of the frame: the bytes of a list of 16-bit fields, and the accelerometer bytes
read as axes and written back (`44_frame.md` R231, `20_memory.md` R65, R66). -/

namespace Sys2Proof.Machine

@[simp] theorem halfBytes_length (o : ByteOrder) (v : Half) : (halfBytes o v).length = 2 := by
  cases o <;> rfl

@[simp] theorem put16s_length (o : ByteOrder) (vs : List Half) :
    (put16s o vs).length = 2 * vs.length := by
  induction vs with
  | nil => rfl
  | cons v vs ih =>
    simp only [put16s, List.flatMap_cons, List.length_append, halfBytes_length,
      List.length_cons] at *
    omega

/-- Field `k` of a list of fields stands at offset `2 k` (R231). -/
theorem put16s_field {o : ByteOrder} {vs : List Half} {k : Nat} {v : Half} (rest : List Byte)
    (h : vs[k]? = some v) : ((put16s o vs ++ rest).drop (2 * k)).take 2 = halfBytes o v := by
  induction vs generalizing k with
  | nil => simp at h
  | cons u vs ih =>
    cases k with
    | zero =>
      simp only [List.getElem?_cons_zero, Option.some.injEq] at h
      subst h
      simp only [put16s, List.flatMap_cons, List.append_assoc, Nat.mul_zero, List.drop_zero]
      rw [List.take_append_of_le_length (by simp), List.take_of_length_le (by simp)]
    | succ k =>
      simp only [put16s, List.flatMap_cons, List.append_assoc]
      rw [show 2 * (k + 1) = (halfBytes o u).length + 2 * k by rw [halfBytes_length]; ring,
        List.drop_length_add_append]
      exact ih (by simpa using h)

/-- Two bytes read as a value and written back are the same bytes (R65). -/
theorem halfBytes_halfOfBytes (o : ByteOrder) (x y : Byte) :
    halfBytes o (halfOfBytes o x y) = [x, y] := by
  have e1 : ∀ a b : Byte, BitVec.extractLsb' 0 8 (a ++ b : BitVec (8 + 8)) = b := fun a b =>
    BitVec.extractLsb'_append_eq_right
  have e2 : ∀ a b : Byte, BitVec.extractLsb' 8 8 (a ++ b : BitVec (8 + 8)) = a := fun a b =>
    BitVec.extractLsb'_append_eq_left
  cases o
  · show [BitVec.extractLsb' 0 8 (y ++ x : BitVec (8 + 8)),
      BitVec.extractLsb' 8 8 (y ++ x : BitVec (8 + 8))] = _
    rw [e1, e2]
  · show [BitVec.extractLsb' 8 8 (x ++ y : BitVec (8 + 8)),
      BitVec.extractLsb' 0 8 (x ++ y : BitVec (8 + 8))] = _
    rw [e1, e2]

/-- The frame holds the six accelerometer bytes as `ACCEL` holds them (R66). -/
theorem put16s_axes (o : ByteOrder) (a0 a1 a2 a3 a4 a5 : Byte) :
    put16s o (axes o [a0, a1, a2, a3, a4, a5]) = [a0, a1, a2, a3, a4, a5] := by
  simp only [axes, put16s, List.flatMap_cons, List.flatMap_nil, halfBytes_halfOfBytes]
  rfl

end Sys2Proof.Machine
end

