-- ==== Sys2Proof/Laws/PerInstr.lean ====
section
/-! SUPPORT. A statement made for every operation, one lemma per constructor: the request the encoder
writes has the shape its row of the operation map asks for (`30_encoding.md` R90, R91, R93). -/

namespace Sys2Proof.Laws.Shape

/-- The encoded request arrives on the port of its word, its word is that of its row, its operand record
has the length of its format, the operand fits the record, and only FFT carries arrays. -/
def Statement (i : Instr) : Prop :=
  Op.ofWord (encode i).word = some i.op
  ∧ portField (encode i).word = (encode i).port.number
  ∧ (encode i).operand.length = i.op.format.bytes
  ∧ operandNat i < 256 ^ i.op.format.bytes
  ∧ (i.op = .fft ∨ (encode i).re = [] ∧ (encode i).im = [])

/-- What an operand has to fit is all that differs between the rows. -/
theorem of_fits {i : Instr} (h : operandNat i < 256 ^ i.op.format.bytes)
    (ha : i.op = .fft ∨ arrayRe i = [] ∧ arrayIm i = []) : Statement i := by
  refine ⟨?_, ?_, ?_, h, ha⟩
  · show Op.ofWord i.op.word = some i.op
    exact Op.ofWord_word _
  · show portField i.op.word = i.op.port.number
    exact Op.portField_word _
  · show (recordBytes i.op.format.bytes (operandNat i)).length = i.op.format.bytes
    exact recordBytes_length _ _

theorem isqrt (x : Word) : Statement (.isqrt x) :=
  of_fits x.isLt (.inr ⟨rfl, rfl⟩)

theorem fsqrt (x : Word) : Statement (.fsqrt x) :=
  of_fits x.isLt (.inr ⟨rfl, rfl⟩)

theorem fft (m : BitVec 5) (inv : Bool) (re im : List Half) : Statement (.fft m inv re im) := by
  refine of_fits ?_ (.inl rfl)
  have := m.isLt
  simp only [operandNat, Instr.op, Op.format, Format.bytes]
  split <;> omega

theorem sample (raw : Half) (an : Analog) : Statement (.sample raw an) := by
  refine of_fits ?_ (.inr ⟨rfl, rfl⟩)
  have := raw.isLt
  have := an.an0.isLt
  have := an.an1.isLt
  have := an.an2.isLt
  have := an.an3.isLt
  have := an.an4.isLt
  have := an.an5.isLt
  simp only [operandNat, Instr.op, Op.format, Format.bytes]
  omega

theorem take : Statement .take :=
  of_fits (by decide) (.inr ⟨rfl, rfl⟩)

theorem anlo : Statement .anlo :=
  of_fits (by decide) (.inr ⟨rfl, rfl⟩)

theorem anhi : Statement .anhi :=
  of_fits (by decide) (.inr ⟨rfl, rfl⟩)

theorem encode : Statement .encode :=
  of_fits (by decide) (.inr ⟨rfl, rfl⟩)

theorem poll : Statement .poll :=
  of_fits (by decide) (.inr ⟨rfl, rfl⟩)

theorem reinit : Statement .reinit :=
  of_fits (by decide) (.inr ⟨rfl, rfl⟩)

theorem rdmode : Statement .rdmode :=
  of_fits (by decide) (.inr ⟨rfl, rfl⟩)

theorem busirq (b : BitVec 6) : Statement (.busirq b) := by
  refine of_fits ?_ (.inr ⟨rfl, rfl⟩)
  have := b.isLt
  simp only [operandNat, Instr.op, Op.format, Format.bytes]
  omega

theorem dmawr (b : Byte) : Statement (.dmawr b) :=
  of_fits b.isLt (.inr ⟨rfl, rfl⟩)

theorem dmadone : Statement .dmadone :=
  of_fits (by decide) (.inr ⟨rfl, rfl⟩)

end Sys2Proof.Laws.Shape
end

