-- ==== Sys2Proof/Laws/Sqrt.lean ====
section
/-! SUPPORT. What the bit-by-bit search computes, and what ISQRT and FSQRT can do, said once
(`40_sqrt.md`). -/

namespace Sys2Proof.Machine

/-- The search narrows the interval in which the root lies down to one integer (R121, R130). -/
theorem rootByBits_spec {x : Nat} : ∀ (n bit res : Nat), bit = 2 ^ n / 2 → 2 ^ n ∣ res →
    res * res ≤ x → x < (res + 2 ^ n) * (res + 2 ^ n) →
    rootByBits x n bit res * rootByBits x n bit res ≤ x
    ∧ x < (rootByBits x n bit res + 1) * (rootByBits x n bit res + 1) := by
  intro n
  induction n with
  | zero => intro bit res _ _ h1 h2; exact ⟨h1, by simpa [rootByBits] using h2⟩
  | succ n ih =>
    intro bit res hb hd h1 h2
    have hbit : bit = 2 ^ n := by rw [hb, pow_succ]; omega
    have hor : res ||| bit = res + 2 ^ n := by
      obtain ⟨q, rfl⟩ := hd
      rw [hbit, Nat.two_pow_add_eq_or_of_lt (Nat.pow_lt_pow_right (by norm_num) (by omega))]
    have hsh : bit >>> 1 = 2 ^ n / 2 := by rw [hbit, Nat.shiftRight_eq_div_pow, pow_one]
    have hd' : 2 ^ n ∣ res := dvd_trans (pow_dvd_pow 2 (by omega)) hd
    simp only [rootByBits, hor]
    by_cases hc : (res + 2 ^ n) * (res + 2 ^ n) ≤ x
    · rw [if_pos hc]
      refine ih _ _ hsh (dvd_add hd' (dvd_refl _)) hc ?_
      calc x < (res + 2 ^ (n + 1)) * (res + 2 ^ (n + 1)) := h2
        _ = (res + 2 ^ n + 2 ^ n) * (res + 2 ^ n + 2 ^ n) := by rw [pow_succ]; ring
    · rw [if_neg hc]
      exact ih _ _ hsh hd' h1 (by omega)

/-- Below `4^n`, the search from bit `2^(n-1)` and result 0 gives the floor of the root. -/
theorem rootByBits_zero {x n : Nat} (h : x < 2 ^ n * 2 ^ n) :
    rootByBits x n (2 ^ n / 2) 0 * rootByBits x n (2 ^ n / 2) 0 ≤ x
    ∧ x < (rootByBits x n (2 ^ n / 2) 0 + 1) * (rootByBits x n (2 ^ n / 2) 0 + 1) :=
  rootByBits_spec n _ 0 rfl (Nat.dvd_zero _) (by simp) (by simpa using h)

/-- The search of FSQRT gives the floor of the root of `x * 4^F` (R125). -/
theorem fixedSqrt_floor {c : Config} (hF : c.fsqrtFrac ≤ 15) {x : Nat} (h : x ≤ 2 ^ 31) :
    ∃ r, r * r ≤ x * 4 ^ c.fsqrtFrac ∧ x * 4 ^ c.fsqrtFrac < (r + 1) * (r + 1)
      ∧ (c.fsqrtRound = .floor → fixedSqrt c x = r)
      ∧ (c.fsqrtRound = .nearest →
          fixedSqrt c x = if x * 4 ^ c.fsqrtFrac - r * r > r then r + 1 else r) := by
  have hp : 4 ^ c.fsqrtFrac ≤ 4 ^ 15 := Nat.pow_le_pow_right (by norm_num) hF
  have ht : x * 4 ^ c.fsqrtFrac < 2 ^ 31 * 2 ^ 31 := by
    calc x * 4 ^ c.fsqrtFrac ≤ 2 ^ 31 * 4 ^ 15 := Nat.mul_le_mul h hp
      _ < 2 ^ 31 * 2 ^ 31 := by norm_num
  obtain ⟨h1, h2⟩ := rootByBits_zero ht
  refine ⟨_, h1, h2, fun hr => ?_, fun hr => ?_⟩
  · simp only [fixedSqrt, hr]
    rfl
  · simp only [fixedSqrt, hr]
    rfl

/-- Two floors of the same root are the same number. -/
theorem root_unique {x a b : Nat} (ha : a * a ≤ x) (ha' : x < (a + 1) * (a + 1)) (hb : b * b ≤ x)
    (hb' : x < (b + 1) * (b + 1)) : a = b := by
  have h1 : a < b + 1 := Nat.mul_self_lt_mul_self_iff.1 (by omega)
  have h2 : b < a + 1 := Nat.mul_self_lt_mul_self_iff.1 (by omega)
  omega

/-- Everything FSQRT can do (R125, R128). -/
theorem execFsqrt_eq (x : Word) (s : State) : execFsqrt x s =
    if x.toInt < 0 then
      (match s.cfg.undefinedAs with
        | .fault => .fault .fsqrtDomain
        | .run => .next (s.withResult (.fsqrt (s.cfg.fsqrtOfNegative x))))
    else .next (s.withResult (.fsqrt (BitVec.ofNat 32 (fixedSqrt s.cfg x.toNat)))) := by
  unfold execFsqrt fixedSqrtOp
  by_cases h : x.toInt < 0
  · cases s.cfg.undefinedAs <;> simp [h, finish, bind, Except.bind]
  · simp [h, finish, bind, Except.bind]

end Sys2Proof.Machine
end

