-- ==== Sys2Proof/Laws/Transaction.lean ====
section
/-! SUPPORT. What the transaction operations and ENCODE leave alone, said once (`45_transaction.md`,
`44_frame.md`). -/

namespace Sys2Proof.Machine

/-- What `s` becomes when only transaction registers, the command stream and the result record
change. -/
abbrev OnlyBus (s t : State) : Prop :=
  t = { s with mode := t.mode, irqen := t.irqen, dmaCnt := t.dmaCnt, dmaTcif := t.dmaTcif,
               commands := t.commands, result := t.result }

theorem OnlyBus.violation (s : State) : OnlyBus s s.violation := rfl

theorem OnlyBus.ackAll (b : BitVec 6) (s : State) : OnlyBus s (ackAll b s) := by
  unfold Machine.ackAll
  split <;> rfl

theorem OnlyBus.trans {s t u : State} (h1 : OnlyBus s t) (h2 : OnlyBus t u) : OnlyBus s u := by
  unfold OnlyBus at *
  rw [h2, h1]

/-- Everything BUSIRQ can change (`60_exceptions.md` R317). -/
theorem execBusirq_frame {b : BitVec 6} {s t : State} (h : execBusirq b s = .next t) :
    OnlyBus s t := by
  have hd : ∀ u, done u = .next t → OnlyBus s u → OnlyBus s t := by
    intro u hu hs
    cases hu
    exact hs.trans rfl
  unfold execBusirq at h
  split at h
  · exact hd _ h rfl
  · split at h
    · exact hd _ h rfl
    · split at h
      · exact hd _ h rfl
      · split at h
        · exact hd _ h rfl
        · split at h
          · exact hd _ h (OnlyBus.ackAll b s)
          · exact hd _ h ((OnlyBus.ackAll b s).trans (OnlyBus.violation _))

/-- BUSIRQ always completes. -/
theorem execBusirq_completes (b : BitVec 6) (s : State) : ∃ t, execBusirq b s = .next t := by
  unfold execBusirq done
  repeat' split
  all_goals exact ⟨_, rfl⟩

/-- Everything POLL, REINIT and DMADONE can change. -/
theorem execPoll_frame {s t : State} (h : execPoll s = .next t) : OnlyBus s t := by
  unfold execPoll at h
  split at h <;> cases h <;> rfl

theorem execReinit_frame {s t : State} (h : execReinit s = .next t) : OnlyBus s t := by
  unfold execReinit at h
  split at h <;> cases h <;> rfl

theorem execDmadone_frame {s t : State} (h : execDmadone s = .next t) : OnlyBus s t := by
  unfold execDmadone at h
  repeat' split at h
  all_goals cases h; rfl

/-- Everything DMAWR can do when it completes (R270). -/
theorem execDmawr_eq_next {b : Byte} {s t : State} :
    execDmawr b s = .next t ↔
      (s.dmaCnt = 0 ∧ s.withResult .empty = t)
      ∨ (s.dmaCnt ≠ 0 ∧ s.dmaCnt.toNat ≤ accBytes ∧ ∃ u,
          writeBytes .accel (accBytes - s.dmaCnt.toNat) [b] s = .ok u
          ∧ (u.setDma (s.dmaCnt - 1) (s.dmaTcif || s.dmaCnt - 1 == 0)).withResult .empty = t) := by
  unfold execDmawr
  by_cases h : s.dmaCnt = 0
  · simp [h, done]
  · by_cases hc : s.dmaCnt.toNat ≤ accBytes
    · simp only [h, if_false, depositByte, hc, if_true, finish_eq_next, except_bind_eq_ok, false_and,
        false_or, ne_eq, not_false_eq_true, true_and]
      constructor
      · rintro ⟨a, ⟨u, h1, h2⟩, h3⟩
        obtain ⟨-, rfl⟩ := writeBytes_eq_ok.1 h1
        cases h2
        cases h3
        exact ⟨_, h1, rfl⟩
      · rintro ⟨u, h1, h2⟩
        refine ⟨_, ⟨u, h1, rfl⟩, ?_⟩
        obtain ⟨-, rfl⟩ := writeBytes_eq_ok.1 h1
        rw [← h2]
        rfl
    · simp only [h, if_false, depositByte, hc, false_and, and_false, or_self, iff_false]
      intro hh
      cases hh

/-- Everything ENCODE can do when it completes (`44_frame.md` R231). -/
theorem execEncode_eq_next {s t : State} :
    execEncode s = .next t ↔ s.mayUseFrame = true ∧ ∃ accel analog u sent,
      readBytes .accel 0 accBytes s = .ok accel ∧ readHalves .analogSnap 0 nAnalog s = .ok analog
      ∧ writeBytes .frameBuf 0 (frameBytes s accel analog) s = .ok u
      ∧ readBytes .frameBuf 0 frameLen u = .ok sent
      ∧ (u.emit (.transportSend sent)).withResult .empty = t := by
  unfold execEncode
  by_cases h : s.mayUseFrame = true
  · simp [h, finish_eq_next, except_bind_eq_ok]
  · simp [h]

/-- What DMAWR leaves alone whenever it completes (R270). -/
theorem execDmawr_frame {b : Byte} {s t : State} (h : execDmawr b s = .next t) :
    t = { s with accel := t.accel, dmaCnt := t.dmaCnt, dmaTcif := t.dmaTcif, result := .empty } := by
  rcases execDmawr_eq_next.1 h with ⟨-, rfl⟩ | ⟨-, -, u, h1, rfl⟩
  · rfl
  · obtain ⟨-, rfl⟩ := writeBytes_eq_ok.1 h1
    rfl

/-- What ENCODE leaves alone whenever it completes (`44_frame.md` R231). -/
theorem execEncode_frame {s t : State} (h : execEncode s = .next t) : ∃ sent,
    t = { s with frameBuf := t.frameBuf, commands := s.commands ++ [.transportSend sent],
                 result := .empty } := by
  obtain ⟨-, ac, an, u, sent, h1, h2, h3, h4, rfl⟩ := execEncode_eq_next.1 h
  obtain ⟨-, rfl⟩ := writeBytes_eq_ok.1 h3
  exact ⟨sent, rfl⟩

end Sys2Proof.Machine
end

