-- ==== Sys2Proof/Tests/Slice0.lean ====
section
/-! SUPPORT. Tests on fixed values. Expected values are those of `spec/95_test_vectors.md` (its section
number stands at each test) or worked by hand from the rule named; none is the model's own answer. -/

namespace Sys2Proof.Machine

set_option Elab.async false

/-! ## Helpers -/

/-- A small well-formed configuration: period 64, `N_HIGH` = 64, `N_LOW` = 16, `K` = 2. -/
def small : Config :=
  { Config.default with
    mHigh := 6, mLow := 4, k := 2, magShift := 2, logPeriod := 6
    sineTable := (List.range 64).map (fun i => sineDefault.getD (16 * i) 0)
    lowBandMap := [1, 2, 3, 4, 5, 7], expGrowth := 66596 }

/-- A capture-only configuration (`00_scope.md` R10): sides and ring of 4, `DC_SHIFT` = 0. -/
def tiny : Config :=
  { Config.default with
    mHigh := 2, mLow := 2, k := 2, dcShift := 0, logPeriod := 2
    sineTable := [0, 32767, 0, -32767] }

/-- The state an operation leads to. -/
def nextOf : Answer → Option State
  | .next t => some t
  | .fault _ => none
  | .refused _ => none

/-- The fault an operation ends in. -/
def faultOf : Answer → Option Fault
  | .fault f => some f
  | .next _ => none
  | .refused _ => none

/-- The refusal an operation ends in. -/
def refusalOf : Answer → Option Refusal
  | .refused r => some r
  | .next _ => none
  | .fault _ => none

/-- What a field is after one operation. -/
def getAfter {α : Type} (f : State → α) (i : Instr) (s : State) : Option α := (nextOf (exec i s)).map f

/-- The result record of one operation. -/
def resultOf (i : Instr) (s : State) : Option Result := getAfter (fun t => t.result) i s

/-- The transaction registers and the command stream, in the order of the rows of 2.6. -/
structure BusView where
  mode : Mode
  irqen : BitVec 4
  dmaCnt : BitVec 3
  dmaTcif : Bool
  commands : List Command
  deriving DecidableEq, Repr

/-- The same after one operation. -/
def busAfter (i : Instr) (s : State) : Option BusView :=
  getAfter (fun t => ⟨t.mode, t.irqen, t.dmaCnt, t.dmaTcif, t.commands⟩) i s

/-- A state in the middle of a transaction. -/
def bus (m : Mode) (e : BitVec 4) (n : BitVec 3) (f : Bool) : State :=
  (State.reset.setBus m e).setDma n f

/-- A state of the small configuration that owns a frame. -/
def owned : State := { State.resetWith small with own := true }

/-- The small configuration with an external transform that states one value for each length the analysis
uses: zeros go to -32768 in both parts of bin 0 and zeros elsewhere. -/
def overflowing : Config :=
  let row (m : Nat) : FftRow :=
    { m := m, inv := false, re := List.replicate (2 ^ m) 0, im := List.replicate (2 ^ m) 0
      outRe := -32768 :: List.replicate (2 ^ m - 1) 0
      outIm := -32768 :: List.replicate (2 ^ m - 1) 0, scale := 0 }
  { small with transform := .external 64 [row 4, row 6] }

/-- A state of that configuration that owns a frame. -/
def ownedOverflowing : State := { State.resetWith overflowing with own := true }

/-- A reset state with one request presented. -/
def asked (r : Request) : State := State.reset.setInbox [.request r]

/-! ## Well-formedness: an ill-formed term for each check -/

theorem test_encodable_refuses_short_array : (Instr.fft 1 false [0, 0] [0]).encodable = false := by
  decide

theorem test_fftLegal_refuses_m0 : fftLegal small 0 [0] [0] = false := by decide

theorem test_fftLegal_refuses_longer_than_period :
    fftLegal tiny 3 [0, 0, 0, 0, 0, 0, 0, 0] [0, 0, 0, 0, 0, 0, 0, 0] = false := by decide

theorem test_sampleLegal_refuses_bit12 :
    sampleLegal small 4096 ⟨0, 0, 0, 0, 0, 0⟩ = false
    ∧ sampleLegal small 0 ⟨0, 0, 0, 0, 0, 4096⟩ = false := by decide

theorem test_wellFormed_refuses :
    (Instr.sample 4096 ⟨0, 0, 0, 0, 0, 0⟩).wellFormed small = false
    ∧ (Instr.fft 0 false [0] [0]).wellFormed small = false := by decide

theorem test_configOk_accepts :
    configOk Config.default = true ∧ anloOk Config.default = true ∧ anhiOk Config.default = true := by
  decide +kernel

theorem test_small_accepted :
    configOk small = true ∧ anloOk small = true ∧ anhiOk small = true ∧ configOk tiny = true := by
  decide +kernel

theorem test_configOk_refuses :
    configOk { tiny with k := 0 } = false ∧ configOk { tiny with rawBits := 16 } = false
    ∧ configOk { tiny with expGrowth := 0x10000 } = false
    ∧ configOk { tiny with windowShift := 32 } = false ∧ configOk { tiny with accAutoinc := 3 } = false
    ∧ configOk { tiny with sineTable := [0] } = false ∧ configOk { tiny with mHigh := 3 } = false := by
  decide +kernel

theorem test_anloOk_refuses :
    anloOk { small with lowBandMap := [1, 2, 3, 5, 5, 7] } = false
    ∧ anloOk { small with lowBandMap := [1, 2, 3, 4, 5, 8] } = false := by decide +kernel

/-- 2.4: 0x18000 gives 11 boundaries for half-length 128. -/
theorem test_anhiOk_refuses :
    anhiOk { Config.default with expGrowth := 0x18000 } = false := by decide +kernel

/-- R9 bounds neither `WINDOW_SHIFT` from below nor `SAMPLE_RATE` from above: ANLO and ANHI run, the window
at shift 14 is 4095 * 32767 / 2^14 = 8189, and bin 31 of 64 at 131073 Hz is 63488. -/
theorem test_wide_configurations_run :
    getAfter (fun t => t.energyLo) .anlo { owned with cfg := { small with windowShift := 14 } } = some 0
    ∧ windowElement { small with windowShift := 14 } 16 8 4095 = 8189
    ∧ getAfter (fun t => t.peakIdx) .anhi { owned with cfg := { small with sampleRate := 131073 } }
        = some 1
    ∧ peakHertz { small with sampleRate := 131073 } 31 = 63488 := by decide +kernel

/-! ## Decoding: words written out from `30_encoding.md` R91 and R93 -/

theorem test_decode_isqrt : decode ⟨.au, 0x00, [0x11, 0, 0, 0], [], []⟩ = .ok (.isqrt 17) := by
  decide

theorem test_decode_isqrt_high_byte :
    decode ⟨.au, 0x00, [0x00, 0x00, 0xFE, 0xFF], [], []⟩ = .ok (.isqrt 0xFFFE0000) := by decide

theorem test_decode_fsqrt :
    decode ⟨.au, 0x01, [0x0A, 0, 0, 0x80], [], []⟩ = .ok (.fsqrt 0x8000000A) := by decide

theorem test_decode_fft :
    decode ⟨.au, 0x02, [0x01, 0x01], [1, 2], [3, 4]⟩ = .ok (.fft 1 true [1, 2] [3, 4])
    ∧ decode ⟨.au, 0x02, [0x01, 0x00], [1, 2], [3, 4]⟩ = .ok (.fft 1 false [1, 2] [3, 4]) := by
  decide

theorem test_decode_sample :
    decode ⟨.cap, 0x10, [0xFF, 0x0F, 1, 0, 2, 0, 3, 0, 4, 0, 5, 0, 0, 0x08], [], []⟩
      = .ok (.sample 4095 ⟨1, 2, 3, 4, 5, 2048⟩) := by decide

theorem test_decode_main_loop :
    decode ⟨.ml, 0x20, [], [], []⟩ = .ok .take ∧ decode ⟨.ml, 0x21, [], [], []⟩ = .ok .anlo
    ∧ decode ⟨.ml, 0x22, [], [], []⟩ = .ok .anhi ∧ decode ⟨.ml, 0x23, [], [], []⟩ = .ok .encode
    ∧ decode ⟨.ml, 0x24, [], [], []⟩ = .ok .poll ∧ decode ⟨.ml, 0x25, [], [], []⟩ = .ok .reinit
    ∧ decode ⟨.ml, 0x26, [], [], []⟩ = .ok .rdmode := by decide

theorem test_decode_bus : decode ⟨.bus, 0x30, [0x3F], [], []⟩ = .ok (.busirq 0x3F) := by decide

theorem test_decode_dma :
    decode ⟨.dma, 0x40, [0x80], [], []⟩ = .ok (.dmawr 0x80)
    ∧ decode ⟨.dma, 0x41, [], [], []⟩ = .ok .dmadone := by decide

theorem test_decode_refuses :
    decode ⟨.bus, 0x30, [0x40], [], []⟩ = .error .reservedBit
    ∧ decode ⟨.bus, 0x30, [], [], []⟩ = .error .operandLength
    ∧ decode ⟨.cap, 0x00, [0, 0, 0, 0], [], []⟩ = .error .wrongPort
    ∧ decode ⟨.ml, 0x27, [], [], []⟩ = .error .unassignedWord
    ∧ decode ⟨.au, 0x02, [0x21, 0], [1, 2], [3, 4]⟩ = .error .reservedBit
    ∧ decode ⟨.au, 0x02, [0x01, 0x02], [1, 2], [3, 4]⟩ = .error .reservedBit
    ∧ decode ⟨.au, 0x02, [0x02, 0], [1, 2], [3, 4]⟩ = .error .arrayLength
    ∧ decode ⟨.ml, 0x20, [], [1], []⟩ = .error .arrayLength := by decide

theorem test_table_words :
    decodeTableWord 40 0x1100 = some (.isqrt 17) ∧ decodeTableWord 16 0x2830 = some (.busirq 0x28)
    ∧ decodeTableWord 8 0x26 = some .rdmode ∧ decodeTableWord 8 0x27 = none
    ∧ decodeTableWord 24 0x000102 = some (.fft 1 false [0, 0] [0, 0]) := by decide

/-! ## Arithmetic unit -/

/-- 2.1 -/
theorem test_isqrt :
    resultOf (.isqrt 17) (State.resetWith tiny) = some (.isqrt 4)
    ∧ resultOf (.isqrt 0xFFFE0000) (State.resetWith tiny) = some (.isqrt 65534) := by decide +kernel

/-- 2.2 -/
theorem test_fsqrt :
    resultOf (.fsqrt 10) (State.resetWith tiny) = some (.fsqrt 809)
    ∧ resultOf (.fsqrt 10) (State.resetWith { tiny with fsqrtRound := .nearest })
        = some (.fsqrt 810) := by decide +kernel

/-- 2.2 -/
theorem test_fsqrt_negative :
    faultOf (exec (.fsqrt (-1)) (State.resetWith tiny)) = some .fsqrtDomain := by decide +kernel

/-- Section 3: a forward transform of a constant. -/
theorem test_fft_forward :
    resultOf (.fft 2 false [1000, 1000, 1000, 1000] [0, 0, 0, 0]) (State.resetWith tiny)
      = some (.fft [1000, 0, 0, 0] [0, 0, 0, 0] 0) := by decide +kernel

/-! ## Capture -/

/-- 2.3: `SAMPLE 4095` with `AVG` = 0, `DC_SHIFT` = 4. -/
theorem test_sample_first :
    getAfter (fun t => (t.avg, t.dc, t.halfAt (.high .side0) 0, t.writePos))
      (.sample 4095 ⟨0, 0, 0, 0, 0, 0⟩) (State.resetWith { tiny with dcShift := 4 })
      = some (65520, 255, some 3840, 1) := by decide +kernel

/-- 2.3: the arithmetic shift of a negative difference. -/
theorem test_sample_negative_difference :
    getAfter (fun t => (t.avg, t.dc, t.halfAt (.high .side0) 0))
      (.sample 3 ⟨0, 0, 0, 0, 0, 0⟩) ((State.resetWith { tiny with dcShift := 4 }).setAvg 1000)
      = some (985, 3, some 0) := by decide +kernel

/-- 2.3: the second of two samples, `K` = 2: `RING[0]` is -2. -/
theorem test_sample_decimates :
    getAfter (fun t => (t.halfAt .ring 0, t.head, t.decCnt))
      (.sample 104 ⟨0, 0, 0, 0, 0, 0⟩) ((State.resetWith tiny).setDecimation 100 1 0)
      = some (some (-2), 1, 0) := by decide +kernel

/-- 2.3 -/
theorem test_take :
    getAfter (fun t => (t.result, t.frameReady, t.own)) .take
      ((State.resetWith tiny).setHandOff .side1 true false)
      = some (.take true .side0, false, true)
    ∧ getAfter (fun t => (t.result, t.frameReady, t.own)) .take (State.resetWith tiny)
      = some (.take false .side1, false, false) := by decide +kernel

/-! ## Analysis -/

/-- 2.4: the whole ANLO of a tone at bin 4. -/
theorem test_anlo_tone :
    (writeHalves .lowSnap 0 [0, 1000, 0, -1000, 0, 1000, 0, -1000, 0, 1000, 0, -1000, 0, 1000, 0, -1000]
        owned).toOption.bind (getAfter (fun t => (t.energyLo, t.lowBand.toList)) .anlo)
      = some (500, [384, 1280, 6656, 20416, 6656, 1280]) := by decide +kernel

/-- 2.4: the same, what is left in `IMAG`. -/
theorem test_anlo_leaves_spectrum :
    (writeHalves .lowSnap 0 [0, 1000, 0, -1000, 0, 1000, 0, -1000, 0, 1000, 0, -1000, 0, 1000, 0, -1000]
        owned).toOption.bind (getAfter (fun t => (t.halfAt .imag 3, t.halfAt .imag 4, t.lowSnap)) .anlo)
      = some (some 104, some (-319), []) := by decide +kernel

/-- Zeros on the ready side (by hand, R193, R209, R220): no energy, no bands, the peak at bin 1, and
`PEAK_HZ` = 20000 / 64 = 312. -/
theorem test_anhi_zeros :
    getAfter (fun t => (t.energy, t.highBand.toList, t.peakIdx, t.peakMag, t.peakHz)) .anhi owned
      = some (0, List.replicate 26 0, 1, 0, 312) := by decide +kernel

/-- 2.4: bands of `MAG[i] = i`, and the tie of the peak. -/
theorem test_bands_and_peak :
    (List.range 26).map (bandExp Config.default (List.range 128) 128)
      = [0, 1, 2, 3, 5, 7, 8, 11, 13, 16, 19, 22, 26, 30, 35, 40, 46, 53, 60, 68, 77, 87, 99, 112,
         126, 127]
    ∧ peak [100, 5, 7, 7] = (2, 7) := by decide +kernel

/-! ## Frame -/

/-- 2.5: `LOWBAND[0]`, little and big, at offsets 5 and 6; and one analog field of 12 bits. -/
theorem test_encode_fields :
    getAfter (fun t => (t.byteAt .frameBuf 0, t.byteAt .frameBuf 5, t.byteAt .frameBuf 6,
        t.byteAt .frameBuf 95)) .encode
      (owned.setLowResults #v[0x1234, 0, 0, 0, 0, 0] 0)
      = some (some 0x53, some 0x34, some 0x12, some 0x44)
    ∧ put16s .big [0x1234, analogField small 0x0ABC] = [0x12, 0x34, 0xAB, 0xC0] := by decide +kernel

/-- 2.5 -/
theorem test_encode_after_reset :
    faultOf (exec .encode (State.resetWith tiny)) = some .frameNotOwned := by decide +kernel

/-! ## Transaction: rows of 2.6 -/

theorem test_poll :
    busAfter .poll (bus .idle 0xC 0 false)
      = some ⟨.starting, 0xD, 0, false, [.busStartWrite 0x19 1]⟩
    ∧ busAfter .poll (bus .stopping 0xC 0 false)
      = some ⟨.needsReset, 0xC, 0, false, [.busStop]⟩ := by decide +kernel

theorem test_reinit :
    busAfter .reinit State.reset = some ⟨.idle, 0xC, 0, false, [.deviceInit]⟩
    ∧ busAfter .reinit (bus .sendingRegister 0xE 0 false)
      = some ⟨.needsReset, 0xC, 0, false, [.busStop]⟩ := by decide +kernel

theorem test_rdmode : resultOf .rdmode State.reset = some (.rdmode 5) := by decide +kernel

theorem test_busirq_progress :
    busAfter (.busirq 0x03) (bus .starting 0xD 0 false)
      = some ⟨.sendingRegister, 0xE, 0, false, [.busSendByte 0xA8]⟩
    ∧ busAfter (.busirq 0x02) (bus .sendingRegister 0xE 0 false)
      = some ⟨.reading, 0xC, 6, false, [.busStartRead 0x19 6]⟩
    ∧ busAfter (.busirq 0x07) (bus .stopping 0xC 0 false)
      = some ⟨.idle, 0xC, 0, false, [.irqAck 0x04]⟩ := by decide +kernel

theorem test_busirq_errors :
    busAfter (.busirq 0x11) (bus .starting 0xD 0 false)
      = some ⟨.needsReset, 0xC, 0, false, [.irqAck 0x10, .busStop]⟩
    ∧ busAfter (.busirq 0x02) (bus .reading 0xC 6 false)
      = some ⟨.needsReset, 0xC, 0, false, [.irqAck 0x02, .busStop]⟩
    ∧ busAfter (.busirq 0x00) (bus .reading 0xC 6 false)
      = some ⟨.needsReset, 0xC, 0, false, [.busStop]⟩
    ∧ busAfter (.busirq 0x04) State.reset
      = some ⟨.needsReset, 0, 0, false, [.irqAck 0x04]⟩ := by decide +kernel

theorem test_dmawr :
    getAfter (fun t => (t.byteAt .accel 0, t.dmaCnt, t.dmaTcif)) (.dmawr 0x10) (bus .reading 0xC 6 false)
      = some (some 0x10, 5, false)
    ∧ getAfter (fun t => (t.byteAt .accel 5, t.dmaCnt, t.dmaTcif)) (.dmawr 0x7F)
        (bus .reading 0xC 1 false) = some (some 0x7F, 0, true) := by decide +kernel

theorem test_dmadone :
    busAfter .dmadone (bus .reading 0xC 0 true) = some ⟨.stopping, 0xC, 0, false, [.busStop]⟩
    ∧ busAfter .dmadone (bus .reading 0xC 5 false) = some ⟨.reading, 0xC, 5, false, []⟩ := by
  decide +kernel

/-! ## The step -/

theorem test_step_runs_request :
    (nextOf (step (State.reset.withFetchWord 40 0x1100))).map (fun t => (t.result, t.inbox))
      = some (.isqrt 4, []) := by decide +kernel

theorem test_step_refuses :
    refusalOf (step (asked ⟨.ml, 0x27, [], [], []⟩)) = some (.illegalRequest .unassignedWord)
    ∧ refusalOf (step (asked ⟨.au, 0x02, [0, 0], [0], [0]⟩)) = some (.illegalRequest .fftLength)
    ∧ refusalOf (step (State.resetWith { tiny with k := 0 })) = some .illFormedConfig := by
  decide +kernel

/-! ## Witnesses: a concrete state and operands for the hypotheses of each obligation -/

/-- Two ways to say that an operation completed. -/
theorem exists_next {r : Answer} (h : (nextOf r).isSome = true) : ∃ t, r = .next t := by
  cases r with
  | next t => exact ⟨t, rfl⟩
  | fault f => cases h
  | refused f => cases h

/-- No memory lists anything. -/
def nothingListed (s : State) : Bool :=
  s.high0.isEmpty && s.high1.isEmpty && s.ring.isEmpty && s.lowSnap.isEmpty && s.imag.isEmpty
    && s.analogSnap.isEmpty && s.accel.isEmpty && s.frameBuf.isEmpty

/-- A state with nothing listed is good when its registers are. -/
theorem inv_of {s : State} (h1 : configOk s.cfg = true) (h2 : s.BusInv) (h3 : s.CaptureInv)
    (h4 : nothingListed s = true) : s.Inv := by
  simp only [nothingListed, Bool.and_eq_true, List.isEmpty_iff] at h4
  obtain ⟨⟨⟨⟨⟨⟨⟨m1, m2⟩, m3⟩, m4⟩, m5⟩, m6⟩, m7⟩, m8⟩ := h4
  refine ⟨h1, h2, h3, (State.resetWith_memoryInv s.cfg).of_same rfl ?_ ?_⟩
  · rintro ((_ | _) | _ | _ | _ | _) <;> assumption
  · rintro (_ | _) <;> assumption

/-- The small machine right after reset is good. -/
theorem tiny_inv : (State.resetWith tiny).Inv :=
  inv_of (by decide +kernel) (by decide) (by decide +kernel) (by decide)

/-- So is the small machine that owns a frame. -/
theorem owned_inv : owned.Inv :=
  inv_of (by decide +kernel) (by decide) (by decide +kernel) (by decide)

/-- So is every state of a transaction that meets R47. -/
theorem bus_inv {m : Mode} {e : BitVec 4} {n : BitVec 3} {f : Bool} (h : (bus m e n f).BusInv) :
    (bus m e n f).Inv :=
  inv_of (show configOk Config.default = true by decide +kernel) h
    (show State.reset.CaptureInv by decide +kernel) (show nothingListed State.reset = true by decide)

/-- The readings of a silent input at the middle of the range, and of the largest one. -/
def quiet : Analog := ⟨0, 0, 0, 0, 0, 0⟩
def loud : Analog := ⟨4095, 4095, 4095, 4095, 4095, 4095⟩

theorem test_meets_DecodeInvertsEncode :
    (Instr.fft 1 true [1, 2] [3, 4]).encodable = true
    ∧ (Instr.sample 0xFFFF ⟨1, 2, 3, 4, 5, 0xFFFF⟩).encodable = true
    ∧ (Instr.busirq 0x3F).encodable = true := by decide

theorem test_meets_EncodeInvertsDecode :
    decode ⟨.au, 0x02, [0x01, 0x01], [1, 2], [3, 4]⟩ = .ok (.fft 1 true [1, 2] [3, 4])
    ∧ decode ⟨.bus, 0x30, [0x3F], [], []⟩ = .ok (.busirq 0x3F) := by decide

/-- Each range of R95 at both its ends. -/
theorem test_meets_UnassignedWordRefused :
    ∀ w ∈ [0x03, 0x0F, 0x11, 0x1F, 0x27, 0x2F, 0x31, 0x3F, 0x42, 0x4F, 0x50, 0xFF],
      ∃ s : State, configOk s.cfg = true
        ∧ s.inbox = .request ⟨.ml, BitVec.ofNat 8 w, [], [], []⟩ :: []
        ∧ refusalOf (step s) = some (.illegalRequest .unassignedWord) := by
  intro w hw
  refine ⟨(State.resetWith tiny).setInbox [.request ⟨.ml, BitVec.ofNat 8 w, [], [], []⟩],
    tiny_inv.1, rfl, ?_⟩
  revert w
  decide +kernel

theorem test_meets_WrongPortRefused :
    ∃ (s : State) (r : Request), configOk s.cfg = true ∧ s.inbox = .request r :: []
      ∧ portField r.word ≠ r.port.number :=
  ⟨(State.resetWith tiny).setInbox [.request ⟨.cap, 0x00, [0, 0, 0, 0], [], []⟩], _,
    by decide +kernel, rfl, by decide⟩

/-- BUSIRQ and FFT at their lowest reserved bit, SAMPLE at the first reading too large, FFT at both
ends. -/
theorem test_meets_ReservedOperandsRefused :
    (∃ s : State, configOk s.cfg = true ∧ s.inbox = [.request ⟨.bus, 0x30, [0x40], [], []⟩])
    ∧ (∃ s : State, configOk s.cfg = true ∧ s.inbox = [.request ⟨.au, 0x02, [0x20, 0], [], []⟩])
    ∧ (∃ v ∈ (4096 : Half) :: quiet.toList, 2 ^ tiny.rawBits ≤ v.toNat)
    ∧ tiny.fftMax < 2 ^ (3 : BitVec 5).toNat ∧ 2 ^ (2 : BitVec 5).toNat = tiny.fftMax :=
  ⟨⟨(State.resetWith tiny).setInbox _, by decide +kernel, rfl⟩,
    ⟨(State.resetWith tiny).setInbox _, by decide +kernel, rfl⟩,
    ⟨4096, by decide, by decide⟩, by decide, by decide⟩

theorem test_meets_StepRunsDecodedOperation :
    ∃ (s : State) (r : Request), configOk s.cfg = true ∧ s.inbox = .request r :: []
      ∧ decode r = .ok .rdmode :=
  ⟨(State.resetWith tiny).setInbox [.request ⟨.ml, 0x26, [], [], []⟩], _, by decide +kernel, rfl,
    by decide⟩

/-- The counter at its last value, and nothing presented. -/
theorem test_meets_StepWithoutRequest :
    ∃ s : State, configOk s.cfg = true ∧ s.inbox = [.tick] ∧ s.msTick = 2 ^ s.cfg.msTickBits - 1
      ∧ (nextOf (step s)).map (fun t => t.msTick) = some 0
      ∧ (nextOf (step (State.resetWith tiny))).map (fun t => t.inbox) = some [] :=
  ⟨{ State.resetWith tiny with inbox := [.tick], msTick := 4294967295 }, by decide +kernel, rfl, rfl,
    by decide +kernel, by decide +kernel⟩

theorem test_meets_IllFormedConfigurationRefused :
    configOk { tiny with k := 0 } = false ∧ anloOk tiny = false ∧ anhiOk tiny = false := by
  decide +kernel

theorem test_meets_OperationsKeepOutside : ∃ t, exec .take State.reset = .next t := ⟨_, rfl⟩

/-- The smallest negative operand, 0, and the largest operand. -/
theorem test_meets_FsqrtIsRoundedRoot :
    configOk tiny = true ∧ tiny.undefinedAs = .fault ∧ (0x80000000 : Word).toInt < 0
    ∧ 0 ≤ (0 : Word).toInt ∧ 0 ≤ (0x7FFFFFFF : Word).toInt
    ∧ resultOf (.fsqrt 0x7FFFFFFF) (State.resetWith tiny) = some (.fsqrt 11863283) := by
  decide +kernel

theorem test_meets_FsqrtOfNegativeRuns :
    ∃ s : State, s.cfg.undefinedAs = .run ∧ (0x80000000 : Word).toInt < 0 :=
  ⟨State.resetWith { tiny with undefinedAs := .run }, rfl, by decide⟩

theorem test_meets_FixedSqrtMonotoneAndExact :
    tiny.fsqrtFrac ≤ 15 ∧ fixedSqrt tiny 0 ≤ fixedSqrt tiny (2 ^ 31 - 1)
    ∧ fixedSqrt tiny (46340 * 46340) = 46340 <<< 8 := by decide +kernel

theorem test_meets_FixedSqrtRefinesIntegerSqrt :
    (tiny.fsqrtRound = .floor ∧ (0x7FFFFFFF : Word).toNat < 2 ^ 31)
    ∧ ∃ c : Config, c.fsqrtFrac = 1 ∧ c.fsqrtRound = .nearest :=
  ⟨⟨rfl, by decide⟩, { tiny with fsqrtFrac := 1, fsqrtRound := .nearest }, rfl, rfl⟩

/-- The shortest length and the longest. -/
theorem test_meets_FftReturnsTransform :
    2 ^ (1 : BitVec 5).toNat ≤ tiny.fftMax ∧ 2 ^ (2 : BitVec 5).toNat ≤ tiny.fftMax
    ∧ [(0 : Half), 0, 0, 0].length = 2 ^ (2 : BitVec 5).toNat := by decide

/-- R153: for `m = 1` the one pass has `wr` = 16383 and `wi` = 0; 500 ± round(16383 * 3000 / 2^15). -/
theorem test_meets_ReferenceFftReordersAndPasses :
    [(1000 : Half), 3000].length = 2 ^ 1 ∧ [(0 : Half)].length = 2 ^ 0
    ∧ fftReference tiny 1 false [1000, 3000] [0, 0] = ⟨[2000, -1000], [0, 0], 0⟩ := by decide +kernel

/-- The capture statements: a good state, without a flip and on the last sample of a window, without
and with a decimated sample, at the smallest and the largest reading. -/
theorem test_meets_SampleMovesAverage :
    (State.resetWith tiny).Inv ∧ sampleLegal tiny 0 quiet = true ∧ sampleLegal tiny 4095 loud = true :=
  ⟨tiny_inv, by decide⟩

theorem test_meets_SampleDecimates :
    (State.resetWith tiny).Inv ∧ ((State.resetWith tiny).setDecimation 4095 1 3).Inv
    ∧ getAfter (fun t => (t.head, t.decCnt)) (.sample 4095 loud)
        ((State.resetWith tiny).setDecimation 4095 1 3) = some (0, 0) :=
  ⟨tiny_inv, inv_of (by decide +kernel) (by decide) (by decide +kernel) (by decide), by decide +kernel⟩

theorem test_meets_SampleStoresInActiveSide :
    (State.resetWith tiny).Inv ∧ ((State.resetWith tiny).setWritePos 3).Inv
    ∧ getAfter (fun t => (t.halfAt (.high .side0) 3, t.writePos)) (.sample 4095 loud)
        ((State.resetWith tiny).setWritePos 3) = some (some 0, 0) :=
  ⟨tiny_inv, inv_of (by decide +kernel) (by decide) (by decide +kernel) (by decide), by decide +kernel⟩

theorem test_meets_SampleFlips :
    ((State.resetWith tiny).setWritePos 3).Inv
    ∧ getAfter (fun t => (t.active, t.frameReady, t.halfAt .analogSnap 5)) (.sample 4095 loud)
        ((State.resetWith tiny).setWritePos 3) = some (.side1, true, some 4095)
    ∧ getAfter (fun t => (t.active, t.frameReady)) (.sample 4095 loud)
        ((State.resetWith tiny).setWritePos 2) = some (.side0, false) :=
  ⟨inv_of (by decide +kernel) (by decide) (by decide +kernel) (by decide), by decide +kernel, by decide +kernel⟩

theorem test_meets_SampleLeavesTheRest :
    (State.resetWith tiny).Inv ∧ sampleLegal tiny 4095 loud = true
    ∧ resultOf (.sample 4095 loud) (State.resetWith tiny) = some .empty :=
  ⟨tiny_inv, by decide, by decide +kernel⟩

theorem test_meets_WindowOfSamplesFlipsOnce :
    (State.resetWith tiny).Inv ∧ (State.resetWith tiny).writePos = 0
    ∧ [((0 : Half), quiet), (4095, loud), (1, quiet), (2, loud)].length = tiny.nHigh
    ∧ (∀ x ∈ [((0 : Half), quiet), (4095, loud), (1, quiet), (2, loud)],
        sampleLegal tiny x.1 x.2 = true) := ⟨tiny_inv, rfl, by decide, by decide +kernel⟩

theorem test_meets_TakeClaimsFrame :
    ((State.resetWith tiny).setHandOff .side1 true false).frameReady = true
    ∧ (State.resetWith tiny).frameReady = false := by decide

/-- Both ends of a buffer: SINE(0) = 0 and SINE(16) = 32767 are inside the bound of the fourth clause at
shift 15, and at shift 14 the second product is outside s16. -/
theorem test_meets_WindowMultipliesOnce :
    configOk small = true ∧ configOk { small with windowShift := 14 } = true
    ∧ ([-32768, 32767] : List Half)[0]? = some (-32768 : Half)
    ∧ ([-32768, 32767] : List Half)[1]? = some (32767 : Half)
    ∧ sine small 0 = 0 ∧ sine small 16 = 32767
    ∧ (2 : Int) ^ 15 ≤ (32767 * sine small 16) / 2 ^ 14 := by decide +kernel

theorem test_meets_MagnitudeOfBin :
    tiny.undefinedAs = .fault ∧ (-32768 : Half).toInt = -32768 ∧ (32767 : Half).toInt ≠ -32768
    ∧ sumOfSquares (-32768, -32768) = 2 ^ 31 := by decide

theorem test_meets_LowBandsAreRangeMaxima :
    configOk small = true ∧ lowBandsOk small = true ∧ small.lowBandMap[5]? = some 7
    ∧ [9, 1, 2, 3, 4, 5, 6, 7].length = small.nLow / 2
    ∧ bandMap small [9, 1, 2, 3, 4, 5, 6, 7] 5 = 7 := by decide +kernel

/-- The smallest growth and the smallest half-length. -/
theorem test_meets_BoundariesRiseToHalfLength :
    boundaries 0x10000 2 = [1, 2] ∧ (boundaries 73204 128).length = 26 := by decide +kernel

theorem test_meets_HighBandsPartitionBins :
    0x10000 ≤ small.expGrowth ∧ (boundaries small.expGrowth 2).length = 2
    ∧ highBandEnd small 2 1 = 2 := by decide +kernel

theorem test_meets_HighBandAggregates :
    0x10000 ≤ small.expGrowth ∧ small.expAgg = .max ∧ [7, 5].length = 2
    ∧ 1 < (boundaries small.expGrowth 2).length ∧ bandExp small [7, 5] 2 1 = 5
    ∧ bandExp { small with expAgg := .mean } [7, 5] 2 0 = 7 := by decide +kernel

theorem test_meets_PeakIsFirstMaximum : peak [9, 0] = (1, 0) ∧ peak [5, 1, 9] = (2, 9) := by decide

/-- The condition of ANLO and ANHI on a spectrum, as a computation. -/
theorem no_overflow {ps : List Point}
    (h : ps.all (fun p => !(p.1 == -32768 && p.2 == -32768)) = true) :
    ∀ p ∈ ps, ¬(p.1.toInt = -32768 ∧ p.2.toInt = -32768) := by
  rintro p hp ⟨h1, h2⟩
  have e1 : p.1 = -32768 := BitVec.eq_of_toInt_eq h1
  have e2 : p.2 = -32768 := BitVec.eq_of_toInt_eq h2
  have := List.all_eq_true.1 h p hp
  rw [e1, e2] at this
  revert this
  decide

/-- Zeros: the spectrum has no bin at -32768 in both parts. -/
theorem test_meets_AnloAnalysesSnapshot :
    owned.Inv ∧ anloOk owned.cfg = true ∧ owned.mayUseFrame = true
    ∧ (∀ i < owned.cfg.nLow, owned.halfAt .lowSnap i = (List.replicate 16 (0 : Half))[i]?)
    ∧ (∀ p ∈ (fun r : Spectrum => (r.re.zip r.im).take 8) (fftApply small 4 false
        (windowed small (List.replicate 16 0) 16) (List.replicate 16 0)),
        ¬(p.1.toInt = -32768 ∧ p.2.toInt = -32768)) :=
  ⟨owned_inv, by decide +kernel, by decide +kernel, by decide +kernel, no_overflow (by decide +kernel)⟩

theorem test_meets_AnhiAnalysesReadySide :
    owned.Inv ∧ anhiOk owned.cfg = true ∧ owned.mayUseFrame = true
    ∧ (∀ i < owned.cfg.nHigh,
        owned.halfAt (.high owned.active.other) i = (List.replicate 64 (0 : Half))[i]?)
    ∧ (∀ p ∈ (fun r : Spectrum => (r.re.zip r.im).take 32) (fftApply small 6 false
        (windowed small (List.replicate 64 0) 64) (List.replicate 64 0)),
        ¬(p.1.toInt = -32768 ∧ p.2.toInt = -32768)) :=
  ⟨owned_inv, by decide +kernel, by decide +kernel, by decide +kernel, no_overflow (by decide +kernel)⟩

theorem test_meets_AnalysisOrderDoesNotMatter :
    owned.Inv ∧ ∃ a b, exec .anlo owned = .next a ∧ exec .anhi a = .next b := by
  refine ⟨owned_inv, ?_⟩
  have h : ((nextOf (exec .anlo owned)).bind (fun a => nextOf (exec .anhi a))).isSome = true := by
    decide +kernel
  cases ha : exec .anlo owned with
  | next a =>
    rw [ha] at h
    obtain ⟨b, hb⟩ := exists_next (r := exec .anhi a) h
    exact ⟨a, b, rfl, hb⟩
  | fault f =>
    rw [ha] at h
    cases h
  | refused r =>
    rw [ha] at h
    cases h

theorem test_meets_UnownedFrameFaults :
    ∃ s : State, s.own = false ∧ s.cfg.undefinedAs = .fault ∧ anloOk s.cfg = true
      ∧ anhiOk s.cfg = true :=
  ⟨State.resetWith small, rfl, rfl, by decide +kernel, by decide +kernel⟩

/-- Bin 0 at -32768 in both parts, and a spectrum of zeros. -/
theorem test_meets_OverflowingBinFaults :
    ownedOverflowing.Inv ∧ ownedOverflowing.cfg.undefinedAs = .fault
    ∧ anloOk overflowing = true ∧ anhiOk overflowing = true
    ∧ (∀ i < 16, ownedOverflowing.halfAt .lowSnap i = (List.replicate 16 (0 : Half))[i]?)
    ∧ (∀ i < 64, ownedOverflowing.halfAt (.high .side1) i = (List.replicate 64 (0 : Half))[i]?)
    ∧ faultOf (exec .anlo ownedOverflowing) = some .magOverflow
    ∧ faultOf (exec .anhi ownedOverflowing) = some .magOverflow
    ∧ owned.Inv ∧ faultOf (exec .anlo owned) = none ∧ faultOf (exec .anhi owned) = none :=
  ⟨inv_of (by decide +kernel) (by decide) (by decide +kernel) (by decide), by decide +kernel,
    by decide +kernel, by decide +kernel, by decide +kernel, by decide +kernel, by decide +kernel,
    by decide +kernel, owned_inv, by decide +kernel, by decide +kernel⟩

theorem test_meets_AnalogFieldKeepsReading :
    configOk tiny = true ∧ (4095 : Half).toNat < 2 ^ tiny.rawBits
    ∧ (4095 : Half).toNat = 2 ^ tiny.rawBits - 1 ∧ analogField tiny 4095 = 0xFFF0 := by
  decide +kernel

theorem test_meets_EncodeWritesFrame :
    (owned.setBus .idle 0xC).Inv ∧ (owned.setBus .idle 0xC).mayUseFrame = true
    ∧ (owned.setBus .idle 0xC).mode = .idle :=
  ⟨inv_of (by decide +kernel) (by decide) (by decide +kernel) (by decide), by decide, rfl⟩

theorem test_meets_PollStartsOrViolates :
    (bus .idle 0xC 0 false).mode = .idle ∧ (bus .needsReset 0 0 false).mode ≠ .idle := by decide

theorem test_meets_ReinitReturnsToIdle :
    (bus .needsReset 0 0 false).mode = .needsReset
    ∧ (bus .reading 0xC 6 false).mode ≠ .idle ∧ (bus .reading 0xC 6 false).mode ≠ .needsReset := by
  decide

theorem test_meets_BusErrorForcesReset : nack 0x08 = true ∧ arLo 0x10 = true ∧ bErr 0x3F = true := by
  decide

theorem test_meets_BusirqProgresses :
    (0x07 : BitVec 6) &&& 0x38 = 0 ∧ txRdy 0x01 = true ∧ tc 0x02 = true ∧ stopF 0x07 = true
    ∧ (bus .starting 0xD 0 false).mode = .starting
    ∧ (bus .sendingRegister 0xE 0 false).mode = .sendingRegister
    ∧ (bus .stopping 0xC 0 false).mode = .stopping := by decide

theorem test_meets_UnexpectedBusirqViolates :
    (0x06 : BitVec 6) &&& 0x38 = 0 ∧ (0x00 : BitVec 6) &&& 0x38 = 0 ∧ txRdy 0x06 = false
    ∧ tc 0x05 = false ∧ stopF 0x03 = false ∧ (bus .reading 0xC 6 false).mode = .reading := by decide

theorem test_meets_BusirqAbsorbedInNeedsReset :
    (0x07 : BitVec 6) &&& 0x38 = 0 ∧ State.reset.mode = .needsReset := by decide

theorem test_meets_TransitionTable :
    (bus .reading 0xC 0 true).BusInv ∧ (bus .reading 0xC 0 true).dmaTcif = true
    ∧ ∃ t, exec (.dmawr 0x10) (bus .reading 0xC 6 false) = .next t :=
  ⟨by decide, rfl, exists_next (by decide +kernel)⟩

/-- The first byte and the last, and no read in progress. -/
theorem test_meets_DmawrDepositsByte :
    (bus .reading 0xC 6 false).Inv ∧ (bus .reading 0xC 1 false).Inv
    ∧ (bus .idle 0xC 0 false).dmaCnt = 0 := ⟨bus_inv (by decide), bus_inv (by decide), rfl⟩

theorem test_meets_DmadoneStopsTheBus :
    (bus .reading 0xC 0 true).dmaTcif = true ∧ (bus .reading 0xC 0 true).mode = .reading
    ∧ (bus .idle 0xC 0 true).mode ≠ .reading ∧ (bus .idle 0xC 0 false).dmaTcif = false := by decide

theorem test_meets_AcknowledgesOnlyPresented :
    ∃ t, exec (.busirq 0x3F) State.reset = .next t := exists_next (by decide +kernel)

theorem test_meets_OnlyReinitLeavesNeedsReset :
    State.reset.mode = .needsReset ∧ ∃ t, exec .poll State.reset = .next t :=
  ⟨rfl, exists_next (by decide +kernel)⟩

theorem test_meets_SuccessSequence :
    (bus .idle 0xC 0 false).Inv ∧ (bus .idle 0xC 0 false).irqen = 0xC := ⟨bus_inv (by decide), rfl⟩

theorem test_meets_RecoveryInTwoOperations : (bus .reading 0xC 3 false).mode ≠ .idle := by decide

/-- One operation of each port. -/
theorem test_meets_ContextsKeepTheirState :
    State.reset.BusInv ∧ (∃ t, exec (.isqrt 17) State.reset = .next t)
    ∧ (∃ t, exec (.sample 4095 loud) (State.resetWith tiny) = .next t)
    ∧ (∃ t, exec .take State.reset = .next t) ∧ (∃ t, exec (.busirq 4) State.reset = .next t)
    ∧ ∃ t, exec .dmadone State.reset = .next t :=
  ⟨by decide, ⟨_, rfl⟩, exists_next (by decide +kernel), ⟨_, rfl⟩, exists_next (by decide +kernel),
    exists_next (by decide +kernel)⟩

theorem test_meets_SampleCommutesWithoutFlip :
    (State.resetWith tiny).writePos + 1 ≠ tiny.nHigh
    ∧ ∀ i ∈ [Instr.rdmode, .busirq 1, .dmawr 0xFF, .dmadone],
        ∃ a b, exec i (State.resetWith tiny) = .next a ∧ exec (.sample 4095 loud) a = .next b := by
  refine ⟨by decide, fun i hi => ?_⟩
  have h : ((nextOf (exec i (State.resetWith tiny))).bind
      (fun a => nextOf (exec (.sample 4095 loud) a))).isSome = true := by
    revert i
    decide +kernel
  cases ha : exec i (State.resetWith tiny) with
  | next a =>
    rw [ha] at h
    obtain ⟨b, hb⟩ := exists_next (r := exec (.sample 4095 loud) a) h
    exact ⟨a, b, rfl, hb⟩
  | fault f =>
    rw [ha] at h
    cases h
  | refused r =>
    rw [ha] at h
    cases h

theorem test_meets_ResetMeetsInvariant : configOk tiny = true ∧ configOk small = true := by
  decide +kernel

theorem test_meets_StepKeepsInvariant :
    ((State.resetWith tiny).setInbox [.request (encode (.sample 4095 loud))]).Inv
    ∧ ∃ t, step ((State.resetWith tiny).setInbox [.request (encode (.sample 4095 loud))])
        = .next t :=
  ⟨inv_of (by decide +kernel) (by decide) (by decide +kernel) (by decide), exists_next (by decide +kernel)⟩

theorem test_meets_GoodStatesNeverMisaddress :
    (State.resetWith tiny).Inv ∧ (State.resetWith { tiny with undefinedAs := .run }).Inv
    ∧ (State.resetWith { tiny with undefinedAs := .run }).cfg.undefinedAs = .run :=
  ⟨tiny_inv, inv_of (by decide +kernel) (by decide) (by decide +kernel) (by decide), rfl⟩

end Sys2Proof.Machine
end

namespace Sys2Proof.Machine

/-! ## The step and the configuration checks (`00_scope.md` R8 to R10) -/

/-- R74, R97: a legal request leaves the queue and its operation runs. -/
theorem step_of_decode_eq_ok {s : State} {r : Request} {rest : List Event} {i : Instr}
    (hcfg : configOk s.cfg = true) (hinbox : s.inbox = .request r :: rest)
    (hdecode : decode r = .ok i) : step s = exec i (s.setInbox rest) := by
  rw [step_eq, if_pos hcfg, hinbox]
  simp only [hdecode]

/-- R10, R321: the refusal depends neither on the queue nor on the request (log entry 16). -/
theorem step_of_configOk_eq_false {s : State} (hcfg : configOk s.cfg = false) :
    step s = .refused .illFormedConfig := by
  rw [step_eq, if_neg (Bool.eq_false_iff.mp hcfg)]

/-- R10: ANLO checks its part of the configuration before it looks at the frame. -/
theorem exec_anlo_of_anloOk_eq_false {s : State} (hcfg : anloOk s.cfg = false) :
    exec .anlo s = .refused .illFormedForAnlo := by
  simp only [exec, execAnlo, hcfg, Bool.not_false, if_true]

/-- R10: ANHI checks its part of the configuration before it looks at the frame. -/
theorem exec_anhi_of_anhiOk_eq_false {s : State} (hcfg : anhiOk s.cfg = false) :
    exec .anhi s = .refused .illFormedForAnhi := by
  simp only [exec, execAnhi, hcfg, Bool.not_false, if_true]

/-- Settles O7: the equation of a step whose request decodes. -/
theorem stepRunsDecodedOperation : Obligations.StepRunsDecodedOperation := by
  intro s r rest i hcfg hinbox hdecode
  exact step_of_decode_eq_ok hcfg hinbox hdecode

/-- Settles O9: one refusal for each of the three checks. -/
theorem illFormedConfigurationRefused : Obligations.IllFormedConfigurationRefused := by
  intro s
  exact ⟨step_of_configOk_eq_false, exec_anlo_of_anloOk_eq_false, exec_anhi_of_anhiOk_eq_false⟩

end Sys2Proof.Machine

namespace Sys2Proof.Machine

/-! ## What an operation can write outside the block (`10_state.md` R20, R31) -/

/-- R120: FSQRT writes nothing but the result record. -/
theorem execFsqrt_result {x : Word} {s t : State} (h : execFsqrt x s = .next t) :
    ∃ r, s.withResult r = t := by
  rw [execFsqrt_eq] at h
  split at h
  · split at h <;> cases h
    exact ⟨_, rfl⟩
  · cases h
    exact ⟨_, rfl⟩

/-- R140: FFT writes nothing but the result record. -/
theorem execFft_result {m : BitVec 5} {inv : Bool} {re im : List Half} {s t : State}
    (h : execFft m inv re im s = .next t) : ∃ r, s.withResult r = t := by
  rw [execFft_eq] at h
  split at h <;> cases h
  exact ⟨_, rfl⟩

theorem OnlyBus.sameOutside {s t : State} (h : OnlyBus s t) : SameOutside s t := by
  rw [h]
  exact ⟨rfl, rfl, rfl⟩

/-- R20, R31: read off what each operation leaves alone. -/
theorem exec_sameOutside {i : Instr} {s t : State} (h : exec i s = .next t) : SameOutside s t := by
  cases i with
  | isqrt x => cases h; exact ⟨rfl, rfl, rfl⟩
  | fsqrt x => obtain ⟨r, rfl⟩ := execFsqrt_result h; exact ⟨rfl, rfl, rfl⟩
  | fft m inv re im => obtain ⟨r, rfl⟩ := execFft_result h; exact ⟨rfl, rfl, rfl⟩
  | sample raw an => rw [(execSample_frame h).1]; exact ⟨rfl, rfl, rfl⟩
  | take => cases h; exact ⟨rfl, rfl, rfl⟩
  | anlo => rw [execAnlo_frame h]; exact ⟨rfl, rfl, rfl⟩
  | anhi => rw [(execAnhi_frame h).1]; exact ⟨rfl, rfl, rfl⟩
  | encode => obtain ⟨sent, ht⟩ := execEncode_frame h; rw [ht]; exact ⟨rfl, rfl, rfl⟩
  | poll => exact (execPoll_frame h).sameOutside
  | reinit => exact (execReinit_frame h).sameOutside
  | rdmode => cases h; exact ⟨rfl, rfl, rfl⟩
  | busirq b => exact (execBusirq_frame h).sameOutside
  | dmawr b => rw [execDmawr_frame h]; exact ⟨rfl, rfl, rfl⟩
  | dmadone => exact (execDmadone_frame h).sameOutside

/-- Settles O10, by the frame of each operation. -/
theorem operationsKeepOutside : Obligations.OperationsKeepOutside := by
  intro i s t h
  exact exec_sameOutside h

/-! ## Steps without a request -/

/-- R330: with nothing presented the state stays. -/
theorem step_of_inbox_nil {s : State} (hcfg : configOk s.cfg = true) (hinbox : s.inbox = []) :
    step s = .next s := by
  rw [step_eq, if_pos hcfg, hinbox]

/-- R31: a tick is taken off the queue and counted. -/
theorem step_of_inbox_tick {s : State} {rest : List Event} (hcfg : configOk s.cfg = true)
    (hinbox : s.inbox = .tick :: rest) : step s = .next (s.setInbox rest).tick := by
  rw [step_eq, if_pos hcfg, hinbox]

/-- Settles O8: the two equations of a step that runs no operation. -/
theorem stepWithoutRequest : Obligations.StepWithoutRequest := by
  intro s hcfg
  exact ⟨step_of_inbox_nil hcfg, fun rest hinbox => step_of_inbox_tick hcfg hinbox⟩

/-! ## The invariant right after reset (`10_state.md` R47, R51) -/

/-- R47 with no transfer counted or pending: only the two progress enables are left to justify. -/
theorem State.BusInv.of_quiet {s : State} (hdma : s.dmaCnt = 0 ∧ s.dmaTcif = false)
    (htx : txie s.irqen = true → s.mode = .starting)
    (htc : tcie s.irqen = true → s.mode = .sendingRegister) : s.BusInv := by
  obtain ⟨hcnt, hflag⟩ := hdma
  refine ⟨fun h => absurd hcnt h, fun h => ?_, htx, htc, ?_⟩
  · rw [hflag] at h
    cases h
  · rw [hcnt]
    exact Nat.zero_le _

theorem configOk_default : configOk Config.default = true := by decide +kernel

/-- R47 (f), R51: every counter is 0 and every bound is positive. -/
theorem State.resetWith_captureInv {c : Config} (hcfg : configOk c = true) :
    (State.resetWith c).CaptureInv := by
  obtain ⟨-, -, -, -, -, hk, -⟩ := configOk_capture hcfg
  refine ⟨nHigh_pos c, nLow_pos c, hk, Nat.zero_le _, le_refl _, ?_, fun e he => nomatch he⟩
  show (0 : Int) ≤ rawMax c * 2 ^ c.dcFrac
  positivity

theorem State.resetWith_inv {c : Config} (hcfg : configOk c = true) : (State.resetWith c).Inv := by
  have hbus : (State.resetWith c).BusInv :=
    .of_quiet ⟨rfl, rfl⟩ (by simp [State.resetWith, txie]) (by simp [State.resetWith, tcie])
  exact ⟨hcfg, hbus, State.resetWith_captureInv hcfg, State.resetWith_memoryInv c⟩

/-- Settles O56: the default configuration is one of the well-formed ones. -/
theorem resetMeetsInvariant : Obligations.ResetMeetsInvariant := by
  exact ⟨fun c hcfg => State.resetWith_inv hcfg, State.resetWith_inv configOk_default⟩

/-! ## The invariant under each update of the state

One rule per update: those the invariant does not read first, then those that need a range. -/

theorem State.Inv.withResult {s : State} (h : s.Inv) (r : Result) : (s.withResult r).Inv := h

theorem State.Inv.emit {s : State} (h : s.Inv) (x : Command) : (s.emit x).Inv := h

theorem State.Inv.setInbox {s : State} (h : s.Inv) (es : List Event) : (s.setInbox es).Inv := h

theorem State.Inv.tick {s : State} (h : s.Inv) : s.tick.Inv := h

theorem State.Inv.setHandOff {s : State} (h : s.Inv) (a : Side) (f o : Bool) :
    (s.setHandOff a f o).Inv := h

theorem State.Inv.setLowResults {s : State} (h : s.Inv) (bands : Vector Half 6) (e : Half) :
    (s.setLowResults bands e).Inv := h

theorem State.Inv.setHighResults {s : State} (h : s.Inv) (bands : Vector Half 26)
    (e mag idx hz : Half) : (s.setHighResults bands e mag idx hz).Inv := h

/-- R36: `AVG` is bounded by the largest scaled reading. -/
theorem State.Inv.setAvg {s : State} {v : Word} (h : s.Inv) (h0 : 0 ≤ v.toInt)
    (h1 : v.toInt ≤ rawMax s.cfg * 2 ^ s.cfg.dcFrac) : (s.setAvg v).Inv := by
  obtain ⟨hcfg, hbus, ⟨hpos, hhead, hcnt, hacc, -, -, han⟩, hmem⟩ := h
  exact ⟨hcfg, hbus, ⟨hpos, hhead, hcnt, hacc, h0, h1, han⟩, hmem⟩

/-- R47 (f), R286: `DEC_ACC` holds a sum of `DEC_CNT` readings. -/
theorem State.Inv.setDecimation {s : State} {a : Word} {n k : Nat} (h : s.Inv) (hhead : k < s.cfg.nLow)
    (hcnt : n < s.cfg.k) (hacc : a.toNat ≤ n * rawMax s.cfg) : (s.setDecimation a n k).Inv := by
  obtain ⟨hcfg, hbus, ⟨hpos, -, -, -, h0, h1, han⟩, hmem⟩ := h
  exact ⟨hcfg, hbus, ⟨hpos, hhead, hcnt, hacc, h0, h1, han⟩, hmem⟩

theorem State.Inv.setWritePos {s : State} {p : Nat} (h : s.Inv) (hp : p < s.cfg.nHigh) :
    (s.setWritePos p).Inv := by
  obtain ⟨hcfg, hbus, ⟨-, hcap⟩, hmem⟩ := h
  exact ⟨hcfg, hbus, ⟨hp, hcap⟩, hmem⟩

/-- Every entry a range of writes leaves is an old one or holds one of the values written. -/
theorem Mem.mem_writeN {w : Nat} {d : Option (BitVec w)} {m : Mem w} {base : Nat}
    {vs : List (BitVec w)} {c : Nat × BitVec w} (h : c ∈ Mem.writeN d m base vs) :
    c ∈ m ∨ c.2 ∈ vs := by
  induction vs generalizing m base with
  | nil => exact .inl h
  | cons v vs ih =>
    rcases ih h with hc | hc
    · rcases Mem.mem_write hc with hc | ⟨rfl, -⟩
      · exact .inl hc
      · exact .inr (List.mem_cons_self ..)
    · exact .inr (List.mem_cons_of_mem _ hc)

theorem cfg_of_writeHalves {sp : HalfSpace} {base : Nat} {vs : List Half} {s t : State}
    (h : writeHalves sp base vs s = .ok t) : t.cfg = s.cfg := by
  obtain ⟨-, rfl⟩ := writeHalves_eq_ok.1 h
  exact State.setHalves_cfg ..

/-- The entries of the analog snapshot after a write of any 16-bit memory. -/
theorem mem_analogSnap_of_writeHalves {sp : HalfSpace} {base : Nat} {vs : List Half} {s t : State}
    (hw : writeHalves sp base vs s = .ok t) {c : Nat × Half} (hc : c ∈ t.analogSnap) :
    c ∈ s.analogSnap ∨ sp = .analogSnap ∧ c.2 ∈ vs := by
  obtain ⟨-, rfl⟩ := writeHalves_eq_ok.1 hw
  by_cases hsp : sp = .analogSnap
  · subst hsp
    exact (Mem.mem_writeN hc).imp_right (fun h => ⟨rfl, h⟩)
  · have hsame : (s.setHalves sp (Mem.writeN sp.unlisted (s.halves sp) base vs)).analogSnap
        = s.analogSnap := State.setHalves_halves_other s (q := .analogSnap) _ (Ne.symm hsp)
    exact .inl (hsame ▸ hc)

/-- R69, R232: a write in range keeps the invariant, when what goes to the analog snapshot are
readings. -/
theorem State.Inv.writeHalves {s t : State} {sp : HalfSpace} {base : Nat} {vs : List Half} (h : s.Inv)
    (hw : Machine.writeHalves sp base vs s = .ok t)
    (hv : sp = .analogSnap → ∀ v ∈ vs, v.toNat < 2 ^ s.cfg.rawBits) : t.Inv := by
  obtain ⟨hcfg, hbus, ⟨hpos, hhead, hcnt, hacc, h0, h1, han⟩, hmem⟩ := h
  have hmem' : t.MemoryInv := State.MemoryInv.writeHalves hmem hw
  have han' : ∀ c ∈ t.analogSnap, c.2.toNat < 2 ^ s.cfg.rawBits := fun c hc =>
    (mem_analogSnap_of_writeHalves hw hc).elim (han c) (fun ⟨hsp, hm⟩ => hv hsp c.2 hm)
  obtain ⟨-, rfl⟩ := writeHalves_eq_ok.1 hw
  simp only [State.Inv, State.BusInv, State.CaptureInv, State.setHalves_cfg, State.setHalves_mode,
    State.setHalves_irqen, State.setHalves_dmaCnt, State.setHalves_dmaTcif, State.setHalves_writePos,
    State.setHalves_head, State.setHalves_decCnt, State.setHalves_decAcc, State.setHalves_avg]
  exact ⟨hcfg, hbus, ⟨hpos, hhead, hcnt, hacc, h0, h1, han'⟩, hmem'⟩

/-- R69: a write in range of a byte memory keeps the invariant. -/
theorem State.Inv.writeBytes {s t : State} {sp : ByteSpace} {base : Nat} {vs : List Byte} (h : s.Inv)
    (hw : Machine.writeBytes sp base vs s = .ok t) : t.Inv := by
  obtain ⟨hcfg, hbus, hcap, hmem⟩ := h
  have hmem' : t.MemoryInv := State.MemoryInv.writeBytes hmem hw
  obtain ⟨-, rfl⟩ := writeBytes_eq_ok.1 hw
  simp only [State.Inv, State.BusInv, State.CaptureInv, State.setBytes_cfg, State.setBytes_mode,
    State.setBytes_irqen, State.setBytes_dmaCnt, State.setBytes_dmaTcif, State.setBytes_writePos,
    State.setBytes_head, State.setBytes_decCnt, State.setBytes_decAcc, State.setBytes_avg,
    State.setBytes_analogSnap]
  exact ⟨hcfg, hbus, hcap, hmem'⟩

/-! ## The invariant under SAMPLE (`42_capture.md` R161 to R167) -/

/-- Step 1 (R163). -/
theorem State.Inv.sampleAverage {raw : Half} {s : State} (h : s.Inv)
    (hr : raw.toNat ≤ rawMax s.cfg) : (sampleAverage raw s).Inv := by
  have ⟨hcfg, _, ⟨_, _, _, _, h0, h1, _⟩, _⟩ := h
  obtain ⟨-, h0', h1'⟩ := sampleAverage_avg hcfg h0 h1 hr
  exact h.setAvg h0' h1'

/-- R36, R286: one more reading raises the sum by at most `2^RAW_BITS - 1`. -/
theorem decAcc_add_le {s : State} {raw : Half} (h : s.Inv) (hr : raw.toNat ≤ rawMax s.cfg) :
    (BitVec.ofNat 32 (s.decAcc.toNat + raw.toNat)).toNat ≤ (s.decCnt + 1) * rawMax s.cfg := by
  obtain ⟨-, -, ⟨-, -, -, hacc, -⟩, -⟩ := h
  calc (BitVec.ofNat 32 (s.decAcc.toNat + raw.toNat)).toNat
      ≤ s.decAcc.toNat + raw.toNat := by rw [BitVec.toNat_ofNat]; exact Nat.mod_le _ _
    _ ≤ s.decCnt * rawMax s.cfg + rawMax s.cfg := Nat.add_le_add hacc hr
    _ = (s.decCnt + 1) * rawMax s.cfg := (Nat.succ_mul _ _).symm

/-- Step 2 (R164). -/
theorem State.Inv.sampleDecimate {raw : Half} {s t : State} (h : s.Inv)
    (hr : raw.toNat ≤ rawMax s.cfg) (hd : sampleDecimate raw s = .ok t) : t.Inv := by
  have ⟨_, _, ⟨_, hhead, hcnt, _⟩, _⟩ := h
  rcases sampleDecimate_eq_ok.1 hd with ⟨hk, r, hw, rfl⟩ | ⟨hk, rfl⟩
  · have hrcfg := cfg_of_writeHalves hw
    refine (h.writeHalves hw nofun).setDecimation ?_ ?_ (Nat.zero_le _)
    · rw [hrcfg]
      exact Nat.mod_lt _ (nLow_pos _)
    · rw [hrcfg]
      omega
  · exact h.setDecimation hhead (by omega) (decAcc_add_le h hr)

/-- Storing `WRITE_POS` and writing a memory do not interfere. -/
theorem writeHalves_setWritePos {sp : HalfSpace} {base : Nat} {vs : List Half} {s t : State}
    (h : writeHalves sp base vs s = .ok t) (p : Nat) :
    writeHalves sp base vs (s.setWritePos p) = .ok (t.setWritePos p) := by
  obtain ⟨hr, rfl⟩ := writeHalves_eq_ok.1 h
  refine writeHalves_eq_ok.2 ⟨hr, ?_⟩
  rcases sp with (_ | _) | _ | _ | _ | _ <;> rfl

/-- Step 3 (R165): `WRITE_POS` may now be one past the side, where it is not good; every other part of
the state is, so the state is good with any position of the side in its place. -/
theorem State.Inv.sampleStore {raw : Half} {s t : State} (h : s.Inv)
    (hs : sampleStore raw s = .ok t) :
    t.writePos ≤ t.cfg.nHigh ∧ ∀ p < t.cfg.nHigh, (t.setWritePos p).Inv := by
  have ⟨_, _, ⟨hpos, _⟩, _⟩ := h
  obtain ⟨r, hw, rfl⟩ := sampleStore_eq_ok.1 hs
  refine ⟨?_, fun p hp => (h.writeHalves hw nofun).setWritePos hp⟩
  rw [State.setWritePos_cfg, cfg_of_writeHalves hw]
  exact hpos

/-- Step 4 (R167): the flip happens exactly where the position is one past the side, and resets it. -/
theorem inv_of_sampleFlip {an : Analog} {s t : State} (hpos : s.writePos ≤ s.cfg.nHigh)
    (h : ∀ p < s.cfg.nHigh, (s.setWritePos p).Inv) (han : ∀ v ∈ an.toList, v.toNat ≤ rawMax s.cfg)
    (hf : sampleFlip an s = .ok t) : t.Inv := by
  rcases sampleFlip_eq_ok.1 hf with ⟨-, snap, a, b, -, hlow, hsnap, rfl⟩ | ⟨hne, rfl⟩
  · have ha : (a.setWritePos 0).Inv :=
      (h 0 (nHigh_pos _)).writeHalves (writeHalves_setWritePos hlow 0) nofun
    refine (ha.writeHalves (writeHalves_setWritePos hsnap 0) fun _ v hv => ?_).setHandOff _ _ _
    rw [State.setWritePos_cfg, cfg_of_writeHalves hlow]
    exact Nat.lt_of_le_pred (Nat.two_pow_pos _) (han v hv)
  · exact h s.writePos (by omega)

theorem execSample_keeps_inv {raw : Half} {an : Analog} {s t : State} (h : s.Inv)
    (he : execSample raw an s = .next t) : t.Inv := by
  obtain ⟨hlegal, a, b, c, hdec, hstore, hflip, rfl⟩ := execSample_eq_next.1 he
  obtain ⟨hr, han⟩ := sampleLegal_iff.1 hlegal
  have hacfg : a.cfg = s.cfg := by
    rw [sampleDecimate_frame hdec]
    rfl
  have hbcfg : b.cfg = a.cfg := by rw [(sampleStore_frame hstore).1]
  have ha : a.Inv := (h.sampleAverage hr).sampleDecimate hr hdec
  obtain ⟨hpos, hb⟩ := ha.sampleStore hstore
  refine (inv_of_sampleFlip hpos hb ?_ hflip).withResult _
  rwa [hbcfg, hacfg]

/-! ## The invariant under ANLO, ANHI and ENCODE -/

/-- Steps 2 to 4 of the analysis write 16-bit memories other than the analog snapshot (R192). -/
theorem State.Inv.analyse {sp : HalfSpace} {m : Nat} {buf : List Half} {s t : State} {mag : List Nat}
    (h : s.Inv) (ha : analyse sp m buf s = .ok (mag, t)) (hsp : sp ≠ .analogSnap) : t.Inv := by
  obtain ⟨a, im, b, hzero, -, hre, him, -⟩ := analyse_eq_ok.1 ha
  exact ((h.writeHalves hzero nofun).writeHalves hre (fun e => absurd e hsp)).writeHalves him nofun

theorem execAnlo_keeps_inv {s t : State} (h : s.Inv) (he : execAnlo s = .next t) : t.Inv := by
  obtain ⟨-, -, buf, mag, u, -, ha, rfl⟩ := execAnlo_eq_next.1 he
  exact ((h.analyse ha nofun).setLowResults _ _).withResult _

theorem execAnhi_keeps_inv {s t : State} (h : s.Inv) (he : execAnhi s = .next t) : t.Inv := by
  obtain ⟨-, -, buf, mag, u, -, ha, rfl⟩ := execAnhi_eq_next.1 he
  exact ((h.analyse ha nofun).setHighResults _ _ _ _ _).withResult _

theorem execEncode_keeps_inv {s t : State} (h : s.Inv) (he : execEncode s = .next t) : t.Inv := by
  obtain ⟨-, accel, analog, u, sent, -, -, hw, -, rfl⟩ := execEncode_eq_next.1 he
  exact ((h.writeBytes hw).emit _).withResult _

/-! ## The invariant under the transaction operations (`45_transaction.md`) -/

@[simp] theorem txie_clearTxie : ∀ e : BitVec 4, txie (clearTxie e) = false := by decide

@[simp] theorem txie_clearTcie : ∀ e : BitVec 4, txie (clearTcie e) = txie e := by decide

@[simp] theorem txie_setTcie : ∀ e : BitVec 4, txie (setTcie e) = txie e := by decide

@[simp] theorem tcie_clearTcie : ∀ e : BitVec 4, tcie (clearTcie e) = false := by decide

@[simp] theorem tcie_setTxie : ∀ e : BitVec 4, tcie (setTxie e) = tcie e := by decide

/-- R47 (b), (c): outside `Reading` no transfer is counted or pending. -/
theorem State.BusInv.dma_quiet {s : State} (h : s.BusInv) (hm : s.mode ≠ .reading) :
    s.dmaCnt = 0 ∧ s.dmaTcif = false := by
  obtain ⟨hcnt, hflag, -⟩ := h
  exact ⟨by_contra fun hne => hm (hcnt hne), Bool.eq_false_iff.2 fun hf => hm (hflag hf).1⟩

/-- R47 (d): TXIE is on in `Starting` only. -/
theorem State.BusInv.txie_off {s : State} (h : s.BusInv) (hm : s.mode ≠ .starting) :
    txie s.irqen = false := by
  obtain ⟨-, -, htx, -⟩ := h
  exact Bool.eq_false_iff.2 fun ht => hm (htx ht)

/-- R47 (e): TCIE is on in `SendingRegister` only. -/
theorem State.BusInv.tcie_off {s : State} (h : s.BusInv) (hm : s.mode ≠ .sendingRegister) :
    tcie s.irqen = false := by
  obtain ⟨-, -, -, htc, -⟩ := h
  exact Bool.eq_false_iff.2 fun ht => hm (htc ht)

/-- R310: the violation entry ends in a state that meets R47 from any state. -/
theorem State.violation_busInv (s : State) : s.violation.BusInv :=
  .of_quiet ⟨rfl, rfl⟩ (by simp) (by simp)

/-- R313: so does device initialisation. -/
theorem State.reinitialise_busInv (s : State) : s.reinitialise.BusInv :=
  .of_quiet ⟨rfl, rfl⟩ (by simp [irqenInit, txie]) (by simp [irqenInit, tcie])

theorem State.BusInv.ackAll {s : State} (h : s.BusInv) (b : BitVec 6) : (ackAll b s).BusInv := by
  unfold Machine.ackAll
  split <;> exact h

/-- An operation that completes with an empty result keeps R47 when the state it computed meets it. -/
theorem busInv_of_done {s t : State} (hd : done s = .next t) (h : s.BusInv) : t.BusInv := by
  cases hd
  exact h

/-- R255: TXIE goes on as `MODE` becomes `Starting`. -/
theorem execPoll_keeps_busInv {s t : State} (h : s.BusInv) (he : execPoll s = .next t) :
    t.BusInv := by
  unfold execPoll at he
  split_ifs at he with hidle
  · have htc := h.tcie_off (by simp [hidle])
    exact busInv_of_done he (.of_quiet (h.dma_quiet (by simp [hidle])) (fun _ => rfl) (by simp [htc]))
  · exact busInv_of_done he (State.violation_busInv s)

/-- R275. -/
theorem execReinit_keeps_busInv {s t : State} (he : execReinit s = .next t) : t.BusInv := by
  unfold execReinit at he
  split_ifs at he
  · exact busInv_of_done he (State.reinitialise_busInv s)
  · exact busInv_of_done he (State.violation_busInv s)

/-- R260 to R268: each progress transition moves the one enable with `MODE`, and only the third arms the
transfer. -/
theorem execBusirq_keeps_busInv {b : BitVec 6} {s t : State} (h : s.BusInv)
    (he : execBusirq b s = .next t) : t.BusInv := by
  unfold execBusirq at he
  split_ifs at he with herr hstart hsend hstop hreset
  · exact busInv_of_done he (State.violation_busInv _)
  · obtain ⟨hm, -⟩ := hstart
    exact busInv_of_done he (.of_quiet (h.dma_quiet (by simp [hm])) (by simp) (fun _ => rfl))
  · obtain ⟨hm, -⟩ := hsend
    have htx := h.txie_off (by simp [hm])
    exact busInv_of_done he ⟨fun _ => rfl, by simp, by simp [htx], by simp, le_refl 6⟩
  · obtain ⟨hm, -⟩ := hstop
    have htx := h.txie_off (by simp [hm])
    have htc := h.tcie_off (by simp [hm])
    exact busInv_of_done he (.of_quiet (h.dma_quiet (by simp [hm])) (by simp [htx]) (by simp [htc]))
  · exact busInv_of_done he (h.ackAll b)
  · exact busInv_of_done he (State.violation_busInv _)

/-- R272: a pending completion means a count of 0, so clearing the flag leaves no transfer. -/
theorem execDmadone_keeps_busInv {s t : State} (h : s.BusInv) (he : execDmadone s = .next t) :
    t.BusInv := by
  unfold execDmadone at he
  split_ifs at he with hflag hread
  · exact busInv_of_done he h
  · have ⟨_, hpending, _⟩ := h
    obtain ⟨-, hcnt⟩ := hpending (Bool.eq_true_of_not_eq_false hflag)
    have htx := h.txie_off (by simp [hread])
    have htc := h.tcie_off (by simp [hread])
    exact busInv_of_done he (.of_quiet ⟨hcnt, rfl⟩ (by simp [htx]) (by simp [htc]))
  · exact busInv_of_done he (State.violation_busInv _)

/-- What changes transaction registers alone keeps the invariant when it keeps R47. -/
theorem State.Inv.of_onlyBus {s t : State} (h : s.Inv) (ho : OnlyBus s t) (hb : t.BusInv) : t.Inv := by
  obtain ⟨hcfg, -, hcap, hmem⟩ := h
  rw [ho] at hb ⊢
  exact ⟨hcfg, hb, hcap, hmem⟩

/-- R270: a byte counts down, and the last one sets the flag; a count that is not 0 is in `Reading` with
the flag clear. -/
theorem State.Inv.countDown {s : State} (h : s.Inv) (hne : s.dmaCnt ≠ 0) :
    (s.setDma (s.dmaCnt - 1) (s.dmaTcif || s.dmaCnt - 1 == 0)).Inv := by
  obtain ⟨hcfg, ⟨hcnt, hflag, htx, htc, hle⟩, hcap, hmem⟩ := h
  have hclear : s.dmaTcif = false := Bool.eq_false_iff.2 fun hf => hne (hflag hf).2
  refine ⟨hcfg, ⟨fun _ => hcnt hne, fun hf => ⟨hcnt hne, ?_⟩, htx, htc, ?_⟩, hcap, hmem⟩
  · simpa [hclear] using hf
  · simp only [State.setDma_dmaCnt]
    bv_omega

theorem execDmawr_keeps_inv {b : Byte} {s t : State} (h : s.Inv) (he : execDmawr b s = .next t) :
    t.Inv := by
  rcases execDmawr_eq_next.1 he with ⟨-, rfl⟩ | ⟨hne, -, u, hw, rfl⟩
  · exact h.withResult _
  · have hu : u.dmaCnt = s.dmaCnt ∧ u.dmaTcif = s.dmaTcif := by
      obtain ⟨-, rfl⟩ := writeBytes_eq_ok.1 hw
      exact ⟨State.setBytes_dmaCnt .., State.setBytes_dmaTcif ..⟩
    obtain ⟨hcnt, hflag⟩ := hu
    rw [← hcnt] at hne
    rw [← hcnt, ← hflag]
    exact ((h.writeBytes hw).countDown hne).withResult _

/-! ## The invariant under every step (`10_state.md` R47, `45_transaction.md` R285) -/

/-- R285: every operation that completes keeps the invariant. -/
theorem exec_keeps_inv {i : Instr} {s t : State} (h : s.Inv) (he : exec i s = .next t) : t.Inv := by
  have ⟨_, hbus, _⟩ := h
  cases i with
  | isqrt x => cases he; exact h.withResult _
  | fsqrt x => obtain ⟨r, rfl⟩ := execFsqrt_result he; exact h.withResult r
  | fft m inv re im => obtain ⟨r, rfl⟩ := execFft_result he; exact h.withResult r
  | sample raw an => exact execSample_keeps_inv h he
  | take => cases he; exact (h.setHandOff _ _ _).withResult _
  | anlo => exact execAnlo_keeps_inv h he
  | anhi => exact execAnhi_keeps_inv h he
  | encode => exact execEncode_keeps_inv h he
  | poll => exact h.of_onlyBus (execPoll_frame he) (execPoll_keeps_busInv hbus he)
  | reinit => exact h.of_onlyBus (execReinit_frame he) (execReinit_keeps_busInv he)
  | rdmode => cases he; exact h.withResult _
  | busirq b => exact h.of_onlyBus (execBusirq_frame he) (execBusirq_keeps_busInv hbus he)
  | dmawr b => exact execDmawr_keeps_inv h he
  | dmadone => exact h.of_onlyBus (execDmadone_frame he) (execDmadone_keeps_busInv hbus he)

/-- Everything a step that answers a state can be: idling, a tick, or the operation of a request. -/
theorem step_eq_next {s t : State} (h : step s = .next t) :
    (s.inbox = [] ∧ s = t) ∨ (∃ rest, s.inbox = .tick :: rest ∧ (s.setInbox rest).tick = t)
    ∨ ∃ r rest i, s.inbox = .request r :: rest ∧ decode r = .ok i
        ∧ exec i (s.setInbox rest) = .next t := by
  rw [step_eq] at h
  split at h
  · split at h
    · rename_i hin
      cases h
      exact .inl ⟨hin, rfl⟩
    · rename_i rest hin
      cases h
      exact .inr (.inl ⟨rest, hin, rfl⟩)
    · rename_i r rest hin
      split at h
      · rename_i i hdec
        exact .inr (.inr ⟨r, rest, i, hin, hdec, h⟩)
      · cases h
  · cases h

/-- Settles O57, by the three kinds of step and the invariant under each operation. -/
theorem stepKeepsInvariant : Obligations.StepKeepsInvariant := by
  intro s t h hstep
  rcases step_eq_next hstep with ⟨-, rfl⟩ | ⟨rest, -, rfl⟩ | ⟨r, rest, i, -, -, he⟩
  · exact h
  · exact (h.setInbox rest).tick
  · exact exec_keeps_inv (h.setInbox rest) he

end Sys2Proof.Machine

namespace Sys2Proof.Machine

/-! ## The two bytes of a 16-bit value (`20_memory.md` R65) -/

theorem toNat_lowByte (v : Half) : (v.extractLsb' 0 8).toNat = v.toNat % 256 := by
  simp

theorem toNat_highByte (v : Half) : (v.extractLsb' 8 8).toNat = v.toNat / 256 := by
  rw [BitVec.extractLsb'_toNat, Nat.shiftRight_eq_div_pow]
  omega

/-- A value is its high byte over its low byte. -/
theorem highByte_append_lowByte (v : Half) :
    (v.extractLsb' 8 8 ++ v.extractLsb' 0 8 : BitVec (8 + 8)) = v := by
  apply BitVec.eq_of_toNat_eq
  rw [BitVec.toNat_append, toNat_lowByte, toNat_highByte, Nat.shiftLeft_eq,
    Nat.mul_comm, ← Nat.two_pow_add_eq_or_of_lt (Nat.mod_lt _ (by decide))]
  exact Nat.div_add_mod _ _

/-- Settles O36: the two bytes stand in both orders, and together they are the value again. -/
theorem twoByteLayout : Obligations.TwoByteLayout := by
  intro v
  exact ⟨v.extractLsb' 0 8, v.extractLsb' 8 8, toNat_lowByte v, toNat_highByte v, rfl, rfl,
    highByte_append_lowByte v, highByte_append_lowByte v⟩

end Sys2Proof.Machine

namespace Sys2Proof.Machine

/-! ## Accesses of a good state are in range (`20_memory.md` R69)

What each operation can fault with. In range, a read or a write has no fault of its own, so the only
faults left are those that stand for a behaviour the spec leaves open (`60_exceptions.md` R320, log
entry 7). -/

/-- `f` stands for an open behaviour, and the configuration asks for the fault (log entry 7). -/
abbrev OpenFault (c : Config) (f : Fault) : Prop :=
  c.undefinedAs = .fault ∧ (f = .fsqrtDomain ∨ f = .magOverflow ∨ f = .frameNotOwned)

/-- R69: neither fault of a memory access stands for an open behaviour. -/
theorem OpenFault.ne_memoryFault {c : Config} {f : Fault} (h : OpenFault c f) :
    f ≠ .indexRange ∧ f ≠ .unwrittenRead := by
  obtain ⟨-, rfl | rfl | rfl⟩ := h <;> exact ⟨nofun, nofun⟩

theorem finish_eq_fault {r : Except Fault State} {f : Fault} : finish r = .fault f ↔ r = .error f := by
  cases r <;> simp [finish]

theorem ne_fault_of_completes {a : Answer} {f : Fault} (h : ∃ t, a = .next t) : a ≠ .fault f := by
  obtain ⟨t, rfl⟩ := h
  exact nofun

/-- R352: the use of a frame is withheld only where the configuration asks for the fault. -/
theorem undefinedAs_of_mayUseFrame_eq_false {s : State} (h : s.mayUseFrame = false) :
    s.cfg.undefinedAs = .fault := by
  unfold State.mayUseFrame at h
  split at h
  · assumption
  · cases h

/-- Every memory but `IMAG` has a value at each element, written or not (`10_state.md` R51). -/
theorem readHalves_ne_error {sp : HalfSpace} {base n : Nat} {s : State} {f : Fault}
    (h : base + n ≤ sp.size s.cfg) (hsp : sp ≠ .imag) : readHalves sp base n s ≠ .error f := by
  obtain ⟨vs, hvs⟩ := readHalves_of_range h hsp
  rw [hvs]
  exact nofun

/-! ### The square root, the transform and SAMPLE -/

/-- R128: FSQRT stops for a negative operand alone. -/
theorem execFsqrt_eq_fault {x : Word} {s : State} {f : Fault} (h : execFsqrt x s = .fault f) :
    s.cfg.undefinedAs = .fault ∧ f = .fsqrtDomain := by
  rw [execFsqrt_eq] at h
  split at h
  · split at h
    · cases h
      exact ⟨by assumption, rfl⟩
    · cases h
  · cases h

theorem execFft_ne_fault (m : BitVec 5) (inv : Bool) (re im : List Half) (s : State) (f : Fault) :
    execFft m inv re im s ≠ .fault f := by
  rw [execFft_eq]
  split <;> exact nofun

/-- R161, R96: SAMPLE of a good state completes or is refused. -/
theorem execSample_ne_fault {raw : Half} {an : Analog} {s : State} (h : s.Inv) (f : Fault) :
    execSample raw an s ≠ .fault f := by
  by_cases hl : sampleLegal s.cfg raw an = true
  · exact ne_fault_of_completes (execSample_completes h hl)
  · rw [execSample, if_neg hl]
    exact nofun

/-! ### The analysis -/

/-- R199: steps 2 to 4 of a memory that holds `2^m` elements stop at an overflowing bin alone. -/
theorem analyse_eq_error {sp : HalfSpace} {m : Nat} {buf : List Half} {s : State} {f : Fault}
    (h : s.MemoryInv) (hsp : sp ≠ .imag) (hsz : 2 ^ m ≤ sp.size s.cfg)
    (himag : 2 ^ m ≤ HalfSpace.imag.size s.cfg) (ha : analyse sp m buf s = .error f) :
    s.cfg.undefinedAs = .fault ∧ f = .magOverflow := by
  obtain ⟨t, heq, -⟩ := analyse_completes (buf := buf) h hsp hsz himag rfl
  rw [heq] at ha
  cases hmag : magnitudes s.cfg (2 ^ m) _ with
  | ok mag =>
    rw [hmag] at ha
    cases ha
  | error g =>
    rw [hmag] at ha
    cases ha
    obtain ⟨-, hfault⟩ := magnitudesFrom_eq_error.1 hmag
    exact hfault

/-- R199, R352: ANLO stops for want of a frame or at an overflowing bin. -/
theorem execAnlo_eq_fault {s : State} {f : Fault} (h : s.MemoryInv) (he : execAnlo s = .fault f) :
    OpenFault s.cfg f := by
  unfold execAnlo at he
  split_ifs at he with hcfg hown
  · cases he
    exact ⟨undefinedAs_of_mayUseFrame_eq_false (by simpa using hown), .inr (.inr rfl)⟩
  · simp only [finish_eq_fault, except_bind_eq_error, reduceCtorEq, and_false, exists_false,
      or_false] at he
    rcases he with hread | ⟨buf, -, ha⟩
    · exact absurd hread (readHalves_ne_error (Nat.zero_add _).le (by decide))
    · obtain ⟨hu, hf⟩ := analyse_eq_error h (by decide) (le_refl _) (le_max_right _ _) ha
      exact ⟨hu, .inr (.inl hf)⟩

/-- R199, R352: so does ANHI. -/
theorem execAnhi_eq_fault {s : State} {f : Fault} (h : s.MemoryInv) (he : execAnhi s = .fault f) :
    OpenFault s.cfg f := by
  unfold execAnhi at he
  split_ifs at he with hcfg hown
  · cases he
    exact ⟨undefinedAs_of_mayUseFrame_eq_false (by simpa using hown), .inr (.inr rfl)⟩
  · simp only [finish_eq_fault, except_bind_eq_error, reduceCtorEq, and_false, exists_false,
      or_false] at he
    rcases he with hread | ⟨buf, -, ha⟩
    · exact absurd hread (readHalves_ne_error (Nat.zero_add _).le (by simp))
    · obtain ⟨hu, hf⟩ := analyse_eq_error h (by simp) (le_refl _) (le_max_left _ _) ha
      exact ⟨hu, .inr (.inl hf)⟩

/-! ### ENCODE -/

/-- Two bytes make one axis (R66). -/
theorem axes_length (o : ByteOrder) : ∀ bs : List Byte, (axes o bs).length = bs.length / 2
  | [] => rfl
  | [_] => by simp [axes]
  | _ :: _ :: rest => by
    simp only [axes, List.length_cons, axes_length o rest]
    omega

/-- R110: the fields fill `FRAME_LEN` bytes. -/
theorem frameBytes_length {s : State} {accel : List Byte} {analog : List Half}
    (haccel : accel.length = accBytes) (hanalog : analog.length = nAnalog) :
    (frameBytes s accel analog).length = frameLen := by
  simp [frameBytes, axes_length, haccel, hanalog, frameHeader, frameTrailer, frameLen, accBytes,
    nAnalog]

/-- A range of bytes reads back as it was written, although nothing else of the memory may have been. -/
theorem readBytes_of_writeBytes {sp : ByteSpace} {base : Nat} {vs : List Byte} {s t : State}
    (hwf : Mem.wf sp.unlisted (s.bytes sp)) (h : writeBytes sp base vs s = .ok t) :
    readBytes sp base vs.length t = .ok vs := by
  obtain ⟨hr, -⟩ := writeBytes_eq_ok.1 h
  refine readBytes_eq_ok.2 ⟨hr, rfl, fun i hi => ?_⟩
  rw [byteAt_of_writeBytes h hwf, if_pos ⟨rfl, by omega, by omega⟩, Nat.add_sub_cancel_left]

/-- R231: ENCODE of a frame that may be used completes; it reads of `FRAMEBUF` what it has just
written. -/
theorem execEncode_completes {s : State} (h : s.MemoryInv) (hown : s.mayUseFrame = true) :
    ∃ t, execEncode s = .next t := by
  obtain ⟨accel, haccel⟩ := readBytes_accel (base := 0) (n := accBytes) (s := s) (by decide)
  obtain ⟨analog, hanalog⟩ := readHalves_of_range (sp := .analogSnap) (base := 0) (n := nAnalog)
    (s := s) (Nat.zero_add _).le (by decide)
  have hlen : (frameBytes s accel analog).length = frameLen := by
    obtain ⟨-, haccelLen, -⟩ := readBytes_eq_ok.1 haccel
    obtain ⟨-, hanalogLen, -⟩ := readHalves_eq_ok.1 hanalog
    exact frameBytes_length haccelLen hanalogLen
  obtain ⟨u, hu⟩ : ∃ u, writeBytes .frameBuf 0 (frameBytes s accel analog) s = .ok u :=
    ⟨_, writeBytes_eq_ok.2 ⟨by rw [hlen]; decide, rfl⟩⟩
  have hsent := readBytes_of_writeBytes (h.byte .frameBuf).1 hu
  rw [hlen] at hsent
  exact ⟨_, execEncode_eq_next.2 ⟨hown, accel, analog, u, _, haccel, hanalog, hu, hsent, rfl⟩⟩

/-- R354: ENCODE stops for want of a frame alone. -/
theorem execEncode_eq_fault {s : State} {f : Fault} (h : s.MemoryInv)
    (he : execEncode s = .fault f) : s.cfg.undefinedAs = .fault ∧ f = .frameNotOwned := by
  cases hown : s.mayUseFrame with
  | true => exact absurd he (ne_fault_of_completes (execEncode_completes h hown))
  | false =>
    simp only [execEncode, hown, Bool.not_false, if_true] at he
    cases he
    exact ⟨undefinedAs_of_mayUseFrame_eq_false hown, rfl⟩

/-! ### The transaction operations -/

theorem execPoll_completes (s : State) : ∃ t, execPoll s = .next t := by
  unfold execPoll
  split <;> exact ⟨_, rfl⟩

theorem execReinit_completes (s : State) : ∃ t, execReinit s = .next t := by
  unfold execReinit
  split <;> exact ⟨_, rfl⟩

theorem execDmadone_completes (s : State) : ∃ t, execDmadone s = .next t := by
  unfold execDmadone
  split_ifs <;> exact ⟨_, rfl⟩

/-- R270: a count from 1 to `ACC_BYTES` names a byte of `ACCEL`. -/
theorem execDmawr_completes {s : State} (h : s.BusInv) (b : Byte) :
    ∃ t, execDmawr b s = .next t := by
  obtain ⟨-, -, -, -, hle⟩ := h
  by_cases hcnt : s.dmaCnt = 0
  · exact ⟨_, execDmawr_eq_next.2 (.inl ⟨hcnt, rfl⟩)⟩
  · have hrange : accBytes - s.dmaCnt.toNat + [b].length ≤ ByteSpace.accel.size := by
      have hpos : s.dmaCnt.toNat ≠ 0 := fun h0 => hcnt (BitVec.eq_of_toNat_eq h0)
      simp only [ByteSpace.size, List.length_singleton]
      omega
    exact ⟨_, execDmawr_eq_next.2
      (.inr ⟨hcnt, hle, _, writeBytes_eq_ok.2 ⟨hrange, rfl⟩, rfl⟩)⟩

/-! ### Every operation and every step -/

/-- R69, R320: an operation of a good state faults only for an open behaviour. -/
theorem openFault_of_exec_eq_fault {i : Instr} {s : State} {f : Fault} (h : s.Inv)
    (he : exec i s = .fault f) : OpenFault s.cfg f := by
  have ⟨_, hbus, _, hmem⟩ := h
  cases i with
  | isqrt x => cases he
  | fsqrt x => obtain ⟨hu, hf⟩ := execFsqrt_eq_fault he; exact ⟨hu, .inl hf⟩
  | fft m inv re im => exact absurd he (execFft_ne_fault m inv re im s f)
  | sample raw an => exact absurd he (execSample_ne_fault h f)
  | take => cases he
  | anlo => exact execAnlo_eq_fault hmem he
  | anhi => exact execAnhi_eq_fault hmem he
  | encode => obtain ⟨hu, hf⟩ := execEncode_eq_fault hmem he; exact ⟨hu, .inr (.inr hf)⟩
  | poll => exact absurd he (ne_fault_of_completes (execPoll_completes s))
  | reinit => exact absurd he (ne_fault_of_completes (execReinit_completes s))
  | rdmode => cases he
  | busirq b => exact absurd he (ne_fault_of_completes (execBusirq_completes b s))
  | dmawr b => exact absurd he (ne_fault_of_completes (execDmawr_completes hbus b))
  | dmadone => exact absurd he (ne_fault_of_completes (execDmadone_completes s))

/-- A step that faults is the operation of a request that faults. -/
theorem step_eq_fault {s : State} {f : Fault} (h : step s = .fault f) :
    ∃ rest i, exec i (s.setInbox rest) = .fault f := by
  rw [step_eq] at h
  split at h
  · split at h
    · cases h
    · cases h
    · rename_i r rest _
      split at h
      · rename_i i _
        exact ⟨rest, i, h⟩
      · cases h
  · cases h

/-- R69, R320: so does a step of a good state; the queue is not part of the invariant. -/
theorem openFault_of_step_eq_fault {s : State} {f : Fault} (h : s.Inv) (hstep : step s = .fault f) :
    OpenFault s.cfg f := by
  obtain ⟨rest, i, he⟩ := step_eq_fault hstep
  exact openFault_of_exec_eq_fault (s := s.setInbox rest) (h.setInbox rest) he

/-- Settles O58: a fault of a step stands for an open behaviour, hence is none of a memory, and there is
none under `Undefined.run`. -/
theorem goodStatesNeverMisaddress : Obligations.GoodStatesNeverMisaddress := by
  intro s h
  have hopen : ∀ f, step s = .fault f → OpenFault s.cfg f := fun f => openFault_of_step_eq_fault h
  refine ⟨fun hstep => ?_, fun hstep => ?_, fun hrun f hstep => ?_⟩
  · exact (hopen _ hstep).ne_memoryFault.1 rfl
  · exact (hopen _ hstep).ne_memoryFault.2 rfl
  · obtain ⟨hfault, -⟩ := hopen f hstep
    rw [hrun] at hfault
    cases hfault

end Sys2Proof.Machine

namespace Sys2Proof

/-! ## The operand record and its fields (`30_encoding.md` R91) -/

theorem recordField_eq_iff {v lo w : Nat} {x : BitVec w} :
    recordField v lo w = x ↔ v / 2 ^ lo % 2 ^ w = x.toNat := by
  rw [← BitVec.toNat_inj, recordField_toNat]

/-- A number of `w` bits is its own lowest field. -/
theorem recordField_toNat_self {w : Nat} (x : BitVec w) : recordField x.toNat 0 w = x := by
  rw [recordField_eq_iff, pow_zero, Nat.div_one, Nat.mod_eq_of_lt x.isLt]

/-- A number that fits `w` bits is the value of its lowest field. -/
theorem toNat_recordField_zero {v w : Nat} (h : v < 2 ^ w) : (recordField v 0 w).toNat = v := by
  rw [recordField_toNat, pow_zero, Nat.div_one, Nat.mod_eq_of_lt h]

/-- A field of one bit, read as a flag. -/
theorem recordField_beq_one (v lo : Nat) :
    ((recordField v lo 1 : BitVec 1) == 1) = decide (v / 2 ^ lo % 2 = 1) := by
  rw [Bool.eq_iff_iff, beq_iff_eq, decide_eq_true_iff, recordField_eq_iff]
  rfl

/-- A field of reserved bits is found set (R96). -/
theorem recordField_bne_zero {v lo w : Nat} :
    (recordField v lo w != 0) = true ↔ v / 2 ^ lo % 2 ^ w ≠ 0 := by
  rw [bne_iff_ne, ne_eq, recordField_eq_iff]
  simp

/-! ## The three formats with more than one field or with reserved bits (R91, R96) -/

/-- R96: a bit of `operand[7:5]` set is what refuses an FFT record first. -/
theorem decodeFft_of_reserved {v : Nat} (re im : List Half) (h : v / 2 ^ 5 % 2 ^ 3 ≠ 0) :
    decodeFft v re im = .error .reservedBit := by
  have hset : ((recordField v 5 3 : BitVec 3) != 0) = true := recordField_bne_zero.2 h
  simp only [decodeFft, hset, Bool.true_or, if_true]

/-- Everything an FFT record that decodes can be: reserved bits and padding zero, `2^m` elements in
either array. -/
theorem decodeFft_eq_ok {v : Nat} {re im : List Half} {i : Instr} :
    decodeFft v re im = .ok i ↔ v / 2 ^ 5 % 2 ^ 3 = 0 ∧ v / 2 ^ 9 % 2 ^ 7 = 0
      ∧ re.length = 2 ^ (v % 2 ^ 5) ∧ im.length = 2 ^ (v % 2 ^ 5)
      ∧ .fft (recordField v 0 5) (decide (v / 2 ^ 8 % 2 = 1)) re im = i := by
  simp only [decodeFft, recordField_beq_one, Bool.or_eq_true, recordField_bne_zero,
    Bool.and_eq_true, beq_iff_eq, recordField_toNat, pow_zero, Nat.div_one]
  split
  · rename_i hset
    simp only [reduceCtorEq, false_iff]
    rintro ⟨h1, h2, -⟩
    exact hset.elim (· h1) (· h2)
  · rename_i hclear
    obtain ⟨h1, h2⟩ := not_or.1 hclear
    split
    · rename_i hlen
      simp only [not_not.1 h1, not_not.1 h2, hlen, Except.ok.injEq, true_and]
    · rename_i hlen
      simp only [reduceCtorEq, false_iff]
      exact fun ⟨_, _, hre, him, _⟩ => hlen ⟨hre, him⟩

/-- The length is bits 4:0 of the record and the direction bit 8 (R91). -/
theorem operandNat_fft (m : BitVec 5) (inv : Bool) (re im : List Half) :
    operandNat (.fft m inv re im) = m.toNat + 2 ^ 8 * inv.toNat := by
  cases inv <;> rfl

/-- The length and the direction are read from where they were written (R91). -/
theorem decodeFft_operandNat {m : BitVec 5} {inv : Bool} {re im : List Half}
    (h : (Instr.fft m inv re im).encodable = true) :
    decodeFft (operandNat (.fft m inv re im)) re im = .ok (.fft m inv re im) := by
  have hm := m.isLt
  have hinv := inv.toNat_lt
  simp only [Instr.encodable, Bool.and_eq_true, beq_iff_eq] at h
  obtain ⟨hre, him⟩ := h
  rw [operandNat_fft]
  have hlow : (m.toNat + 2 ^ 8 * inv.toNat) % 2 ^ 5 = m.toNat := by omega
  have hbit8 : (m.toNat + 2 ^ 8 * inv.toNat) / 2 ^ 8 % 2 = inv.toNat := by omega
  have hfield : recordField (m.toNat + 2 ^ 8 * inv.toNat) 0 5 = m := by
    rw [recordField_eq_iff, pow_zero, Nat.div_one, hlow]
  refine decodeFft_eq_ok.2 ⟨by omega, by omega, by rw [hlow, hre], by rw [hlow, him], ?_⟩
  rw [hfield, hbit8]
  cases inv <;> rfl

/-- R96, R100: a BUSIRQ record with a reserved bit set is refused. -/
theorem decodeBusirq_of_reserved {v : Nat} (h : v / 2 ^ 6 % 2 ^ 2 ≠ 0) :
    decodeBusirq v = .error .reservedBit :=
  if_pos (recordField_bne_zero.2 h)

/-- Everything a BUSIRQ record that decodes can be (R96, R100). -/
theorem decodeBusirq_eq_ok {v : Nat} {i : Instr} :
    decodeBusirq v = .ok i ↔ v / 2 ^ 6 % 2 ^ 2 = 0 ∧ .busirq (recordField v 0 6) = i := by
  simp only [decodeBusirq, recordField_bne_zero]
  split
  · rename_i hset
    simp only [reduceCtorEq, hset, false_and]
  · rename_i hclear
    simp only [not_not.1 hclear, Except.ok.injEq, true_and]

/-- The seven readings are read from where they were written (R91). -/
theorem decodeSample_operandNat (raw : Half) (an : Analog) :
    decodeSample (operandNat (.sample raw an)) = .sample raw an := by
  obtain ⟨a0, a1, a2, a3, a4, a5⟩ := an
  have hraw := raw.isLt
  have h0 := a0.isLt
  have h1 := a1.isLt
  have h2 := a2.isLt
  have h3 := a3.isLt
  have h4 := a4.isLt
  simp only [decodeSample, operandNat, Instr.sample.injEq, Analog.mk.injEq, recordField_eq_iff]
  omega

/-- The seven readings of a record of 112 bits give the record back (R91). -/
theorem operandNat_decodeSample {v : Nat} (h : v < 2 ^ 112) : operandNat (decodeSample v) = v := by
  simp only [decodeSample, operandNat, recordField_toNat]
  omega

/-! ## Operand records and operations, both ways (R91, R93) -/

/-- The operand record and the arrays of an encodable operation are read as that operation. -/
theorem decodeOperands_operandNat {i : Instr} (h : i.encodable = true) :
    decodeOperands i.op (operandNat i) (arrayRe i) (arrayIm i) = .ok i := by
  cases i with
  | isqrt x => exact congrArg (Except.ok ∘ Instr.isqrt) (recordField_toNat_self x)
  | fsqrt x => exact congrArg (Except.ok ∘ Instr.fsqrt) (recordField_toNat_self x)
  | dmawr b => exact congrArg (Except.ok ∘ Instr.dmawr) (recordField_toNat_self b)
  | sample raw an => exact congrArg Except.ok (decodeSample_operandNat raw an)
  | busirq b =>
    have hb := b.isLt
    refine decodeBusirq_eq_ok.2 ⟨?_, congrArg Instr.busirq (recordField_toNat_self b)⟩
    simp only [operandNat]
    omega
  | fft m inv re im => exact decodeFft_operandNat h
  | take | anlo | anhi | encode | poll | reinit | rdmode | dmadone => rfl

/-- An operand record that decodes, with the arrays beside it, is that of the operation it is read
as. -/
theorem decodeOperands_eq_ok {o : Op} {v : Nat} {re im : List Half} {i : Instr}
    (hv : v < 256 ^ o.format.bytes) (harrays : o = .fft ∨ re = [] ∧ im = [])
    (h : decodeOperands o v re im = .ok i) :
    i.encodable = true ∧ i.op = o ∧ operandNat i = v ∧ arrayRe i = re ∧ arrayIm i = im := by
  by_cases ho : o = .fft
  · subst ho
    obtain ⟨hreserved, hpadding, hre, him, rfl⟩ := decodeFft_eq_ok.1 h
    have hv16 : v < 2 ^ 16 := hv
    refine ⟨?_, rfl, ?_, rfl, rfl⟩
    · simp [Instr.encodable, hre, him]
    · rw [operandNat_fft, recordField_toNat, Bool.toNat, Bool.cond_decide]
      split <;> omega
  · obtain ⟨rfl, rfl⟩ := harrays.resolve_left ho
    cases o with
    | fft => exact absurd rfl ho
    | isqrt => cases h; exact ⟨rfl, rfl, toNat_recordField_zero hv, rfl, rfl⟩
    | fsqrt => cases h; exact ⟨rfl, rfl, toNat_recordField_zero hv, rfl, rfl⟩
    | dmawr => cases h; exact ⟨rfl, rfl, toNat_recordField_zero hv, rfl, rfl⟩
    | sample => cases h; exact ⟨rfl, rfl, operandNat_decodeSample hv, rfl, rfl⟩
    | busirq =>
      obtain ⟨hreserved, rfl⟩ := decodeBusirq_eq_ok.1 h
      have hv8 : v < 2 ^ 8 := hv
      exact ⟨rfl, rfl, toNat_recordField_zero (by omega), rfl, rfl⟩
    | take | anlo | anhi | encode | poll | reinit | rdmode | dmadone =>
      cases h
      have hv0 : v < 1 := hv
      exact ⟨rfl, rfl, (Nat.lt_one_iff.1 hv0).symm, rfl, rfl⟩

/-- The request the encoder writes has the shape of its row, for every operation. -/
theorem encode_shape (i : Instr) : Laws.Shape.Statement i := by
  cases i with
  | isqrt x => exact Laws.Shape.isqrt x
  | fsqrt x => exact Laws.Shape.fsqrt x
  | fft m inv re im => exact Laws.Shape.fft m inv re im
  | sample raw an => exact Laws.Shape.sample raw an
  | take => exact Laws.Shape.take
  | anlo => exact Laws.Shape.anlo
  | anhi => exact Laws.Shape.anhi
  | encode => exact Laws.Shape.encode
  | poll => exact Laws.Shape.poll
  | reinit => exact Laws.Shape.reinit
  | rdmode => exact Laws.Shape.rdmode
  | busirq b => exact Laws.Shape.busirq b
  | dmawr b => exact Laws.Shape.dmawr b
  | dmadone => exact Laws.Shape.dmadone

/-- Settles O1: the shape of the encoded request leads the decoder to its operand record, and the
record is read as the operation. -/
theorem decodeInvertsEncode : Obligations.DecodeInvertsEncode := by
  intro i hi
  obtain ⟨hword, hport, hlength, hfits, harrays⟩ := encode_shape i
  calc decode (encode i)
      = decodeOperands i.op (recordNat (recordBytes i.op.format.bytes (operandNat i)))
          (arrayRe i) (arrayIm i) := decode_eq hword hport hlength harrays
    _ = decodeOperands i.op (operandNat i) (arrayRe i) (arrayIm i) := by
        rw [recordNat_recordBytes hfits]
    _ = .ok i := decodeOperands_operandNat hi

/-- Settles O2: word, port, record and arrays of the request are each those of the operation. -/
theorem encodeInvertsDecode : Obligations.EncodeInvertsDecode := by
  intro r i h
  obtain ⟨o, hword, hport, hlength, harrays, hoperands⟩ := decode_ok h
  have hfits : recordNat r.operand < 256 ^ o.format.bytes := hlength ▸ recordNat_lt r.operand
  obtain ⟨hencodable, rfl, hnat, hre, him⟩ := decodeOperands_eq_ok hfits harrays hoperands
  have hw : i.op.word = r.word := Op.word_of_ofWord _ _ hword
  have hp : i.op.port = r.port := Port.number_injective (by rw [← Op.portField_word, hw, hport])
  have hrecord : recordBytes i.op.format.bytes (operandNat i) = r.operand := by
    rw [hnat, ← hlength, recordBytes_recordNat]
  refine ⟨hencodable, ?_⟩
  rw [encode, hw, hp, hrecord, hre, him]

/-- A request written out as bytes decodes to the operation whose encoding it is. -/
theorem decode_of_encode_eq {i : Instr} {r : Request} (hi : i.encodable = true)
    (h : encode i = r) : decode r = .ok i :=
  h ▸ decodeInvertsEncode i hi

/-- Settles O3: each written request is the encoding of its operation, byte for byte. -/
theorem writtenRequestsDecode : Obligations.WrittenRequestsDecode := by
  refine ⟨?_, ?_, ?_, ?_, ?_, ?_, ?_⟩ <;> exact decode_of_encode_eq rfl (by decide)

/-! ## Illegal requests (R94 to R97) -/

/-- R93: where the words of the map stand. -/
theorem Op.word_toNat_range (o : Op) : o.word.toNat ≤ 0x02 ∨ o.word.toNat = 0x10
    ∨ 0x20 ≤ o.word.toNat ∧ o.word.toNat ≤ 0x26 ∨ o.word.toNat = 0x30
    ∨ 0x40 ≤ o.word.toNat ∧ o.word.toNat ≤ 0x41 := by
  cases o <;> decide

/-- R95: a word outside the map is refused, whatever stands beside it. -/
theorem decode_of_ofWord_eq_none {r : Request} (h : Op.ofWord r.word = none) :
    decode r = .error .unassignedWord := by
  rw [decode, h]

/-- R94: no request on another port than its word's decodes. -/
theorem decode_of_wrongPort {r : Request} (h : portField r.word ≠ r.port.number) :
    ∃ why, decode r = .error why := by
  cases hdecode : decode r with
  | error why => exact ⟨why, rfl⟩
  | ok i =>
    obtain ⟨_, _, hport, _⟩ := decode_ok hdecode
    exact absurd hport h

/-- R96: BUSIRQ with `b[7]` or `b[6]` set. -/
theorem decode_busirq_of_reserved {b : Byte} (h : 0x40 ≤ b.toNat) :
    decode ⟨.bus, 0x30, [b], [], []⟩ = .error .reservedBit := by
  have hb := b.isLt
  rw [decode_eq (Op.ofWord_word .busirq) (Op.portField_word .busirq) rfl (.inr ⟨rfl, rfl⟩)]
  refine decodeBusirq_of_reserved ?_
  simp only [recordNat]
  omega

/-- R96: FFT with a bit of `operand[7:5]` set, the high bits of the record's first byte. -/
theorem decode_fft_of_reserved {b0 : Byte} (b1 : Byte) (re im : List Half) (h : 0x20 ≤ b0.toNat) :
    decode ⟨.au, 0x02, [b0, b1], re, im⟩ = .error .reservedBit := by
  have hb := b0.isLt
  rw [decode_eq (Op.ofWord_word .fft) (Op.portField_word .fft) rfl (.inl rfl)]
  refine decodeFft_of_reserved re im ?_
  simp only [recordNat]
  omega

end Sys2Proof

namespace Sys2Proof.Machine

/-- R97: an illegal request is refused with the decoder's reason. -/
theorem step_of_decode_eq_error {s : State} {r : Request} {rest : List Event} {why : Illegal}
    (hcfg : configOk s.cfg = true) (hinbox : s.inbox = .request r :: rest)
    (hdecode : decode r = .error why) : step s = .refused (.illegalRequest why) := by
  rw [step_eq, if_pos hcfg, hinbox]
  simp only [hdecode]

/-- R96: one reading with a bit at or above `RAW_BITS` makes SAMPLE illegal. -/
theorem sampleLegal_eq_false {c : Config} {raw : Half} {an : Analog}
    (h : ∃ v ∈ raw :: an.toList, 2 ^ c.rawBits ≤ v.toNat) : sampleLegal c raw an = false := by
  obtain ⟨v, hmem, hv⟩ := h
  exact List.all_eq_false.2 ⟨v, hmem, by simpa using hv⟩

/-- R96: the two lengths that make FFT illegal. -/
theorem fftLegal_eq_false {c : Config} {m : BitVec 5} {re im : List Half}
    (h : m = 0 ∨ c.fftMax < 2 ^ m.toNat) : fftLegal c m re im = false := by
  refine Bool.eq_false_iff.2 fun hlegal => ?_
  obtain ⟨hm, hmax, -, -⟩ := fftLegal_iff.1 hlegal
  exact h.elim hm (Nat.not_lt.2 hmax)

/-- R96, R97: SAMPLE of an illegal reading is refused. -/
theorem exec_sample_of_not_legal {s : State} {raw : Half} {an : Analog}
    (h : sampleLegal s.cfg raw an = false) :
    exec (.sample raw an) s = .refused (.illegalRequest .reservedBit) :=
  if_neg (Bool.eq_false_iff.1 h)

/-- R96, R97: FFT of an illegal length is refused. -/
theorem exec_fft_of_not_legal {s : State} {m : BitVec 5} {inv : Bool} {re im : List Half}
    (h : fftLegal s.cfg m re im = false) :
    exec (.fft m inv re im) s = .refused (.illegalRequest .fftLength) :=
  if_neg (Bool.eq_false_iff.1 h)

/-- Settles O4: no row has a word in the six ranges. -/
theorem unassignedWordRefused : Obligations.UnassignedWordRefused := by
  intro s r rest hcfg hinbox hword
  refine step_of_decode_eq_error hcfg hinbox (decode_of_ofWord_eq_none ?_)
  cases ho : Op.ofWord r.word with
  | none => rfl
  | some o =>
    have hrow := o.word_toNat_range
    rw [Op.word_of_ofWord _ _ ho] at hrow
    omega

/-- Settles O5: the port is checked before any request decodes. -/
theorem wrongPortRefused : Obligations.WrongPortRefused := by
  intro s r rest hcfg hinbox hport
  obtain ⟨why, hdecode⟩ := decode_of_wrongPort hport
  exact ⟨why, step_of_decode_eq_error hcfg hinbox hdecode⟩

/-- Settles O6: the decoder refuses what the record reserves, the meaning what the configuration
makes illegal (log entry 12). -/
theorem reservedOperandsRefused : Obligations.ReservedOperandsRefused := by
  refine ⟨fun s b rest hcfg hinbox hb => ?_, fun s b0 b1 re im rest hcfg hinbox hb => ?_,
    fun s raw an h => ?_, fun s m inv re im h => ?_⟩
  · exact step_of_decode_eq_error hcfg hinbox (decode_busirq_of_reserved hb)
  · exact step_of_decode_eq_error hcfg hinbox (decode_fft_of_reserved b1 re im hb)
  · exact exec_sample_of_not_legal (sampleLegal_eq_false h)
  · exact exec_fft_of_not_legal (fftLegal_eq_false h)

end Sys2Proof.Machine

namespace Sys2Proof.Machine

/-! ## The two square roots as roundings of one root (`40_sqrt.md`)

Both searches compute `Nat.sqrt`: ISQRT that of the operand, FSQRT that of `x * 4^F`, rounded as
configured. R126 and R129 are then facts about the rounded root. -/

/-- The root of `t` under a rounding of R125: `nearest` goes up past the middle between two roots. -/
def roundedSqrt : Rounding → Nat → Nat
  | .floor, t => t.sqrt
  | .nearest, t => if t - t.sqrt * t.sqrt > t.sqrt then t.sqrt + 1 else t.sqrt

theorem roundedSqrt_floor (t : Nat) : roundedSqrt .floor t = t.sqrt := rfl

theorem roundedSqrt_nearest (t : Nat) : roundedSqrt .nearest t =
    if t - t.sqrt * t.sqrt > t.sqrt then t.sqrt + 1 else t.sqrt := rfl

theorem sqrt_le_roundedSqrt (m : Rounding) (t : Nat) : t.sqrt ≤ roundedSqrt m t := by
  cases m with
  | floor => exact le_rfl
  | nearest => rw [roundedSqrt_nearest]; split <;> omega

theorem roundedSqrt_le_sqrt_add_one (m : Rounding) (t : Nat) : roundedSqrt m t ≤ t.sqrt + 1 := by
  cases m with
  | floor => exact Nat.le_succ _
  | nearest => rw [roundedSqrt_nearest]; split <;> omega

/-- Between two numbers with the same floor of the root, rounding can only go up. -/
theorem roundedSqrt_mono (m : Rounding) {t u : Nat} (h : t ≤ u) :
    roundedSqrt m t ≤ roundedSqrt m u := by
  obtain hlt | heq := (Nat.sqrt_le_sqrt h).lt_or_eq
  · calc roundedSqrt m t ≤ t.sqrt + 1 := roundedSqrt_le_sqrt_add_one m t
      _ ≤ u.sqrt := hlt
      _ ≤ roundedSqrt m u := sqrt_le_roundedSqrt m u
  · cases m with
    | floor => exact heq.le
    | nearest =>
      rw [roundedSqrt_nearest, roundedSqrt_nearest, heq]
      split <;> split <;> omega

/-- A perfect square leaves nothing to round. -/
theorem roundedSqrt_mul_self (m : Rounding) (r : Nat) : roundedSqrt m (r * r) = r := by
  cases m with
  | floor => exact Nat.sqrt_eq r
  | nearest => rw [roundedSqrt_nearest, Nat.sqrt_eq, Nat.sub_self, if_neg (Nat.not_lt_zero r)]

theorem four_pow_eq_mul_self (F : Nat) : 4 ^ F = 2 ^ F * 2 ^ F := by
  rw [← Nat.mul_pow]

/-- The integer part of the root with `F` fractional bits is the root of the integer. -/
theorem sqrt_mul_four_pow_shiftRight (x F : Nat) : (x * 4 ^ F).sqrt >>> F = x.sqrt := by
  refine eq_of_forall_le_iff fun k => ?_
  calc k ≤ (x * 4 ^ F).sqrt >>> F
      ↔ k * 2 ^ F * (k * 2 ^ F) ≤ x * 4 ^ F := by
        rw [Nat.shiftRight_eq_div_pow, Nat.le_div_iff_mul_le (Nat.two_pow_pos F), Nat.le_sqrt]
    _ ↔ k * k * 4 ^ F ≤ x * 4 ^ F := by rw [four_pow_eq_mul_self, mul_mul_mul_comm]
    _ ↔ k * k ≤ x := Nat.mul_le_mul_right_iff (Nat.pow_pos (by norm_num))
    _ ↔ k ≤ x.sqrt := Nat.le_sqrt.symm

/-! ### What the two searches compute -/

/-- R121, R123: the search of ISQRT is the floor of the root, and it fits the u16. -/
theorem integerSqrt_toNat (x : Word) : (integerSqrt x).toNat = x.toNat.sqrt := by
  have hx : x.toNat < 2 ^ 16 * 2 ^ 16 := x.isLt
  have hroot : rootByBits x.toNat 16 0x8000 0 = x.toNat.sqrt :=
    Nat.eq_sqrt.2 (rootByBits_zero hx)
  rw [integerSqrt, hroot, asU16_toNat (Nat.sqrt_lt.2 hx)]

/-- R125: FSQRT rounds the root of `x * 4^F` as configured. -/
theorem fixedSqrt_eq_roundedSqrt {c : Config} (hF : c.fsqrtFrac ≤ 15) {x : Nat} (hx : x ≤ 2 ^ 31) :
    fixedSqrt c x = roundedSqrt c.fsqrtRound (x * 4 ^ c.fsqrtFrac) := by
  obtain ⟨r, hle, hlt, hfloor, hnearest⟩ := fixedSqrt_floor hF hx
  obtain rfl := Nat.eq_sqrt.2 ⟨hle, hlt⟩
  cases hr : c.fsqrtRound with
  | floor => exact hfloor hr
  | nearest => exact hnearest hr

/-- R127: for an operand of FSQRT the rounded root is below `2^31`. -/
theorem fixedSqrt_lt {c : Config} (hF : c.fsqrtFrac ≤ 15) {x : Nat} (hx : x < 2 ^ 31) :
    fixedSqrt c x < 2 ^ 31 := by
  have hroot : (x * 4 ^ c.fsqrtFrac).sqrt < 2 ^ 31 - 1 := by
    refine Nat.sqrt_lt.2 ?_
    calc x * 4 ^ c.fsqrtFrac ≤ 2 ^ 31 * 4 ^ 15 :=
          Nat.mul_le_mul hx.le (Nat.pow_le_pow_right (by norm_num) hF)
      _ < (2 ^ 31 - 1) * (2 ^ 31 - 1) := by norm_num
  have hrounded := roundedSqrt_le_sqrt_add_one c.fsqrtRound (x * 4 ^ c.fsqrtFrac)
  rw [fixedSqrt_eq_roundedSqrt hF hx.le]
  omega

/-- R126 (a), for every operand that the search of R130 reaches. -/
theorem fixedSqrt_mono {c : Config} (hF : c.fsqrtFrac ≤ 15) {a b : Nat} (hab : a ≤ b)
    (hb : b ≤ 2 ^ 31) : fixedSqrt c a ≤ fixedSqrt c b := by
  rw [fixedSqrt_eq_roundedSqrt hF (hab.trans hb), fixedSqrt_eq_roundedSqrt hF hb]
  exact roundedSqrt_mono _ (Nat.mul_le_mul_right _ hab)

/-- R126 (b): `k*k * 4^F` is the square of `k << F`. -/
theorem fixedSqrt_mul_self {c : Config} (hF : c.fsqrtFrac ≤ 15) {k : Nat} (hk : k ≤ 46340) :
    fixedSqrt c (k * k) = k <<< c.fsqrtFrac := by
  have hkk : k * k ≤ 2 ^ 31 := (Nat.mul_self_le_mul_self hk).trans (by norm_num)
  rw [fixedSqrt_eq_roundedSqrt hF hkk, four_pow_eq_mul_self, mul_mul_mul_comm, roundedSqrt_mul_self,
    Nat.shiftLeft_eq]

/-- R129 under `floor`: dropping the fractional bits of FSQRT leaves ISQRT. -/
theorem fixedSqrt_shiftRight_of_floor {c : Config} (hF : c.fsqrtFrac ≤ 15)
    (hround : c.fsqrtRound = .floor) {x : Word} (hx : x.toNat < 2 ^ 31) :
    fixedSqrt c x.toNat >>> c.fsqrtFrac = (integerSqrt x).toNat := by
  rw [fixedSqrt_eq_roundedSqrt hF hx.le, hround, roundedSqrt_floor, sqrt_mul_four_pow_shiftRight,
    integerSqrt_toNat]

/-- R129 under `nearest`: 32 is nearer to 6 * 6 than to 5 * 5. -/
theorem fixedSqrt_eight_of_nearest {c : Config} (hF : c.fsqrtFrac = 1)
    (hround : c.fsqrtRound = .nearest) : fixedSqrt c 8 = 6 := by
  have hroot : Nat.sqrt 32 = 5 := (Nat.eq_sqrt.2 (by decide)).symm
  rw [fixedSqrt_eq_roundedSqrt (by omega) (by norm_num), hF, hround, roundedSqrt_nearest,
    show 8 * 4 ^ 1 = 32 from rfl, hroot, if_pos (by decide)]

/-! ### What the two operations answer -/

/-- R120: ISQRT completes and writes nothing but the result record. -/
theorem exec_isqrt_eq (x : Word) (s : State) :
    exec (.isqrt x) s = .next { s with result := .isqrt (integerSqrt x) } := rfl

theorem exec_fsqrt_eq (x : Word) (s : State) : exec (.fsqrt x) s = execFsqrt x s := by
  rfl

/-- R128: FSQRT of a negative operand, with the treatment of R320. -/
theorem exec_fsqrt_of_neg_of_fault {x : Word} {s : State} (hx : x.toInt < 0)
    (hu : s.cfg.undefinedAs = .fault) : exec (.fsqrt x) s = .fault .fsqrtDomain := by
  rw [exec_fsqrt_eq, execFsqrt_eq, if_pos hx, hu]

/-- R128: FSQRT of a negative operand, on the running hardware (log entry 7). -/
theorem exec_fsqrt_of_neg_of_run {x : Word} {s : State} (hx : x.toInt < 0)
    (hu : s.cfg.undefinedAs = .run) :
    exec (.fsqrt x) s = .next { s with result := .fsqrt (s.cfg.fsqrtOfNegative x) } := by
  rw [exec_fsqrt_eq, execFsqrt_eq, if_pos hx, hu, State.withResult]

/-- R120, R125: FSQRT of any other operand completes and writes nothing but the result record. -/
theorem exec_fsqrt_of_nonneg {x : Word} {s : State} (hx : 0 ≤ x.toInt) :
    exec (.fsqrt x) s
      = .next { s with result := .fsqrt (BitVec.ofNat 32 (fixedSqrt s.cfg x.toNat)) } := by
  rw [exec_fsqrt_eq, execFsqrt_eq, if_neg (Int.not_lt.2 hx), State.withResult]

/-- Settles O11: the value in the record is `Nat.sqrt` of the operand. -/
theorem isqrtIsFloorRoot : Obligations.IsqrtIsFloorRoot := by
  intro x s
  exact ⟨integerSqrt x, exec_isqrt_eq x s, Nat.eq_sqrt.1 (integerSqrt_toNat x)⟩

/-- Settles O12: the operand is below `2^31`, where the search of FSQRT reaches the root. -/
theorem fsqrtIsRoundedRoot : Obligations.FsqrtIsRoundedRoot := by
  intro x s hcfg
  refine ⟨exec_fsqrt_of_neg_of_fault, fun hx => ?_⟩
  obtain ⟨-, -, -, -, -, -, -, -, -, -, hF, -⟩ := configOk_capture hcfg
  have hlt : x.toNat < 2 ^ 31 := by
    have hsign := mt BitVec.toInt_neg_iff.2 (Int.not_lt.2 hx)
    omega
  obtain ⟨r, hle, hgt, hfloor, hnearest⟩ := fixedSqrt_floor hF hlt.le
  exact ⟨r, fixedSqrt s.cfg x.toNat, hle, hgt, hfloor, hnearest, fixedSqrt_lt hF hlt,
    exec_fsqrt_of_nonneg hx⟩

/-- Settles O14: monotonic, exact at the squares, and 0 as the first of them. -/
theorem fixedSqrtMonotoneAndExact : Obligations.FixedSqrtMonotoneAndExact := by
  intro c hF
  refine ⟨fun a b hab hb => fixedSqrt_mono hF hab hb.le, fun k hk => fixedSqrt_mul_self hF hk, ?_⟩
  calc fixedSqrt c 0 = fixedSqrt c (0 * 0) := by rw [Nat.zero_mul]
    _ = 0 <<< c.fsqrtFrac := fixedSqrt_mul_self hF (Nat.zero_le _)
    _ = 0 := Nat.zero_shiftLeft _

/-- Settles O15: the relation under `floor`, and the operand 8 that breaks it under `nearest`. -/
theorem fixedSqrtRefinesIntegerSqrt : Obligations.FixedSqrtRefinesIntegerSqrt := by
  refine ⟨fun c x hF hround hx => fixedSqrt_shiftRight_of_floor hF hround hx,
    fun c hF hround => ⟨fixedSqrt_eight_of_nearest hF hround, ?_⟩⟩
  rw [integerSqrt_toNat]
  exact (Nat.eq_sqrt.2 (by decide)).symm

/-- Settles O13: the free value is what the running hardware returns. -/
theorem fsqrtOfNegativeRuns : Obligations.FsqrtOfNegativeRuns := by
  intro x s hx hu
  exact exec_fsqrt_of_neg_of_run hx hu

end Sys2Proof.Machine

namespace Sys2Proof.Machine

/-! ## The transform (`41_fft.md`)

`passes` carries the half-length, the phase shift and the halvings from one pass to the next. Here the
arrays stand as a sequence, `arraysAfter`, of which pass `t` is known from `t` alone; R152 and the zero
arrays are then facts about one term of it. -/

/-! ### The arithmetic of one butterfly (R150, R152) -/

/-- The floor of half of `v` in a pass that halves, `v` in one that does not. -/
def halveIf (shift : Bool) (v : Int) : Int := if shift then v / 2 else v

theorem ite_shiftRight_one (shift : Bool) (v : Int) :
    (if shift then v >>> (1 : Nat) else v) = halveIf shift v := by
  rw [Int.shiftRight_eq_div_pow, pow_one]
  rfl

/-- R150: shifting down by 14, then halving half up, rounds the product once at `2^15`. -/
theorem mpy_eq_roundedProduct (a b : Int) : mpy a b = roundedProduct a b := by
  have hround : a * b / 2 ^ 14 / 2 ^ 1 + a * b / 2 ^ 14 % 2 = (a * b + 2 ^ 14) / 2 ^ 15 := by
    generalize a * b = p
    omega
  rw [roundedProduct, ← hround, mpy, Int.shiftRight_eq_div_pow, Int.shiftRight_eq_div_pow]
  rfl

/-- Negating an s16 twice gives it back, the wrap at -32768 included. -/
theorem asS16_neg_asS16_neg (x : Half) : asS16 (-(asS16 (-x.toInt)).toInt) = x := by
  simp only [asS16, BitVec.ofInt_neg, BitVec.ofInt_toInt, neg_neg]

/-- R152: the twiddle factor of either direction. -/
theorem twiddle_eq (c : Config) (inv shift : Bool) (j : Nat) :
    twiddle c inv shift j = (halveIf shift (sine c (j + c.period / 4)),
      halveIf shift (if inv then sine c j else (asS16 (-sine c j)).toInt)) := by
  have hneg : (asS16 (-(asS16 (-sine c j)).toInt)).toInt = sine c j :=
    congrArg BitVec.toInt (asS16_neg_asS16_neg _)
  rw [← ite_shiftRight_one, ← ite_shiftRight_one, twiddle, hneg]
  cases shift <;> rfl

/-- R152: the sum and the difference of the element at `i` and the one at `p` times the twiddle
factor. -/
theorem butterfly_eq (wr wi : Int) (shift : Bool) (xi xp : Point) :
    butterfly (wr, wi) shift xi xp =
      let tr := (asS16 (roundedProduct wr xp.1.toInt - roundedProduct wi xp.2.toInt)).toInt
      let ti := (asS16 (roundedProduct wi xp.1.toInt + roundedProduct wr xp.2.toInt)).toInt
      ((asS16 (halveIf shift xi.1.toInt + tr), asS16 (halveIf shift xi.2.toInt + ti)),
        (asS16 (halveIf shift xi.1.toInt - tr), asS16 (halveIf shift xi.2.toInt - ti))) := by
  simp only [butterfly, mpy_eq_roundedProduct, ite_shiftRight_one]

/-! ### The reordering (R151) -/

/-- R151: place `i` holds the element whose index is `i` reversed. -/
theorem reorder_getElem? {m i : Nat} {xs : List Point} (h : xs.length = 2 ^ m) (hi : i < 2 ^ m) :
    (reorder m xs)[i]? = xs[bitReverse m i]? := by
  have hr : bitReverse m i < xs.length := h ▸ (bitReverse_spec m i).1
  rw [reorder, List.getElem?_map, List.getElem?_range hi, Option.map_some,
    List.getD_eq_getElem _ _ hr, List.getElem?_eq_getElem hr]

/-! ### The passes as a sequence of arrays (R152) -/

/-- Whether a pass over `xs` halves. -/
def passHalves (inv : Bool) (xs : List Point) : Bool := if inv then needsHalving xs else true

/-- R152: always in the forward direction, else when an element exceeds 16383 in magnitude. -/
theorem passHalves_iff {inv : Bool} {xs : List Point} : passHalves inv xs = true ↔
    inv = false ∨ ∃ p ∈ xs, 16383 < p.1.toInt.natAbs ∨ 16383 < p.2.toInt.natAbs := by
  cases inv <;> simp [passHalves, needsHalving]

/-- The arrays after `t` of the `m` passes from `xs`. -/
def arraysAfter (c : Config) (m : Nat) (inv : Bool) (xs : List Point) : Nat → List Point
  | 0 => xs
  | t + 1 =>
    blocksPass c inv (passHalves inv (arraysAfter c m inv xs t)) (2 ^ t) (c.logPeriod - 1 - t)
      (2 ^ (m - 1 - t)) (arraysAfter c m inv xs t)

/-- The halvings that the first `t` passes count: those of the inverse direction (R145). -/
def halvingsAfter (c : Config) (m : Nat) (inv : Bool) (xs : List Point) (t : Nat) : Nat :=
  if inv then ((List.range t).filter fun t => passHalves inv (arraysAfter c m inv xs t)).length
  else 0

theorem halvingsAfter_succ (c : Config) (m : Nat) (inv : Bool) (xs : List Point) (t : Nat) :
    halvingsAfter c m inv xs (t + 1) =
      if inv && passHalves inv (arraysAfter c m inv xs t) then halvingsAfter c m inv xs t + 1
      else halvingsAfter c m inv xs t := by
  cases inv with
  | false => rfl
  | true =>
    simp only [halvingsAfter, if_true, Bool.true_and, List.range_succ, List.filter_append,
      List.length_append]
    cases h : passHalves true (arraysAfter c m true xs t) <;> simp [h]

/-- Pass `t` of `m` works on `2^(m - 1 - t)` blocks of twice `2^t` elements. -/
theorem two_pow_eq_blocks {m t : Nat} (ht : t < m) : 2 ^ m = 2 ^ (m - 1 - t) * (2 * 2 ^ t) := by
  rw [← Nat.pow_succ', ← Nat.pow_add]
  congr 1
  omega

theorem arraysAfter_length (c : Config) (inv : Bool) {m t : Nat} {xs : List Point}
    (h : xs.length = 2 ^ m) (ht : t ≤ m) : (arraysAfter c m inv xs t).length = 2 ^ m := by
  induction t with
  | zero => exact h
  | succ t ih =>
    have hblocks := two_pow_eq_blocks ht
    rw [arraysAfter, hblocks, blocksPass_length]
    rw [← hblocks, ih (Nat.le_of_succ_le ht)]

/-- The `n` passes that are left after `t` of them end at the last arrays, with all halvings. -/
theorem passes_arraysAfter (c : Config) (inv : Bool) {m n t : Nat} (xs : List Point)
    (h : t + n = m) :
    passes c inv n (2 ^ t) (c.logPeriod - 1 - t) (halvingsAfter c m inv xs t)
        (arraysAfter c m inv xs t)
      = (arraysAfter c m inv xs m, halvingsAfter c m inv xs m) := by
  induction n generalizing t with
  | zero =>
    obtain rfl : t = m := h
    rfl
  | succ n ih =>
    have hnext := ih (t := t + 1) (by omega)
    have hblocks : m - 1 - t = n := by omega
    rw [halvingsAfter_succ, arraysAfter, hblocks, Nat.pow_succ', ← Nat.sub_sub] at hnext
    exact hnext

/-- R150 to R152: the reference is the last arrays, with `scale` the halvings. -/
theorem fftReference_eq (c : Config) (m : Nat) (inv : Bool) (re im : List Half) :
    fftReference c m inv re im =
      ⟨(arraysAfter c m inv (reorder m (re.zip im)) m).map Prod.fst,
        (arraysAfter c m inv (reorder m (re.zip im)) m).map Prod.snd,
        BitVec.ofNat 5 (halvingsAfter c m inv (reorder m (re.zip im)) m)⟩ := by
  have hscale : halvingsAfter c m inv (reorder m (re.zip im)) 0 = 0 := ite_self 0
  have hpasses := passes_arraysAfter c inv (reorder m (re.zip im)) (Nat.zero_add m)
  rw [hscale] at hpasses
  exact congrArg (fun r : List Point × Nat =>
    (⟨r.1.map Prod.fst, r.1.map Prod.snd, BitVec.ofNat 5 r.2⟩ : Spectrum)) hpasses

/-! ### The elements that a pass pairs (R152) -/

/-- With bit `t` zero, `i` stands in the lower half of its block, at place `i % 2^t`. -/
theorem eq_block_add_mod {i t : Nat} (h : i.testBit t = false) :
    i = i / 2 ^ t / 2 * (2 * 2 ^ t) + i % 2 ^ t := by
  have hbit : i / 2 ^ t % 2 = 0 := by simpa [Nat.testBit_eq_decide_div_mod_eq] using h
  have heven : i / 2 ^ t = i / 2 ^ t / 2 * 2 := by omega
  calc i = i / 2 ^ t * 2 ^ t + i % 2 ^ t := (Nat.div_add_mod' i (2 ^ t)).symm
    _ = i / 2 ^ t / 2 * 2 * 2 ^ t + i % 2 ^ t := by rw [← heven]
    _ = i / 2 ^ t / 2 * (2 * 2 ^ t) + i % 2 ^ t := by rw [Nat.mul_assoc]

/-- What pass `t` makes of the elements `xi` and `xp` at `i` and `i + 2^t`. -/
def pairAfter (c : Config) (inv : Bool) (t i : Nat) (shift : Bool) (xi xp : Point) : Point × Point :=
  butterfly (twiddle c inv shift (i % 2 ^ t * 2 ^ (c.logPeriod - 1 - t))) shift xi xp

/-- R152: pass `t` leaves at `i` and at `i + 2^t` the butterfly of the two elements there. -/
theorem arraysAfter_succ_getElem? (c : Config) (inv : Bool) {m t i : Nat} {xs : List Point}
    (h : xs.length = 2 ^ m) (ht : t < m) (hi : i < 2 ^ m) (hbit : i.testBit t = false) :
    ∃ xi xp, (arraysAfter c m inv xs t)[i]? = some xi
      ∧ (arraysAfter c m inv xs t)[i + 2 ^ t]? = some xp
      ∧ (arraysAfter c m inv xs (t + 1))[i]? = some (pairAfter c inv t i
          (passHalves inv (arraysAfter c m inv xs t)) xi xp).1
      ∧ (arraysAfter c m inv xs (t + 1))[i + 2 ^ t]? = some (pairAfter c inv t i
          (passHalves inv (arraysAfter c m inv xs t)) xi xp).2 := by
  have hlength : (arraysAfter c m inv xs t).length = 2 ^ (m - 1 - t) * (2 * 2 ^ t) := by
    rw [arraysAfter_length c inv h ht.le, two_pow_eq_blocks ht]
  have hblock : i / 2 ^ t / 2 < 2 ^ (m - 1 - t) := by
    rw [Nat.div_div_eq_div_mul, Nat.mul_comm, Nat.div_lt_iff_lt_mul (by positivity),
      ← two_pow_eq_blocks ht]
    exact hi
  obtain ⟨xi, xp, hxi, hxp, hyi, hyp⟩ := blocksPass_getElem? c inv
    (passHalves inv (arraysAfter c m inv xs t)) (k := c.logPeriod - 1 - t) hlength hblock
    (Nat.mod_lt i (Nat.two_pow_pos t))
  rw [← eq_block_add_mod hbit] at hxi hxp hyi hyp
  rw [Nat.shiftLeft_eq] at hyi hyp
  exact ⟨xi, xp, hxi, hxp, hyi, hyp⟩

/-! ### Zero arrays -/

/-- A butterfly of zeros is zero, whatever the twiddle factor. -/
theorem butterfly_zero (w : Int × Int) (shift : Bool) :
    butterfly w shift (0, 0) (0, 0) = ((0, 0), (0, 0)) := by
  obtain ⟨wr, wi⟩ := w
  have hproduct (a : Int) : roundedProduct a 0 = 0 := by rw [roundedProduct, mul_zero]; rfl
  have hhalf : halveIf shift 0 = 0 := by cases shift <;> rfl
  have hzero : (0 : Half).toInt = 0 := rfl
  simp only [butterfly_eq, hzero, hproduct, hhalf]
  rfl

/-- Every element that a block's pass leaves comes from a butterfly of two of its elements. -/
theorem mem_blockPass {c : Config} {inv shift : Bool} {l k : Nat} {block : List Point} {y : Point}
    (h : y ∈ blockPass c inv shift l k block) : ∃ w, ∃ xi ∈ block, ∃ xp ∈ block,
      y = (butterfly w shift xi xp).1 ∨ y = (butterfly w shift xi xp).2 := by
  simp only [blockPass, List.map_map, List.mem_append, List.mem_map] at h
  obtain ⟨e, he, rfl⟩ | ⟨e, he, rfl⟩ := h <;>
    obtain ⟨hi, hp⟩ := List.of_mem_zip (List.fst_mem_of_mem_zipIdx he)
  · exact ⟨_, _, List.mem_of_mem_take hi, _, List.mem_of_mem_drop hp, .inl rfl⟩
  · exact ⟨_, _, List.mem_of_mem_take hi, _, List.mem_of_mem_drop hp, .inr rfl⟩

/-- A pass keeps zero arrays zero. -/
theorem blocksPass_eq_zero (c : Config) (inv shift : Bool) (l k n : Nat) {xs : List Point}
    (h : ∀ x ∈ xs, x = (0, 0)) : ∀ y ∈ blocksPass c inv shift l k n xs, y = (0, 0) := by
  induction n generalizing xs with
  | zero => simp [blocksPass]
  | succ n ih =>
    intro y hy
    rw [blocksPass, List.mem_append] at hy
    obtain hblock | hrest := hy
    · obtain ⟨w, xi, hxi, xp, hxp, hor⟩ := mem_blockPass hblock
      rw [h xi (List.mem_of_mem_take hxi), h xp (List.mem_of_mem_take hxp), butterfly_zero] at hor
      exact hor.elim id id
    · exact ih (fun x hx => h x (List.mem_of_mem_drop hx)) y hrest

theorem reorder_replicate_zero (m : Nat) :
    reorder m (List.replicate (2 ^ m) (0, 0)) = List.replicate (2 ^ m) (0, 0) := by
  refine List.ext_getElem? fun i => ?_
  by_cases hi : i < 2 ^ m
  · rw [reorder_getElem? List.length_replicate hi,
      List.getElem?_replicate_of_lt (bitReverse_spec m i).1, List.getElem?_replicate_of_lt hi]
  · rw [List.getElem?_eq_none (by simpa using hi), List.getElem?_eq_none (by simpa using hi)]

theorem arraysAfter_replicate_zero (c : Config) (inv : Bool) {m t : Nat} (ht : t ≤ m) :
    arraysAfter c m inv (List.replicate (2 ^ m) (0, 0)) t = List.replicate (2 ^ m) (0, 0) := by
  refine List.eq_replicate_iff.2 ⟨arraysAfter_length c inv List.length_replicate ht, ?_⟩
  clear ht
  induction t with
  | zero => exact fun x hx => List.eq_of_mem_replicate hx
  | succ t ih => exact blocksPass_eq_zero _ _ _ _ _ _ ih

/-- R152: zeros are never halved in the inverse direction. -/
theorem halvingsAfter_replicate_zero (c : Config) (m : Nat) (inv : Bool) :
    halvingsAfter c m inv (List.replicate (2 ^ m) (0, 0)) m = 0 := by
  cases inv with
  | false => rfl
  | true =>
    refine List.length_eq_zero_iff.2 (List.filter_eq_nil_iff.2 fun t ht hhalves => ?_)
    rw [arraysAfter_replicate_zero c true (List.mem_range.1 ht).le, passHalves_iff] at hhalves
    obtain hdir | ⟨p, hp, hlarge⟩ := hhalves
    · cases hdir
    · obtain rfl := List.eq_of_mem_replicate hp
      exact absurd hlarge (by decide)

/-- The reference transform of silence is silence. -/
theorem fftReference_zero (c : Config) (m : Nat) (inv : Bool) :
    fftReference c m inv (List.replicate (2 ^ m) 0) (List.replicate (2 ^ m) 0)
      = ⟨List.replicate (2 ^ m) 0, List.replicate (2 ^ m) 0, 0⟩ := by
  rw [fftReference_eq, List.zip_replicate', reorder_replicate_zero,
    arraysAfter_replicate_zero c inv le_rfl, halvingsAfter_replicate_zero, List.map_replicate,
    List.map_replicate]
  rfl

/-! ### What the operation answers -/

/-- R140: FFT of a legal length completes and writes nothing but the result record. -/
theorem exec_fft_of_legal {s : State} {m : BitVec 5} {inv : Bool} {re im : List Half}
    (h : fftLegal s.cfg m re im = true) :
    exec (.fft m inv re im) s = .next { s with
      result := .fft (fftApply s.cfg m.toNat inv re im).re (fftApply s.cfg m.toNat inv re im).im
        (fftApply s.cfg m.toNat inv re im).scale } :=
  if_pos h

/-- R145: a forward transform under the reference returns `scale` 0. -/
theorem fftApply_forward_scale {c : Config} (h : c.transform = .reference) (m : Nat)
    (re im : List Half) : (fftApply c m false re im).scale = 0 := by
  rw [fftApply, h]
  exact congrArg (BitVec.ofNat 5) (passes_forward_scale c m 1 (c.logPeriod - 1) 0 _)

/-- Settles O17: the arrays are `arraysAfter`, from the reordering on. -/
theorem referenceFftReordersAndPasses : Obligations.ReferenceFftReordersAndPasses := by
  refine ⟨fun c m inv re im hre him => ?_, fftReference_zero⟩
  have hlength : (reorder m (re.zip im)).length = 2 ^ m := reorder_length m _
  refine ⟨arraysAfter c m inv (reorder m (re.zip im)),
    fun t => passHalves inv (arraysAfter c m inv (reorder m (re.zip im)) t),
    fun t ht => arraysAfter_length c inv hlength ht, fun i hi => ?_, fun t _ => passHalves_iff,
    fun t ht i hi hbit => ?_, fftReference_eq c m inv re im⟩
  · obtain ⟨hr, hbits⟩ := bitReverse_spec m i
    have hplace : (arraysAfter c m inv (reorder m (re.zip im)) 0)[i]?
        = (re.zip im)[bitReverse m i]? := reorder_getElem? (by simp [hre, him]) hi
    refine ⟨bitReverse m i, hr, hbits, ?_, ?_⟩
    · rw [hplace, ← List.getElem?_map, List.map_fst_zip (by omega)]
    · rw [hplace, ← List.getElem?_map, List.map_snd_zip (by omega)]
  · obtain ⟨xi, xp, hxi, hxp, hyi, hyp⟩ := arraysAfter_succ_getElem? c inv hlength ht hi hbit
    rw [pairAfter, twiddle_eq, butterfly_eq] at hyi hyp
    exact ⟨xi, xp, hxi, hxp, hyi, hyp⟩

/-- Settles O16: the length is legal, and what FFT returns is the configuration function. -/
theorem fftReturnsTransform : Obligations.FftReturnsTransform := by
  intro m inv re im s hm hmax hre him
  obtain ⟨hlengthRe, hlengthIm⟩ := fftApply_length s.cfg m.toNat inv re im
  refine ⟨_, _, _, exec_fft_of_legal (fftLegal_iff.2 ⟨hm, hmax, hre, him⟩), rfl, hlengthRe,
    hlengthIm, ?_⟩
  rintro rfl href
  exact fftApply_forward_scale href m.toNat re im

end Sys2Proof.Machine

namespace Sys2Proof.Machine

/-! ## What one SAMPLE of a good state does (`42_capture.md` R161 to R167)

Each step's effect is stated once, then carried through the later steps to the state SAMPLE ends in. -/

theorem exec_sample_eq (raw : Half) (an : Analog) (s : State) :
    exec (.sample raw an) s = execSample raw an s := by
  rfl

/-- SAMPLE of a good state completes, so what holds of every state it completes with is what it does. -/
theorem exec_sample_of_forall {raw : Half} {an : Analog} {s : State} {P : State → Prop} (h : s.Inv)
    (hl : sampleLegal s.cfg raw an = true) (hP : ∀ t, execSample raw an s = .next t → P t) :
    ∃ t, exec (.sample raw an) s = .next t ∧ P t := by
  obtain ⟨t, ht⟩ := execSample_completes h hl
  exact ⟨t, (exec_sample_eq raw an s).trans ht, hP t ht⟩

theorem execSample_cfg {raw : Half} {an : Analog} {s t : State} (he : execSample raw an s = .next t) :
    t.cfg = s.cfg := by
  rw [(execSample_frame he).1]

/-- R69: what every element reads as after a write of one element. -/
theorem halfAt_of_writeHalves_singleton {sp : HalfSpace} {base : Nat} {v : Half} {s t : State}
    (hw : writeHalves sp base [v] s = .ok t) (h : s.MemoryInv) (q : HalfSpace) (p : Nat) :
    t.halfAt q p = if q = sp ∧ p = base then some v else s.halfAt q p := by
  rw [halfAt_of_writeHalves hw (h.half sp).1]
  by_cases hp : q = sp ∧ p = base
  · obtain ⟨rfl, rfl⟩ := hp
    simp
  · rw [if_neg hp, if_neg]
    rintro ⟨hq, hlow, hhigh⟩
    rw [List.length_singleton] at hhigh
    exact hp ⟨hq, by omega⟩

/-! ### Step 1, the average (R163) -/

/-- No later step writes `AVG`. -/
theorem execSample_avg {raw : Half} {an : Analog} {s t : State} (he : execSample raw an s = .next t) :
    t.avg = (sampleAverage raw s).avg := by
  obtain ⟨-, a, b, c, hdec, hstore, hflip, rfl⟩ := execSample_eq_next.1 he
  rw [State.withResult_avg, sampleFlip_frame hflip, (sampleStore_frame hstore).1,
    sampleDecimate_frame hdec]

/-- Every later step uses the `dc` that SAMPLE ends with. -/
theorem execSample_dc {raw : Half} {an : Analog} {s t : State} (he : execSample raw an s = .next t) :
    (sampleAverage raw s).dc = t.dc := by
  rw [State.dc, State.dc, execSample_avg he, execSample_cfg he]
  rfl

/-- R36, R163: `dc` is a possible reading. -/
theorem execSample_dc_range {raw : Half} {an : Analog} {s t : State} (h : s.Inv)
    (he : execSample raw an s = .next t) : 0 ≤ t.dc ∧ t.dc ≤ rawMax s.cfg := by
  obtain ⟨-, -, ⟨-, -, -, -, h0, h1, -⟩, -⟩ := execSample_keeps_inv h he
  rw [← execSample_cfg he]
  exact dc_range h0 h1

/-- R163, R286: a reading and `dc` differ by less than s16 holds, so what is stored is the difference. -/
theorem asS16_sub_dc_toInt {raw : Half} {an : Analog} {s t : State} {v : Nat} (h : s.Inv)
    (he : execSample raw an s = .next t) (hv : v ≤ rawMax s.cfg) :
    (asS16 (v - t.dc)).toInt = v - t.dc := by
  obtain ⟨h0, h1⟩ := execSample_dc_range h he
  have hmax := rawMax_lt h.1
  exact asS16_toInt (by omega) (by omega)

/-! ### Step 2, the decimation (R164) -/

/-- The K-th sample writes one element of the ring and starts the next sum. -/
theorem sampleDecimate_of_last {raw : Half} {s t : State} (hd : sampleDecimate raw s = .ok t)
    (h : s.MemoryInv) (hk : s.decCnt + 1 = s.cfg.k) :
    (∀ p, t.halfAt .ring p =
      if p = s.head then
        some (asS16 ((((s.decAcc.toNat + raw.toNat) / s.cfg.k : Nat) : Int) - s.dc))
      else s.halfAt .ring p)
    ∧ t.head = (s.head + 1) % s.cfg.nLow ∧ t.decAcc = 0 ∧ t.decCnt = 0 := by
  rcases sampleDecimate_eq_ok.1 hd with ⟨-, r, hw, rfl⟩ | ⟨hne, -⟩
  · refine ⟨fun p => ?_, rfl, rfl, rfl⟩
    rw [State.setDecimation_halfAt, halfAt_of_writeHalves_singleton hw h]
    simp only [true_and]
  · exact absurd hk hne

/-- Any other sample only adds to the sum. -/
theorem sampleDecimate_of_not_last {raw : Half} {s t : State} (hd : sampleDecimate raw s = .ok t)
    (hk : s.decCnt + 1 ≠ s.cfg.k) :
    t = s.setDecimation (BitVec.ofNat 32 (s.decAcc.toNat + raw.toNat)) (s.decCnt + 1) s.head := by
  rcases sampleDecimate_eq_ok.1 hd with ⟨heq, -⟩ | ⟨-, rfl⟩
  · exact absurd heq hk
  · rfl

/-- What step 2 leaves in the ring and the decimation registers stands to the end of SAMPLE. -/
theorem execSample_keeps_decimated {raw : Half} {an : Analog} {s t : State}
    (he : execSample raw an s = .next t) :
    ∃ a, sampleDecimate raw (sampleAverage raw s) = .ok a
      ∧ (∀ p, t.halfAt .ring p = a.halfAt .ring p)
      ∧ t.head = a.head ∧ t.decAcc = a.decAcc ∧ t.decCnt = a.decCnt := by
  obtain ⟨-, a, b, c, hdec, hstore, hflip, rfl⟩ := execSample_eq_next.1 he
  have hc : c.ring = a.ring ∧ c.head = a.head ∧ c.decAcc = a.decAcc ∧ c.decCnt = a.decCnt := by
    rw [sampleFlip_frame hflip, (sampleStore_frame hstore).1]
    exact ⟨rfl, rfl, rfl, rfl⟩
  obtain ⟨hring, hregisters⟩ := hc
  refine ⟨a, hdec, fun p => ?_, hregisters⟩
  exact congrArg (fun m => Mem.read (some 0) m p) hring

/-- R36, R286: the sum of a window of readings, each at most `2^RAW_BITS - 1`. -/
theorem decAcc_add_le_mul {s : State} {raw : Half} (h : s.Inv) (hr : raw.toNat ≤ rawMax s.cfg) :
    s.decAcc.toNat + raw.toNat ≤ s.cfg.k * rawMax s.cfg := by
  obtain ⟨-, -, ⟨-, -, hcnt, hacc, -⟩, -⟩ := h
  calc s.decAcc.toNat + raw.toNat
      ≤ s.decCnt * rawMax s.cfg + rawMax s.cfg := Nat.add_le_add hacc hr
    _ = (s.decCnt + 1) * rawMax s.cfg := (Nat.succ_mul _ _).symm
    _ ≤ s.cfg.k * rawMax s.cfg := Nat.mul_le_mul_right _ hcnt

/-- R286: the sum never wraps the u32 of `DEC_ACC`. -/
theorem decAcc_add_toNat {s : State} {raw : Half} (h : s.Inv) (hr : raw.toNat ≤ rawMax s.cfg) :
    (BitVec.ofNat 32 (s.decAcc.toNat + raw.toNat)).toNat = s.decAcc.toNat + raw.toNat := by
  obtain ⟨-, -, -, -, -, -, hk, -⟩ := configOk_capture h.1
  rw [BitVec.toNat_ofNat, Nat.mod_eq_of_lt ((decAcc_add_le_mul h hr).trans_lt hk)]

/-! ### Step 3, the store (R165) -/

/-- The one element of the two sides that SAMPLE writes. -/
theorem execSample_high {raw : Half} {an : Analog} {s t : State} (h : s.Inv)
    (he : execSample raw an s = .next t) (side : Side) (p : Nat) :
    t.halfAt (.high side) p =
      if side = s.active ∧ p = s.writePos then some (asS16 (raw.toNat - t.dc))
      else s.halfAt (.high side) p := by
  have hdc := execSample_dc he
  obtain ⟨hlegal, a, b, c, hdec, hstore, hflip, rfl⟩ := execSample_eq_next.1 he
  obtain ⟨hr, -⟩ := sampleLegal_iff.1 hlegal
  have ⟨_, _, _, ha⟩ := (h.sampleAverage hr).sampleDecimate hr hdec
  have hbefore : a.active = s.active ∧ a.writePos = s.writePos ∧ a.dc = (sampleAverage raw s).dc
      ∧ a.halfAt (.high side) p = s.halfAt (.high side) p := by
    rw [sampleDecimate_frame hdec]
    cases side <;> exact ⟨rfl, rfl, rfl, rfl⟩
  have hafter : c.halfAt (.high side) p = b.halfAt (.high side) p := by
    rw [sampleFlip_frame hflip]
    cases side <;> rfl
  obtain ⟨hactive, hpos, hadc, hhigh⟩ := hbefore
  obtain ⟨r, hw, rfl⟩ := sampleStore_eq_ok.1 hstore
  rw [State.withResult_halfAt, hafter, State.setWritePos_halfAt,
    halfAt_of_writeHalves_singleton hw ha, hactive, hpos, hadc, hdc, hhigh]
  simp only [HalfSpace.high.injEq]

/-! ### Step 4, the flip (R167) -/

/-- The state step 4 starts from: `WRITE_POS` is one further, the hand-off as before SAMPLE. -/
theorem execSample_before_flip {raw : Half} {an : Analog} {s t : State} (h : s.Inv)
    (he : execSample raw an s = .next t) :
    ∃ b c, sampleFlip an b = .ok c ∧ c.withResult .empty = t ∧ b.MemoryInv ∧ b.head < b.cfg.nLow
      ∧ b.cfg = s.cfg ∧ b.writePos = s.writePos + 1 ∧ b.active = s.active ∧ SameHandOff s b := by
  obtain ⟨hlegal, a, b, c, hdec, hstore, hflip, hc⟩ := execSample_eq_next.1 he
  obtain ⟨hr, -⟩ := sampleLegal_iff.1 hlegal
  have ha : a.Inv := (h.sampleAverage hr).sampleDecimate hr hdec
  obtain ⟨-, hb⟩ := ha.sampleStore hstore
  obtain ⟨-, -, ⟨-, hhead, -⟩, hmem⟩ := hb 0 (nHigh_pos _)
  refine ⟨b, c, hflip, hc, hmem, hhead, ?_⟩
  rw [(sampleStore_frame hstore).1, sampleDecimate_frame hdec]
  exact ⟨rfl, rfl, rfl, rfl, rfl, rfl, rfl⟩

/-- R167, R82: the flip snapshots the ring and the analog readings, and publishes the window. -/
theorem sampleFlip_of_full {an : Analog} {s t : State} (hf : sampleFlip an s = .ok t)
    (h : s.MemoryInv) (hhead : s.head < s.cfg.nLow) (hpos : s.writePos = s.cfg.nHigh) :
    (∀ i < s.cfg.nLow, t.halfAt .lowSnap i = s.halfAt .ring ((s.head + i) % s.cfg.nLow))
    ∧ (∀ k < 6, t.halfAt .analogSnap k = an.toList[k]?)
    ∧ t.active = s.active.other ∧ t.writePos = 0 ∧ t.frameReady = true ∧ t.own = false := by
  rcases sampleFlip_eq_ok.1 hf with ⟨-, snap, a, b, hsnap, hlow, han, rfl⟩ | ⟨hne, -⟩
  · obtain ⟨hlen, hring⟩ := ringFromHead_eq_ok hhead hsnap
    have hanalog := halfAt_of_writeHalves han ((h.writeHalves hlow).half _).1
    refine ⟨fun i hi => ?_, fun k hk => ?_, rfl, rfl, rfl, rfl⟩
    · rw [State.setHandOff_halfAt, State.setWritePos_halfAt, hanalog, if_neg nofun,
        halfAt_of_writeHalves hlow (h.half _).1, if_pos ⟨rfl, by omega, by omega⟩, Nat.sub_zero,
        hring i hi]
    · rw [State.setHandOff_halfAt, State.setWritePos_halfAt, hanalog,
        if_pos ⟨rfl, by omega, by simpa [Analog.toList] using hk⟩, Nat.sub_zero]
  · exact absurd hpos hne

/-- R167: the last sample of a window flips. -/
theorem execSample_of_last {raw : Half} {an : Analog} {s t : State} (h : s.Inv)
    (he : execSample raw an s = .next t) (hlast : s.writePos + 1 = s.cfg.nHigh) :
    (∀ i < s.cfg.nLow, t.halfAt .lowSnap i = t.halfAt .ring ((t.head + i) % s.cfg.nLow))
    ∧ (∀ k < 6, t.halfAt .analogSnap k = an.toList[k]?)
    ∧ t.active = s.active.other ∧ t.writePos = 0 ∧ t.frameReady = true ∧ t.own = false := by
  obtain ⟨b, c, hflip, rfl, hmem, hhead, hcfg, hpos, hactive, -⟩ := execSample_before_flip h he
  have hring : ∀ p, c.halfAt .ring p = b.halfAt .ring p := by
    rw [sampleFlip_frame hflip]
    exact fun p => rfl
  have hhead' : c.head = b.head := by rw [sampleFlip_frame hflip]
  obtain ⟨hlow, han, hregisters⟩ := sampleFlip_of_full hflip hmem hhead (by rw [hpos, hcfg, hlast])
  rw [hactive] at hregisters
  refine ⟨fun i hi => ?_, fun k hk => ?_, hregisters⟩
  · rw [State.withResult_halfAt, State.withResult_halfAt, State.withResult_head, hring,
      hhead', ← hcfg]
    exact hlow i (by rwa [hcfg])
  · rw [State.withResult_halfAt, han k hk]

/-- R167: before the end of a window nothing of the hand-off changes. -/
theorem execSample_of_not_last {raw : Half} {an : Analog} {s t : State} (h : s.Inv)
    (he : execSample raw an s = .next t) (hne : s.writePos + 1 ≠ s.cfg.nHigh) :
    SameHandOff s t ∧ t.active = s.active ∧ t.writePos = s.writePos + 1 := by
  obtain ⟨b, c, hflip, rfl, -, -, hcfg, hpos, hactive, hhandOff⟩ := execSample_before_flip h he
  rcases sampleFlip_eq_ok.1 hflip with ⟨heq, -⟩ | ⟨-, rfl⟩
  · rw [hpos, hcfg] at heq
    exact absurd heq hne
  · exact ⟨hhandOff, hactive, hpos⟩

/-! ### The obligations about one SAMPLE, and TAKE -/

theorem exec_take_eq (s : State) : exec .take s =
    .next ((s.setHandOff s.active false (s.own || s.frameReady)).withResult
      (.take s.frameReady s.active.other)) := by
  rfl

/-- Settles O24: `OWN` is set exactly when a frame was ready. -/
theorem takeClaimsFrame : Obligations.TakeClaimsFrame := by
  intro s
  refine ⟨fun hready => ?_, fun hready => ?_⟩
  · rw [exec_take_eq, hready, Bool.or_true]
    rfl
  · rw [exec_take_eq, hready, Bool.or_false, ← hready]
    rfl

/-- Settles O18: the new average is `dcUpdate`, which does not pass the reading. -/
theorem sampleMovesAverage : Obligations.SampleMovesAverage := by
  intro raw an s h hl
  refine exec_sample_of_forall h hl fun t he => ?_
  have ⟨hcfg, _, ⟨_, _, _, _, h0, h1, _⟩, _⟩ := h
  obtain ⟨havg, -, -⟩ := sampleAverage_avg hcfg h0 h1 (sampleLegal_iff.1 hl).1
  refine ⟨?_, ?_, execSample_dc_range h he⟩
  · rw [execSample_avg he, havg]
    refine ⟨?_, dcUpdate_between s.cfg s.avg.toInt raw.toNat⟩
    simp only [dcUpdate, Int.shiftRight_eq_div_pow, Nat.cast_pow, Nat.cast_ofNat]
  · rw [State.dc, execSample_cfg he, Int.shiftRight_eq_div_pow, Nat.cast_pow, Nat.cast_ofNat]

/-- Settles O19, by the two cases of step 2 from the state step 1 leaves. -/
theorem sampleDecimates : Obligations.SampleDecimates := by
  intro raw an s h hl
  refine exec_sample_of_forall h hl fun t he => ?_
  obtain ⟨hr, -⟩ := sampleLegal_iff.1 hl
  obtain ⟨a, hdec, hring, hhead, hacc, hcnt⟩ := execSample_keeps_decimated he
  rw [hhead, hacc, hcnt]
  refine ⟨fun hk => ?_, fun hk => ?_⟩
  · have ⟨_, _, _, hmem⟩ := h.sampleAverage hr
    obtain ⟨hat, hregisters⟩ := sampleDecimate_of_last hdec hmem hk
    rw [execSample_dc he] at hat
    have hmean : (s.decAcc.toNat + raw.toNat) / s.cfg.k ≤ rawMax s.cfg :=
      Nat.div_le_of_le_mul (decAcc_add_le_mul h hr)
    refine ⟨⟨_, ?_, asS16_sub_dc_toInt h he hmean⟩, fun p hp => ?_, hregisters⟩
    · exact (hring s.head).trans ((hat s.head).trans (if_pos rfl))
    · exact (hring p).trans ((hat p).trans (if_neg hp))
  · obtain rfl := sampleDecimate_of_not_last hdec hk
    exact ⟨hring, rfl, decAcc_add_toNat (h.sampleAverage hr) hr, rfl⟩

/-- Settles O20, by the one element that SAMPLE writes. -/
theorem sampleStoresInActiveSide : Obligations.SampleStoresInActiveSide := by
  intro raw an s h hl
  refine exec_sample_of_forall h hl fun t he => ?_
  have hhigh := execSample_high h he
  have hr := (sampleLegal_iff.1 hl).1
  have hstored := asS16_sub_dc_toInt h he hr
  obtain ⟨h0, h1⟩ := execSample_dc_range h he
  refine ⟨⟨_, (hhigh _ _).trans (if_pos ⟨rfl, rfl⟩), hstored, by omega, by omega⟩,
    fun p hp => (hhigh _ p).trans (if_neg fun hat => hp hat.2),
    fun p => (hhigh _ p).trans (if_neg fun hat => s.active.other_ne hat.1), ?_⟩
  split
  next hlast =>
    obtain ⟨-, -, -, hpos, -⟩ := execSample_of_last h he hlast
    exact hpos
  next hne =>
    obtain ⟨-, -, hpos⟩ := execSample_of_not_last h he hne
    exact hpos

/-- Settles O21, by the two cases of step 4. -/
theorem sampleFlips : Obligations.SampleFlips := by
  intro raw an s h hl
  refine exec_sample_of_forall h hl fun t he => ?_
  refine ⟨execSample_of_last h he, fun hne => ?_⟩
  obtain ⟨hhandOff, hactive, -⟩ := execSample_of_not_last h he hne
  exact ⟨hhandOff, hactive⟩

/-- Settles O22: read off the frame of SAMPLE. -/
theorem sampleLeavesTheRest : Obligations.SampleLeavesTheRest := by
  intro raw an s h hl
  refine exec_sample_of_forall h hl fun t he => ?_
  rw [(execSample_frame he).1]
  exact ⟨⟨rfl, rfl, rfl, rfl⟩, ⟨rfl, rfl, rfl, rfl, rfl, rfl, rfl⟩, ⟨rfl, rfl, rfl⟩,
    rfl, rfl, rfl, rfl, rfl⟩

/-! ## A window of samples (`42_capture.md` R168, R169) -/

/-- The operations of a list of readings. -/
abbrev sampleOps (xs : List (Half × Analog)) : List Instr := xs.map (fun x => Instr.sample x.1 x.2)

theorem execAll_cons_of_next {i : Instr} {s t : State} (h : exec i s = .next t) (is : List Instr) :
    execAll (i :: is) s = execAll is t := by
  rw [execAll, h]

theorem execAll_append_of_next {is : List Instr} {s t : State} (h : execAll is s = .next t)
    (js : List Instr) : execAll (is ++ js) s = execAll js t := by
  induction is generalizing s with
  | nil =>
    cases h
    rfl
  | cons i is ih =>
    rw [execAll] at h
    split at h
    next u hu =>
      rw [List.cons_append, execAll_cons_of_next hu]
      exact ih h
    all_goals cases h

/-- What `n` samples inside one window leave: a good state, `WRITE_POS` `n` further, the hand-off and
the ready side as they were. -/
structure WindowProgress (n : Nat) (s t : State) : Prop where
  inv : t.Inv
  cfg : t.cfg = s.cfg
  handOff : SameHandOff s t
  active : t.active = s.active
  writePos : t.writePos = s.writePos + n
  ready : ∀ a, t.halfAt (.high s.active.other) a = s.halfAt (.high s.active.other) a

theorem WindowProgress.zero {s : State} (h : s.Inv) : WindowProgress 0 s s :=
  ⟨h, rfl, ⟨rfl, rfl, rfl, rfl⟩, rfl, rfl, fun _ => rfl⟩

theorem WindowProgress.trans {m n : Nat} {s t u : State} (h : WindowProgress m s t)
    (k : WindowProgress n t u) : WindowProgress (m + n) s u := by
  obtain ⟨hlow, han, hready, hown⟩ := h.handOff
  obtain ⟨klow, kan, kready, kown⟩ := k.handOff
  refine ⟨k.inv, k.cfg.trans h.cfg, ⟨klow.trans hlow, kan.trans han, kready.trans hready,
    kown.trans hown⟩, k.active.trans h.active, by rw [k.writePos, h.writePos, Nat.add_assoc],
    fun a => ?_⟩
  rw [← h.ready a, ← h.active, k.ready a]

/-- R165: SAMPLE never writes the ready side. -/
theorem execSample_ready_side {raw : Half} {an : Analog} {s t : State}
    (he : execSample raw an s = .next t) (a : Nat) :
    t.halfAt (.high s.active.other) a = s.halfAt (.high s.active.other) a :=
  congrArg (fun m => Mem.read (some 0) m a) (execSample_frame he).2

theorem execSample_windowProgress {raw : Half} {an : Analog} {s t : State} (h : s.Inv)
    (he : execSample raw an s = .next t) (hne : s.writePos + 1 ≠ s.cfg.nHigh) :
    WindowProgress 1 s t := by
  obtain ⟨hhandOff, hactive, hpos⟩ := execSample_of_not_last h he hne
  exact ⟨execSample_keeps_inv h he, execSample_cfg he, hhandOff, hactive, hpos,
    execSample_ready_side he⟩

/-- R168: samples that do not reach the end of the window, by induction on their list. -/
theorem execAll_samples_before_flip {xs : List (Half × Analog)} {s : State} (h : s.Inv)
    (hroom : s.writePos + xs.length < s.cfg.nHigh)
    (hl : ∀ x ∈ xs, sampleLegal s.cfg x.1 x.2 = true) :
    ∃ t, execAll (sampleOps xs) s = .next t ∧ WindowProgress xs.length s t := by
  induction xs generalizing s with
  | nil => exact ⟨s, rfl, .zero h⟩
  | cons x xs ih =>
    rw [List.length_cons] at hroom
    obtain ⟨t, ht⟩ := execSample_completes h (hl x List.mem_cons_self)
    have hone := execSample_windowProgress h ht (by omega)
    obtain ⟨u, hu, hrest⟩ := ih hone.inv (by rw [hone.writePos, hone.cfg]; omega)
      (fun y hy => by rw [hone.cfg]; exact hl y (List.mem_cons_of_mem _ hy))
    refine ⟨u, (execAll_cons_of_next ((exec_sample_eq ..).trans ht) _).trans hu, ?_⟩
    rw [List.length_cons, Nat.add_comm]
    exact hone.trans hrest

/-- Settles O23: all samples but the last stay inside the window, and the last one flips. -/
theorem windowOfSamplesFlipsOnce : Obligations.WindowOfSamplesFlipsOnce := by
  intro s xs h hstart hlen hl
  refine ⟨fun j hj => ?_, ?_⟩
  · have htake : (xs.take j).length = j := by rw [List.length_take]; omega
    obtain ⟨t, ht, hprogress⟩ := execAll_samples_before_flip (xs := xs.take j) h
      (by rwa [hstart, htake, Nat.zero_add]) (fun x hx => hl x (List.mem_of_mem_take hx))
    refine ⟨t, ht, hprogress.handOff, hprogress.active, ?_⟩
    rw [hprogress.writePos, hstart, htake, Nat.zero_add]
  · have hpos := nHigh_pos s.cfg
    rcases List.eq_nil_or_concat' xs with rfl | ⟨ys, y, rfl⟩
    · rw [List.length_nil] at hlen
      omega
    · rw [List.length_append, List.length_singleton] at hlen
      obtain ⟨t, ht, hprogress⟩ := execAll_samples_before_flip h (by omega)
        (fun x hx => hl x (List.mem_append_left _ hx))
      have hlegal : sampleLegal t.cfg y.1 y.2 = true := by
        rw [hprogress.cfg]
        exact hl y (List.mem_append_right _ List.mem_cons_self)
      obtain ⟨u, hu⟩ := execSample_completes hprogress.inv hlegal
      obtain ⟨-, -, hactive, hposition, hready, hown⟩ := execSample_of_last hprogress.inv hu
        (by rw [hprogress.writePos, hprogress.cfg]; omega)
      refine ⟨u, ?_, by rw [hactive, hprogress.active], hready, hposition, hown, fun a => ?_⟩
      · rw [List.map_append, execAll_append_of_next ht]
        exact execAll_cons_of_next ((exec_sample_eq ..).trans hu) []
      · rw [← hprogress.ready a, ← hprogress.active]
        exact execSample_ready_side hu a

end Sys2Proof.Machine

namespace Sys2Proof.Machine

/-! ## The window and the magnitudes (`43_analysis.md` R194, R197 to R199) -/

/-- R194: a sample times an entry that is at most `d` in magnitude (and not `-d`), over `d`, is an s16
again. -/
theorem s16_mul_ediv_range {x e d : Int} (hx : -2 ^ 15 ≤ x ∧ x < 2 ^ 15) (hd : 0 < d) (hlo : -d < e)
    (hhi : e ≤ d) : -2 ^ 15 ≤ x * e / d ∧ x * e / d < 2 ^ 15 := by
  rw [Int.le_ediv_iff_mul_le hd, Int.ediv_lt_iff_lt_mul hd]
  rcases le_or_gt 0 e with he | he
  · constructor <;> nlinarith
  · constructor <;> nlinarith

/-- Settles O25: the element is the shifted product where it fits, and the free value elsewhere. -/
theorem windowMultipliesOnce : Obligations.WindowMultipliesOnce := by
  intro c buf i x _ hx
  refine ⟨windowElement c buf.length i x, _, by rw [windowed_getElem?, hx, Option.map_some], rfl, ?_⟩
  rw [windowElement, Int.shiftRight_eq_div_pow, Nat.cast_pow, Nat.cast_ofNat]
  generalize sine c (i * (c.period / 2) / buf.length) = e
  have hx16 : -2 ^ 15 ≤ x.toInt ∧ x.toInt < 2 ^ 15 := ⟨x.le_toInt, x.toInt_lt⟩
  refine ⟨?_, s16_mul_ediv_range hx16 (by positivity), ?_⟩
  all_goals
    rcases fitS16_cases (c.windowOutside buf.length i x) (x.toInt * e / 2 ^ c.windowShift) with
      ⟨hlo, hhi, hfit⟩ | ⟨hout, hfree⟩
  · exact fun _ _ => hfit
  · exact fun hlo hhi => absurd ⟨hlo, hhi⟩ hout
  · exact fun hout => absurd ⟨hlo, hhi⟩ hout
  · exact fun _ => hfree

/-- The square of an s16 is at most `2^30`, and is that only at -32768. -/
theorem sq_natAbs_toInt_half (x : Half) :
    x.toInt.natAbs ^ 2 ≤ 2 ^ 30 ∧ (x.toInt.natAbs ^ 2 = 2 ^ 30 ↔ x.toInt = -32768) := by
  have hlo : -2 ^ 15 ≤ x.toInt := x.le_toInt
  have hhi : x.toInt < 2 ^ 15 := x.toInt_lt
  have hsq : (2 : Nat) ^ 30 = (2 ^ 15) ^ 2 := by norm_num
  have hle : x.toInt.natAbs ≤ 2 ^ 15 := by omega
  rw [hsq]
  refine ⟨Nat.pow_le_pow_left hle 2, (Nat.pow_left_injective two_ne_zero).eq_iff.trans ?_⟩
  omega

/-- R197: the exact sum fits. -/
theorem sumOfSquares_le (p : Point) : sumOfSquares p ≤ 2 ^ 31 := by
  have hre := (sq_natAbs_toInt_half p.1).1
  have him := (sq_natAbs_toInt_half p.2).1
  rw [sumOfSquares]
  omega

/-- R199: the one overflowing bin. -/
theorem sumOfSquares_eq_iff (p : Point) :
    sumOfSquares p = 2 ^ 31 ↔ p.1.toInt = -32768 ∧ p.2.toInt = -32768 := by
  obtain ⟨hre, hre_eq⟩ := sq_natAbs_toInt_half p.1
  obtain ⟨him, him_eq⟩ := sq_natAbs_toInt_half p.2
  rw [← hre_eq, ← him_eq, sumOfSquares]
  omega

/-- R198: the magnitude of a bin that does not overflow. -/
theorem magnitude_of_ne {c : Config} {n k : Nat} {p : Point} (h : sumOfSquares p ≠ 2 ^ 31) :
    magnitude c n k p = .ok (min (fixedSqrt c (sumOfSquares p) / 2 ^ c.magShift) 65535) := by
  simp only [magnitude, if_neg h, Nat.shiftRight_eq_div_pow]

/-- Settles O26: a bin overflows at -32768 in both parts, and has its magnitude elsewhere. -/
theorem magnitudeOfBin : Obligations.MagnitudeOfBin := by
  intro c n k re im
  refine ⟨sumOfSquares_le _, sumOfSquares_eq_iff _, fun hmin hu => ?_, fun hmin => ?_⟩
  · exact magnitude_eq_error.2 ⟨(sumOfSquares_eq_iff _).2 hmin, hu, rfl⟩
  · exact ⟨_, magnitude_of_ne (mt (sumOfSquares_eq_iff _).1 hmin), rfl⟩

/-! ## The low bands (R201, R202) -/

/-- The constraints of R9 that ANLO alone reads. -/
theorem lowBandsOk_iff {c : Config} : lowBandsOk c = true ↔
    c.lowBandMap.length = nbLow ∧ c.lowBandMap.Pairwise (· < ·) ∧ c.lowFirstBin ≤ 1
    ∧ c.lowFirstBin ≤ c.lowBandMap.getD 0 0
    ∧ c.lowBandMap.getD (nbLow - 1) 0 ≤ c.nLow / 2 - 1 := by
  simp only [lowBandsOk, Bool.and_eq_true, decide_eq_true_eq, and_assoc]

/-- In a rising list an earlier entry is the smaller one. -/
theorem getD_lt_getD_of_pairwise {l : List Nat} (h : l.Pairwise (· < ·)) {i j : Nat} (hij : i < j)
    (hj : j < l.length) : l.getD i 0 < l.getD j 0 := by
  rw [List.getD_eq_getElem _ _ (hij.trans hj), List.getD_eq_getElem _ _ hj]
  exact List.pairwise_iff_getElem.1 h i j _ _ hij

/-- R202: no low band is empty. -/
theorem lowBandFirst_le_lowBandLast {c : Config} (h : lowBandsOk c = true) {b : Nat} (hb : b < 6) :
    lowBandFirst c b ≤ lowBandLast c b := by
  obtain ⟨hlength, hrising, -, hfirst, -⟩ := lowBandsOk_iff.1 h
  cases b with
  | zero => exact hfirst
  | succ b => exact getD_lt_getD_of_pairwise hrising (Nat.lt_succ_self b) (by rwa [hlength])

/-- R9, R202: every low band ends below the half-length. -/
theorem lowBandLast_lt {c : Config} (hc : configOk c = true) (h : lowBandsOk c = true) {b : Nat}
    (hb : b < 6) : lowBandLast c b < c.nLow / 2 := by
  obtain ⟨hlength, hrising, -, -, hlast⟩ := lowBandsOk_iff.1 h
  obtain ⟨-, -, hm, -⟩ := configOk_capture hc
  have hn : 2 ^ 2 ≤ c.nLow := Nat.pow_le_pow_right (by norm_num) hm
  have hle : lowBandLast c b ≤ c.lowBandMap.getD 5 0 := by
    rcases Nat.lt_or_ge b 5 with hlt | hge
    · exact (getD_lt_getD_of_pairwise hrising hlt (by rw [hlength]; decide)).le
    · rw [show b = 5 by omega, lowBandLast]
  have hlast : c.lowBandMap.getD 5 0 ≤ c.nLow / 2 - 1 := hlast
  omega

/-- Settles O27: each range lies inside the magnitudes, so it attains its maximum. -/
theorem lowBandsAreRangeMaxima : Obligations.LowBandsAreRangeMaxima := by
  intro c mag hc hok hmag
  have hlength : c.lowBandMap.length = 6 := (lowBandsOk_iff.1 hok).1
  refine ⟨rfl, fun b hb => ?_, fun b _ => rfl, fun b hb => ?_⟩
  · have hlt : b < c.lowBandMap.length := by rwa [hlength]
    rw [lowBandLast, List.getD_eq_getElem _ _ hlt, List.getElem?_eq_getElem hlt]
  · have hle := lowBandFirst_le_lowBandLast hok hb
    have hend : lowBandLast c b + 1 ≤ mag.length := hmag ▸ lowBandLast_lt hc hok hb
    obtain ⟨⟨k, hk1, hk2, hk⟩, hbound⟩ := maxOf_binRange (Nat.lt_succ_of_le hle) hend
    exact ⟨hle, ⟨k, hk1, Nat.le_of_lt_succ hk2, hk⟩,
      fun k v hk1 hk2 hv => hbound k v hk1 (Nat.lt_succ_of_le hk2) hv⟩

/-! ## The boundaries and the high bands (R206 to R209) -/

/-- Settles O28: the boundaries are the sequence from accumulator 0, whose first step gives 1. -/
theorem boundariesRiseToHalfLength : Obligations.BoundariesRiseToHalfLength := by
  intro g h hg hh
  obtain ⟨hvalue, hrising, -, hhead, hlast, hbelow⟩ :=
    boundariesFrom_spec (h := h) hg h 0 (by rw [Nat.zero_shiftRight]; omega) (by omega)
  have hfirst : expStep g 0 >>> 16 = 1 := by simp [expStep]
  refine ⟨fun i hi => ?_, hrising, hhead.trans (congrArg some hfirst), hlast, hbelow⟩
  rw [boundaries, hvalue i hi, Nat.shiftRight_eq_div_pow]

section
variable {c : Config} {h : Nat} (hg : 0x10000 ≤ c.expGrowth) (hh : 2 ≤ h)
include hg hh

/-- The sequence has a first element. -/
theorem boundaries_length_pos : 0 < (boundaries c.expGrowth h).length := by
  obtain ⟨-, -, hhead, -⟩ := boundariesRiseToHalfLength c.expGrowth h hg hh
  refine List.length_pos_iff.2 fun hnil => ?_
  rw [hnil] at hhead
  cases hhead

/-- R207: the first boundary is 1. -/
theorem boundaries_first : (boundaries c.expGrowth h).getD 0 0 = 1 := by
  obtain ⟨-, -, hhead, -⟩ := boundariesRiseToHalfLength c.expGrowth h hg hh
  rw [List.getD_eq_getElem?_getD, ← List.head?_eq_getElem?, hhead, Option.getD_some]

/-- R207: every boundary but the last is below the half-length. -/
theorem boundaries_lt {k : Nat} (hk : k + 1 < (boundaries c.expGrowth h).length) :
    (boundaries c.expGrowth h).getD k 0 < h := by
  obtain ⟨-, -, -, -, hbelow⟩ := boundariesRiseToHalfLength c.expGrowth h hg hh
  have hdrop : k < (boundaries c.expGrowth h).dropLast.length := by
    rw [List.length_dropLast]
    omega
  rw [List.getD_eq_getElem _ _ (by omega), ← List.getElem_dropLast hdrop]
  exact hbelow _ (List.getElem_mem hdrop)

/-- R207: the last boundary reaches the half-length. -/
theorem le_boundaries_last :
    h ≤ (boundaries c.expGrowth h).getD ((boundaries c.expGrowth h).length - 1) 0 := by
  obtain ⟨-, -, -, ⟨b, hb, hle⟩, -⟩ := boundariesRiseToHalfLength c.expGrowth h hg hh
  rwa [List.getD_eq_getElem?_getD, ← List.getLast?_eq_getElem?, hb, Option.getD_some]

/-- R208: a band ends where the next begins. -/
theorem highBandEnd_eq_highBandFirst {k : Nat}
    (hk : k + 1 < (boundaries c.expGrowth h).length) :
    highBandEnd c h k = highBandFirst c h (k + 1) :=
  min_eq_left (boundaries_lt hg hh hk).le

/-- R208: no band is empty. -/
theorem highBandFirst_lt_highBandEnd {k : Nat} (hk : k < (boundaries c.expGrowth h).length) :
    highBandFirst c h k < highBandEnd c h k := by
  cases k with
  | zero =>
    rw [highBandFirst, highBandEnd, boundaries_first hg hh]
    omega
  | succ k =>
    obtain ⟨-, hrising, -⟩ := boundariesRiseToHalfLength c.expGrowth h hg hh
    exact lt_min (getD_lt_getD_of_pairwise hrising (Nat.lt_succ_self k) hk) (boundaries_lt hg hh hk)

/-- R208: a bin below the half-length is in the first band that ends above it. -/
theorem exists_highBand {i : Nat} (hi : i < h) :
    ∃ k < (boundaries c.expGrowth h).length, highBandFirst c h k ≤ i ∧ i < highBandEnd c h k := by
  have hpos := boundaries_length_pos hg hh
  have hlast : i < highBandEnd c h ((boundaries c.expGrowth h).length - 1) :=
    lt_min (hi.trans_le (le_boundaries_last hg hh)) hi
  have hex : ∃ k, i < highBandEnd c h k := ⟨_, hlast⟩
  have hle := Nat.find_min' hex hlast
  refine ⟨Nat.find hex, by omega, ?_, Nat.find_spec hex⟩
  cases hk : Nat.find hex with
  | zero => exact Nat.zero_le i
  | succ k =>
    rw [← highBandEnd_eq_highBandFirst hg hh (by omega)]
    exact not_lt.1 (Nat.find_min hex (by omega))

/-- R208: a later band begins where an earlier one has ended. -/
theorem highBandEnd_le_highBandFirst {j k : Nat} (hjk : j < k)
    (hk : k < (boundaries c.expGrowth h).length) : highBandEnd c h j ≤ highBandFirst c h k := by
  obtain ⟨-, hrising, -⟩ := boundariesRiseToHalfLength c.expGrowth h hg hh
  rw [highBandEnd_eq_highBandFirst hg hh (by omega)]
  cases k with
  | zero => omega
  | succ k =>
    rcases (Nat.lt_succ_iff.1 hjk).eq_or_lt with rfl | hlt
    · exact le_rfl
    · exact (getD_lt_getD_of_pairwise hrising hlt (by omega)).le

end

/-- Settles O29: the bands follow one another from 0 to the half-length. -/
theorem highBandsPartitionBins : Obligations.HighBandsPartitionBins := by
  intro c h hg hh
  refine ⟨rfl, ?_, fun k b hb => ?_, fun k => highBandFirst_lt_highBandEnd hg hh, fun i hi => ?_⟩
  · rw [highBandEnd, boundaries_first hg hh]
    omega
  · have hget : (boundaries c.expGrowth h).getD k 0 = b := by
      rw [List.getD_eq_getElem?_getD, hb, Option.getD_some]
    exact ⟨hget, by rw [highBandEnd, hget]⟩
  · obtain ⟨k, hk, hfirst, hend⟩ := exists_highBand hg hh hi
    refine ⟨k, ⟨hk, hfirst, hend⟩, ?_⟩
    rintro j ⟨hj, hjfirst, hjend⟩
    rcases lt_trichotomy j k with hjk | hjk | hjk
    · have := highBandEnd_le_highBandFirst hg hh hjk hk
      omega
    · exact hjk
    · have := highBandEnd_le_highBandFirst hg hh hjk hj
      omega

/-- R209 under `max`. -/
theorem bandExp_of_max {c : Config} (hagg : c.expAgg = .max) (mag : List Nat) (h k : Nat) :
    bandExp c mag h k = maxOf (binRange mag (highBandFirst c h k) (highBandEnd c h k)) := by
  simp only [bandExp, hagg]

/-- R209 under `mean`. -/
theorem bandExp_of_mean {c : Config} (hagg : c.expAgg = .mean) (mag : List Nat) (h k : Nat) :
    bandExp c mag h k = (binRange mag (highBandFirst c h k) (highBandEnd c h k)).sum
      / (highBandEnd c h k - highBandFirst c h k) := by
  simp only [bandExp, hagg]

/-- Settles O30: the range of a band is not empty and lies inside the magnitudes. -/
theorem highBandAggregates : Obligations.HighBandAggregates := by
  intro c mag h k hg hh hmag hk
  have hlt := highBandFirst_lt_highBandEnd hg hh hk
  refine ⟨fun hagg => ?_, fun hagg => ?_⟩
  · rw [bandExp_of_max hagg]
    exact maxOf_binRange hlt (hmag ▸ min_le_right _ _)
  · rw [bandExp_of_mean hagg, binRange_sum mag hlt.le]

/-! ## The peak (R220, R221) -/

/-- Settles O31: the search starts at bin 1 and keeps the first maximum; over silence it stays there. -/
theorem peakIsFirstMaximum : Obligations.PeakIsFirstMaximum := by
  intro mag hlength
  have hstart : mag[1]? = some (mag.getD 1 0) := by
    rw [List.getD_eq_getElem _ _ hlength, List.getElem?_eq_getElem hlength]
  obtain ⟨hpos, hlt, hget, hmax, hfirst⟩ : 1 ≤ (peak mag).1 ∧ (peak mag).1 < mag.length
      ∧ mag[(peak mag).1]? = some (peak mag).2
      ∧ (∀ k v, 1 ≤ k → mag[k]? = some v → v ≤ (peak mag).2)
      ∧ ∀ k v, 1 ≤ k → k < (peak mag).1 → mag[k]? = some v → v < (peak mag).2 := by
    refine peakFrom_spec (mag.drop 2) 2 1 (mag.getD 1 0) rfl le_rfl (by omega) hlength hstart
      (fun j v hj hj2 hv => ?_) (fun j v hj hj1 => by omega)
    obtain rfl : j = 1 := by omega
    rw [hstart, Option.some.injEq] at hv
    exact hv.ge
  refine ⟨hpos, hlt, hget, hmax, hfirst, fun hsilence => ?_⟩
  have hmag : (peak mag).2 = 0 := hsilence _ _ hpos hget
  have hidx : (peak mag).1 = 1 := by
    by_contra hne
    have := hfirst 1 _ le_rfl (by omega) hstart
    omega
  exact Prod.ext hidx hmag

end Sys2Proof.Machine

namespace Sys2Proof.Machine

/-! ## ANLO and ANHI (`43_analysis.md` R190 to R225)

Each operation reads a buffer, transforms it in place and keeps its magnitudes, so its answer follows from
the buffer and its magnitudes alone. -/

/-! ### The spectrum of a buffer and its magnitudes -/

/-- The spectrum of a buffer of `2^m` elements: windowed, with imaginary part zero (R194, R196). -/
def forwardSpectrum (c : Config) (m : Nat) (buf : List Half) : Spectrum :=
  fftApply c m false (windowed c buf (2 ^ m)) (List.replicate (2 ^ m) 0)

/-- R197: there is one magnitude for each bin of the first half. -/
theorem magnitudes_eq_ok {c : Config} {m : Nat} {buf : List Half} {mag : List Nat}
    (h : magnitudes c (2 ^ m) (forwardSpectrum c m buf) = .ok mag) :
    mag.length = 2 ^ m / 2
    ∧ ∀ k p, (((forwardSpectrum c m buf).re.zip (forwardSpectrum c m buf).im).take (2 ^ m / 2))[k]?
        = some p → ∃ v, mag[k]? = some v ∧ magnitude c (2 ^ m) k p = .ok v := by
  obtain ⟨hlength, hbins⟩ := magnitudesFrom_eq_ok.1 h
  obtain ⟨hre, him⟩ := fftApply_length c m false (windowed c buf (2 ^ m)) (List.replicate (2 ^ m) 0)
  refine ⟨?_, fun k p hp => by simpa using hbins k p hp⟩
  rw [hlength, List.length_take, List.length_zip, forwardSpectrum, hre, him, min_self,
    min_eq_left (Nat.div_le_self _ _)]

/-- R199: the magnitudes of a spectrum stop exactly at an overflowing bin. -/
theorem magnitudes_eq_error {c : Config} {n : Nat} {r : Spectrum} {f : Fault} :
    magnitudes c n r = .error f ↔
      (∃ p ∈ (r.re.zip r.im).take (n / 2), p.1.toInt = -32768 ∧ p.2.toInt = -32768)
      ∧ c.undefinedAs = .fault ∧ f = .magOverflow := by
  simp only [magnitudes, magnitudesFrom_eq_error, sumOfSquares_eq_iff]

/-- R198, R199: without one, or when the open behaviours run, every bin has a magnitude. -/
theorem magnitudes_completes {c : Config} {n : Nat} {r : Spectrum}
    (h : c.undefinedAs = .run ∨ ∀ p ∈ (r.re.zip r.im).take (n / 2),
      ¬(p.1.toInt = -32768 ∧ p.2.toInt = -32768)) : ∃ mag, magnitudes c n r = .ok mag := by
  cases hmag : magnitudes c n r with
  | ok mag => exact ⟨mag, rfl⟩
  | error f =>
    obtain ⟨⟨p, hp, hmin⟩, hfault, -⟩ := magnitudes_eq_error.1 hmag
    rcases h with hrun | hnone
    · rw [hrun] at hfault
      cases hfault
    · exact absurd hmin (hnone p hp)

/-- R198: every magnitude of a spectrum is a u16. -/
theorem magnitudes_lt {c : Config} {n : Nat} {r : Spectrum} {mag : List Nat}
    (h : magnitudes c n r = .ok mag) : ∀ v ∈ mag, v < 2 ^ 16 := by
  obtain ⟨hlength, hbins⟩ := magnitudesFrom_eq_ok.1 h
  intro v hv
  obtain ⟨i, hi, rfl⟩ := List.getElem_of_mem hv
  obtain ⟨u, hu, hmag⟩ := hbins i _ (List.getElem?_eq_getElem (hlength ▸ hi))
  rw [List.getElem?_eq_getElem hi, Option.some.injEq] at hu
  exact hu ▸ magnitude_lt hmag

/-! ### Every aggregate of u16 magnitudes is a u16 -/

theorem mem_of_mem_binRange {mag : List Nat} {lo hi v : Nat} (h : v ∈ binRange mag lo hi) : v ∈ mag :=
  List.mem_of_mem_take (List.mem_of_mem_drop h)

theorem maxOf_binRange_lt {mag : List Nat} (h : ∀ v ∈ mag, v < 2 ^ 16) (lo hi : Nat) :
    maxOf (binRange mag lo hi) < 2 ^ 16 := by
  obtain ⟨-, -, hstart | hmem⟩ := foldl_max_spec (binRange mag lo hi) 0
  · rw [maxOf, hstart]
    norm_num
  · exact h _ (mem_of_mem_binRange hmem)

theorem bandExp_lt {mag : List Nat} (h : ∀ v ∈ mag, v < 2 ^ 16) (c : Config) (n k : Nat) :
    bandExp c mag n k < 2 ^ 16 := by
  cases hagg : c.expAgg with
  | max =>
    rw [bandExp_of_max hagg]
    exact maxOf_binRange_lt h _ _
  | mean =>
    rw [bandExp_of_mean hagg]
    generalize highBandFirst c n k = lo, highBandEnd c n k = hi
    have hsum : (binRange mag lo hi).sum ≤ (binRange mag lo hi).length * 65535 :=
      List.sum_le_card_nsmul _ _ fun v hv => Nat.le_of_lt_succ (h v (mem_of_mem_binRange hv))
    have hle : (binRange mag lo hi).sum ≤ 65535 * (hi - lo) := by
      rw [binRange_length] at hsum
      omega
    exact Nat.lt_succ_of_le (Nat.div_le_of_le_mul (by rwa [mul_comm]))

theorem peak_lt {mag : List Nat} (h : ∀ v ∈ mag, v < 2 ^ 16) (hlength : 2 ≤ mag.length) :
    (peak mag).2 < 2 ^ 16 := by
  obtain ⟨-, -, hget, -⟩ := peakIsFirstMaximum mag hlength
  exact h _ (List.mem_of_getElem? hget)

/-! ### What each operation leaves -/

/-- The spectrum of `n` elements stands in `sp` and in `IMAG`, and no other element differs (R191, R196). -/
def SpectrumInPlace (sp : HalfSpace) (n : Nat) (r : Spectrum) (s t : State) : Prop :=
  ∀ q a, t.halfAt q a =
    if q = .imag ∧ a < n then r.im[a]?
    else if q = sp ∧ a < n then r.re[a]? else s.halfAt q a

/-- It is a fact about the memories alone. -/
theorem SpectrumInPlace.of_halves_eq {sp : HalfSpace} {n : Nat} {r : Spectrum} {s t u : State}
    (h : SpectrumInPlace sp n r s t) (hu : ∀ q, u.halves q = t.halves q) :
    SpectrumInPlace sp n r s u := by
  intro q a
  rw [State.halfAt, hu, ← State.halfAt, h q a]

/-- What ANLO leaves of the snapshot `buf` with the magnitudes `mag` (R190). -/
structure AnloResults (s : State) (buf : List Half) (mag : List Nat) (t : State) : Prop where
  spectrum : SpectrumInPlace .lowSnap s.cfg.nLow (forwardSpectrum s.cfg s.cfg.mLow buf) s t
  lowBand : t.lowBand = Vector.ofFn (fun b => asU16 (bandMap s.cfg mag b))
  energyLo : t.energyLo = asU16 (energyOf buf s.cfg.nLow)

/-- What ANHI leaves of the ready side `buf` with the magnitudes `mag` (R215). -/
structure AnhiResults (s : State) (buf : List Half) (mag : List Nat) (t : State) : Prop where
  spectrum : SpectrumInPlace (.high s.active.other) s.cfg.nHigh
    (forwardSpectrum s.cfg s.cfg.mHigh buf) s t
  highBand : t.highBand = Vector.ofFn (fun k => asU16 (bandExp s.cfg mag (s.cfg.nHigh / 2) k))
  energy : t.energy = asU16 (energyOf buf s.cfg.nHigh)
  peakMag : t.peakMag = asU16 (peak mag).2
  peakIdx : t.peakIdx = peakIndex s.cfg (peak mag).1
  peakHz : t.peakHz = peakHertz s.cfg (peakIndex s.cfg (peak mag).1)

/-- An operation that answers as its magnitudes do completes where they do. -/
theorem finish_map_eq_next {x : Except Fault (List Nat)} {result : List Nat → State} {t : State} :
    finish (x.map result) = .next t ↔ ∃ mag, x = .ok mag ∧ result mag = t := by
  cases x <;> simp [finish, Except.map]

/-- And it faults where they do. -/
theorem finish_map_eq_fault {x : Except Fault (List Nat)} {result : List Nat → State} {f : Fault} :
    finish (x.map result) = .fault f ↔ x = .error f := by
  cases x <;> simp [finish, Except.map]

/-- R192: steps 2 to 4 of a memory of `2^m` elements answer as the magnitudes of its spectrum do. -/
theorem analyse_eq_map {sp : HalfSpace} {m : Nat} {s : State} (buf : List Half) (h : s.MemoryInv)
    (hsp : sp ≠ .imag) (hsize : 2 ^ m ≤ sp.size s.cfg) (himag : 2 ^ m ≤ HalfSpace.imag.size s.cfg) :
    ∃ u, u.cfg = s.cfg ∧ SpectrumInPlace sp (2 ^ m) (forwardSpectrum s.cfg m buf) s u
      ∧ analyse sp m buf s
          = (magnitudes s.cfg (2 ^ m) (forwardSpectrum s.cfg m buf)).map (fun mag => (mag, u)) := by
  obtain ⟨u, hu, ⟨x, y, rfl⟩, hat, -⟩ := analyse_completes (buf := buf) h hsp hsize himag rfl
  exact ⟨_, by rw [State.setHalves_cfg, State.setHalves_cfg], hat, hu⟩

/-- R190: ANLO of a good state answers as the magnitudes of its snapshot do. -/
theorem execAnlo_eq_map {s : State} {buf : List Half} (h : s.MemoryInv) (hok : anloOk s.cfg = true)
    (hframe : s.mayUseFrame = true) (hbuf : readHalves .lowSnap 0 s.cfg.nLow s = .ok buf) :
    ∃ result : List Nat → State, (∀ mag, AnloResults s buf mag (result mag))
      ∧ execAnlo s = finish ((magnitudes s.cfg s.cfg.nLow
          (forwardSpectrum s.cfg s.cfg.mLow buf)).map result) := by
  obtain ⟨u, hcfg, hspectrum, hu⟩ := analyse_eq_map (sp := .lowSnap) (m := s.cfg.mLow) buf h
    (by decide) le_rfl (le_max_right _ _)
  refine ⟨fun mag => (u.setLowResults (Vector.ofFn (fun b => asU16 (bandMap u.cfg mag b)))
      (asU16 (energyOf buf s.cfg.nLow))).withResult .empty,
    fun mag => ⟨hspectrum.of_halves_eq fun q => ?_, ?_, ?_⟩, ?_⟩
  · rw [State.withResult_halves, State.setLowResults_halves]
  · rw [State.withResult_lowBand, State.setLowResults_lowBand, hcfg]
  · rw [State.withResult_energyLo, State.setLowResults_energyLo]
  rw [← Config.nLow] at hu
  generalize magnitudes s.cfg s.cfg.nLow (forwardSpectrum s.cfg s.cfg.mLow buf) = x at hu ⊢
  simp only [execAnlo, hok, hframe, hbuf, hu, Bool.not_true, Bool.false_eq_true, if_false, bind,
    Except.bind]
  cases x <;> rfl

/-- R215: ANHI of a good state answers as the magnitudes of its ready side do. -/
theorem execAnhi_eq_map {s : State} {buf : List Half} (h : s.MemoryInv) (hok : anhiOk s.cfg = true)
    (hframe : s.mayUseFrame = true)
    (hbuf : readHalves (.high s.active.other) 0 s.cfg.nHigh s = .ok buf) :
    ∃ result : List Nat → State, (∀ mag, AnhiResults s buf mag (result mag))
      ∧ execAnhi s = finish ((magnitudes s.cfg s.cfg.nHigh
          (forwardSpectrum s.cfg s.cfg.mHigh buf)).map result) := by
  obtain ⟨u, hcfg, hspectrum, hu⟩ := analyse_eq_map (sp := .high s.active.other) (m := s.cfg.mHigh)
    buf h nofun le_rfl (le_max_left _ _)
  refine ⟨fun mag => (u.setHighResults
      (Vector.ofFn (fun k => asU16 (bandExp u.cfg mag (s.cfg.nHigh / 2) k)))
      (asU16 (energyOf buf s.cfg.nHigh)) (asU16 (peak mag).2) (peakIndex u.cfg (peak mag).1)
      (peakHertz u.cfg (peakIndex u.cfg (peak mag).1))).withResult .empty,
    fun mag => ⟨hspectrum.of_halves_eq fun q => ?_, ?_, ?_, ?_, ?_, ?_⟩, ?_⟩
  · rw [State.withResult_halves, State.setHighResults_halves]
  · rw [State.withResult_highBand, State.setHighResults_highBand, hcfg]
  · rw [State.withResult_energy, State.setHighResults_energy]
  · rw [State.withResult_peakMag, State.setHighResults_peakMag]
  · rw [State.withResult_peakIdx, State.setHighResults_peakIdx, hcfg]
  · rw [State.withResult_peakHz, State.setHighResults_peakHz, hcfg]
  rw [← Config.nHigh] at hu
  generalize magnitudes s.cfg s.cfg.nHigh (forwardSpectrum s.cfg s.cfg.mHigh buf) = x at hu ⊢
  simp only [execAnhi, hok, hframe, hbuf, hu, Bool.not_true, Bool.false_eq_true, if_false, bind,
    Except.bind]
  cases x <;> rfl

/-- ANLO completes where the snapshot has magnitudes. -/
theorem execAnlo_of_magnitudes {s : State} {buf : List Half} {mag : List Nat} (h : s.MemoryInv)
    (hok : anloOk s.cfg = true) (hframe : s.mayUseFrame = true)
    (hbuf : readHalves .lowSnap 0 s.cfg.nLow s = .ok buf)
    (hmag : magnitudes s.cfg s.cfg.nLow (forwardSpectrum s.cfg s.cfg.mLow buf) = .ok mag) :
    ∃ t, execAnlo s = .next t ∧ AnloResults s buf mag t := by
  obtain ⟨result, hresult, he⟩ := execAnlo_eq_map h hok hframe hbuf
  exact ⟨result mag, he.trans (finish_map_eq_next.2 ⟨mag, hmag, rfl⟩), hresult mag⟩

/-- It completes nowhere else. -/
theorem execAnlo_completed {s t : State} (h : s.MemoryInv) (he : execAnlo s = .next t) :
    anloOk s.cfg = true ∧ s.mayUseFrame = true ∧ ∃ buf mag,
      readHalves .lowSnap 0 s.cfg.nLow s = .ok buf
      ∧ magnitudes s.cfg s.cfg.nLow (forwardSpectrum s.cfg s.cfg.mLow buf) = .ok mag
      ∧ AnloResults s buf mag t := by
  obtain ⟨hok, hframe, buf, -, -, hbuf, -⟩ := execAnlo_eq_next.1 he
  obtain ⟨result, hresult, heq⟩ := execAnlo_eq_map h hok hframe hbuf
  obtain ⟨mag, hmag, rfl⟩ := finish_map_eq_next.1 (heq.symm.trans he)
  exact ⟨hok, hframe, buf, mag, hbuf, hmag, hresult mag⟩

/-- ANHI completes where the ready side has magnitudes. -/
theorem execAnhi_of_magnitudes {s : State} {buf : List Half} {mag : List Nat} (h : s.MemoryInv)
    (hok : anhiOk s.cfg = true) (hframe : s.mayUseFrame = true)
    (hbuf : readHalves (.high s.active.other) 0 s.cfg.nHigh s = .ok buf)
    (hmag : magnitudes s.cfg s.cfg.nHigh (forwardSpectrum s.cfg s.cfg.mHigh buf) = .ok mag) :
    ∃ t, execAnhi s = .next t ∧ AnhiResults s buf mag t := by
  obtain ⟨result, hresult, he⟩ := execAnhi_eq_map h hok hframe hbuf
  exact ⟨result mag, he.trans (finish_map_eq_next.2 ⟨mag, hmag, rfl⟩), hresult mag⟩

/-- Neither does ANHI. -/
theorem execAnhi_completed {s t : State} (h : s.MemoryInv) (he : execAnhi s = .next t) :
    anhiOk s.cfg = true ∧ s.mayUseFrame = true ∧ ∃ buf mag,
      readHalves (.high s.active.other) 0 s.cfg.nHigh s = .ok buf
      ∧ magnitudes s.cfg s.cfg.nHigh (forwardSpectrum s.cfg s.cfg.mHigh buf) = .ok mag
      ∧ AnhiResults s buf mag t := by
  obtain ⟨hok, hframe, buf, -, -, hbuf, -⟩ := execAnhi_eq_next.1 he
  obtain ⟨result, hresult, heq⟩ := execAnhi_eq_map h hok hframe hbuf
  obtain ⟨mag, hmag, rfl⟩ := finish_map_eq_next.1 (heq.symm.trans he)
  exact ⟨hok, hframe, buf, mag, hbuf, hmag, hresult mag⟩

/-! ### The obligations about one operation -/

/-- The memories of a good state are canonical and inside their sizes. -/
theorem State.Inv.memory {s : State} (h : s.Inv) : s.MemoryInv := by
  obtain ⟨-, -, -, hmem⟩ := h
  exact hmem

/-- A buffer given element by element is what the operation reads. -/
theorem readHalves_of_halfAt {sp : HalfSpace} {n : Nat} {s : State} {buf : List Half}
    (hsize : n ≤ sp.size s.cfg) (hlength : buf.length = n) (h : ∀ i < n, s.halfAt sp i = buf[i]?) :
    readHalves sp 0 n s = .ok buf :=
  readHalves_eq_ok.2 ⟨by rwa [Nat.zero_add], hlength, fun i hi => by rw [Nat.zero_add]; exact h i hi⟩

theorem exec_anlo_eq (s : State) : exec .anlo s = execAnlo s := by
  rfl

theorem exec_anhi_eq (s : State) : exec .anhi s = execAnhi s := by
  rfl

/-- Settles O59: the operations fault as their magnitudes do, at an overflowing bin alone. -/
theorem overflowingBinFaults : Obligations.OverflowingBinFaults := by
  intro s buf r h hown hfault
  have hframe : s.mayUseFrame = true := s.mayUseFrame_iff.2 (.inl hown)
  refine ⟨fun hok hlength hbuf hr => ?_, fun hok hlength hbuf hr => ?_⟩ <;> subst hr
  · obtain ⟨result, -, he⟩ :=
      execAnlo_eq_map h.memory hok hframe (readHalves_of_halfAt le_rfl hlength hbuf)
    rw [exec_anlo_eq, he, finish_map_eq_fault, magnitudes_eq_error]
    exact and_iff_left ⟨hfault, rfl⟩
  · obtain ⟨result, -, he⟩ :=
      execAnhi_eq_map h.memory hok hframe (readHalves_of_halfAt le_rfl hlength hbuf)
    rw [exec_anhi_eq, he, finish_map_eq_fault, magnitudes_eq_error]
    exact and_iff_left ⟨hfault, rfl⟩

/-- In the transformed memory and in `IMAG` the spectrum is read back. -/
theorem SpectrumInPlace.inside {sp : HalfSpace} {n : Nat} {r : Spectrum} {s t : State}
    (h : SpectrumInPlace sp n r s t) (hsp : sp ≠ .imag) {i : Nat} (hi : i < n) :
    t.halfAt sp i = r.re[i]? ∧ t.halfAt .imag i = r.im[i]? := by
  rw [h sp i, h .imag i, if_neg (fun e => hsp e.1), if_pos ⟨rfl, hi⟩, if_pos ⟨rfl, hi⟩]
  exact ⟨rfl, rfl⟩

/-- Past the spectrum every memory is as before. -/
theorem SpectrumInPlace.outside {sp : HalfSpace} {n : Nat} {r : Spectrum} {s t : State}
    (h : SpectrumInPlace sp n r s t) (q : HalfSpace) {i : Nat} (hi : n ≤ i) :
    t.halfAt q i = s.halfAt q i := by
  rw [h q i, if_neg (fun e => by omega), if_neg (fun e => by omega)]

/-- Settles O32: the snapshot has magnitudes, and ANLO leaves their bands. -/
theorem anloAnalysesSnapshot : Obligations.AnloAnalysesSnapshot := by
  intro s buf r h hok hframe hlength hbuf hr hbins
  subst hr
  obtain ⟨mag, hmag⟩ := magnitudes_completes hbins
  obtain ⟨t, he, hspectrum, hband, henergy⟩ :=
    execAnlo_of_magnitudes h.memory hok hframe (readHalves_of_halfAt le_rfl hlength hbuf) hmag
  obtain ⟨hmaglength, hmagbins⟩ := magnitudes_eq_ok hmag
  refine ⟨t, mag, he, hmaglength, hmagbins, ?_, fun b => ?_,
    fun i hi => hspectrum.inside (by decide) hi, fun i hi => hspectrum.outside _ hi, ?_⟩
  · rw [henergy, asU16_toNat (energyOf_lt hlength (nLow_pos _)), energyOf]
  · rw [hband, Fin.getElem_fin, Vector.getElem_ofFn]
    exact asU16_toNat (maxOf_binRange_lt (magnitudes_lt hmag) _ _)
  · rw [execAnlo_frame he]
    simp only [SameBus, SameCapture, SameOutside, and_self]

/-- Settles O33: the ready side has magnitudes, and ANHI leaves their bands and their peak. -/
theorem anhiAnalysesReadySide : Obligations.AnhiAnalysesReadySide := by
  intro s buf r h hok hframe hlength hbuf hr hbins
  subst hr
  obtain ⟨mag, hmag⟩ := magnitudes_completes hbins
  obtain ⟨t, he, hspectrum, hband, henergy, hpeak, hidx, hhz⟩ :=
    execAnhi_of_magnitudes h.memory hok hframe (readHalves_of_halfAt le_rfl hlength hbuf) hmag
  obtain ⟨hmaglength, hmagbins⟩ := magnitudes_eq_ok hmag
  have hlt := magnitudes_lt hmag
  have htwo : 2 ≤ mag.length := by
    obtain ⟨hcfg, -⟩ := h
    obtain ⟨-, hm, -⟩ := configOk_capture hcfg
    have : 2 ^ 2 ≤ 2 ^ s.cfg.mHigh := Nat.pow_le_pow_right (by norm_num) hm
    omega
  obtain ⟨hsame, hactive⟩ := execAnhi_frame he
  refine ⟨t, mag, he, hmaglength, hmagbins, ?_, fun k => ?_, ?_, fun hfit => ?_, fun hfit => ?_,
    fun i hi => hspectrum.inside nofun hi, fun i hi => hspectrum.outside _ hi, fun i => ?_, ?_⟩
  · rw [henergy, asU16_toNat (energyOf_lt hlength (nHigh_pos _)), energyOf]
  · rw [hband, Fin.getElem_fin, Vector.getElem_ofFn]
    exact asU16_toNat (bandExp_lt hlt _ _ _)
  · rw [hpeak, asU16_toNat (peak_lt hlt htwo)]
  · rw [hidx, peakIndex, fitU16, if_pos hfit, asU16_toNat hfit]
  · rw [← hidx] at hhz
    rw [hhz, peakHertz, fitU16, if_pos hfit, asU16_toNat hfit]
  · rw [State.halfAt, hactive, State.halfAt]
  · rw [hsame]
    simp only [SameBus, SameCapture, SameHandOff, SameOutside, and_self]

/-! ### The order of the two operations (R225)

Each operation reads nothing that the other writes but `IMAG`, which each fills before it reads it. -/

theorem mayUseFrame_congr {s t : State} (hcfg : t.cfg = s.cfg) (hown : t.own = s.own) :
    t.mayUseFrame = s.mayUseFrame := by
  rw [State.mayUseFrame, hcfg, hown, State.mayUseFrame]

theorem readHalves_congr {sp : HalfSpace} {s t : State} (hcfg : t.cfg = s.cfg)
    (h : t.halves sp = s.halves sp) (base n : Nat) :
    readHalves sp base n t = readHalves sp base n s := by
  rw [readHalves, hcfg, h, readHalves]

/-- The same spectrum in place of the same memory gives the same memory. -/
theorem SpectrumInPlace.halves_eq {sp q : HalfSpace} {n : Nat} {r : Spectrum} {s t u v : State}
    (ht : SpectrumInPlace sp n r s t) (hv : SpectrumInPlace sp n r u v) (htmem : t.MemoryInv)
    (hvmem : v.MemoryInv) (hq : q ≠ .imag) (h : u.halves q = s.halves q) :
    v.halves q = t.halves q := by
  refine Mem.ext_of_read (hvmem.half q).1 (htmem.half q).1 fun a => ?_
  change v.halfAt q a = t.halfAt q a
  have hread : u.halfAt q a = s.halfAt q a := by rw [State.halfAt, h, State.halfAt]
  simp only [ht q a, hv q a, hq, hread, false_and, if_false]

/-- ANLO depends on the configuration, the ownership and the snapshot alone. -/
theorem execAnlo_congr {s t a : State} (hs : s.Inv) (ht : t.Inv) (hcfg : t.cfg = s.cfg)
    (hown : t.own = s.own) (hsnap : t.lowSnap = s.lowSnap) (he : execAnlo s = .next a) :
    ∃ d, execAnlo t = .next d ∧ d.lowBand = a.lowBand ∧ d.energyLo = a.energyLo
      ∧ d.lowSnap = a.lowSnap := by
  obtain ⟨hok, hframe, buf, mag, hbuf, hmag, ha⟩ := execAnlo_completed hs.memory he
  obtain ⟨d, hd, hspectrum, hband, henergy⟩ : ∃ d, execAnlo t = .next d ∧ AnloResults t buf mag d :=
    execAnlo_of_magnitudes ht.memory (by rwa [hcfg]) (by rwa [mayUseFrame_congr hcfg hown])
      (by rwa [readHalves_congr (sp := .lowSnap) hcfg hsnap, hcfg]) (by rwa [hcfg])
  rw [hcfg] at hspectrum hband henergy
  exact ⟨d, hd, by rw [hband, ha.lowBand], by rw [henergy, ha.energyLo],
    ha.spectrum.halves_eq (q := .lowSnap) hspectrum (execAnlo_keeps_inv hs he).memory
      (execAnlo_keeps_inv ht hd).memory (by decide) hsnap⟩

/-- ANHI depends on the configuration, the hand-off and the two sides alone. -/
theorem execAnhi_congr {s t a : State} (hs : s.Inv) (ht : t.Inv) (hcfg : t.cfg = s.cfg)
    (hown : t.own = s.own) (hactive : t.active = s.active)
    (hsides : ∀ side, t.halves (.high side) = s.halves (.high side)) (he : execAnhi s = .next a) :
    ∃ d, execAnhi t = .next d ∧ d.highBand = a.highBand ∧ d.energy = a.energy
      ∧ d.peakMag = a.peakMag ∧ d.peakIdx = a.peakIdx ∧ d.peakHz = a.peakHz
      ∧ ∀ side, d.halves (.high side) = a.halves (.high side) := by
  obtain ⟨hok, hframe, buf, mag, hbuf, hmag, ha⟩ := execAnhi_completed hs.memory he
  obtain ⟨d, hd, hspectrum, hband, henergy, hpeak, hidx, hhz⟩ :
      ∃ d, execAnhi t = .next d ∧ AnhiResults t buf mag d :=
    execAnhi_of_magnitudes ht.memory (by rwa [hcfg]) (by rwa [mayUseFrame_congr hcfg hown])
      (by rwa [readHalves_congr hcfg (hsides _), hcfg, hactive]) (by rwa [hcfg])
  rw [hcfg] at hspectrum hband henergy hidx hhz
  rw [hactive] at hspectrum
  exact ⟨d, hd, by rw [hband, ha.highBand], by rw [henergy, ha.energy], by rw [hpeak, ha.peakMag],
    by rw [hidx, ha.peakIdx], by rw [hhz, ha.peakHz], fun side =>
      ha.spectrum.halves_eq hspectrum (execAnhi_keeps_inv hs he).memory
        (execAnhi_keeps_inv ht hd).memory nofun (hsides side)⟩

/-- Settles O34: each operation finds what it reads as it was before the other. -/
theorem analysisOrderDoesNotMatter : Obligations.AnalysisOrderDoesNotMatter := by
  intro s a b h ha hb
  have hainv : a.Inv := execAnlo_keeps_inv h ha
  have haframe := execAnlo_frame ha
  obtain ⟨hbframe, -⟩ := execAnhi_frame hb
  obtain ⟨c, hc, hhigh, henergy, hpeak, hidx, hhz, hsides⟩ :=
    execAnhi_congr hainv h (by rw [haframe]) (by rw [haframe]) (by rw [haframe])
      (fun side => by rw [haframe]; cases side <;> rfl) hb
  obtain ⟨hcframe, -⟩ := execAnhi_frame hc
  obtain ⟨d, hd, hlow, henergyLo, hsnap⟩ :=
    execAnlo_congr h (execAnhi_keeps_inv h hc) (by rw [hcframe]) (by rw [hcframe]) (by rw [hcframe]) ha
  have hdframe := execAnlo_frame hd
  refine ⟨c, d, hc, hd, ⟨?_, ?_, ?_, ?_, ?_, ?_, ?_⟩, ?_, ?_, ?_⟩
  · rw [hlow, hbframe]
  · rw [hdframe, ← hhigh]
  · rw [hdframe, ← henergy]
  · rw [henergyLo, hbframe]
  · rw [hdframe, ← hpeak]
  · rw [hdframe, ← hidx]
  · rw [hdframe, ← hhz]
  · rw [hsnap, hbframe]
  · rw [hdframe]
    exact hsides .side0
  · rw [hdframe]
    exact hsides .side1

end Sys2Proof.Machine

namespace Sys2Proof.Machine

/-! ## The analog fields (`44_frame.md` R232) -/

/-- Settles O37: `RAW_BITS` and `ANALOG_SHIFT` add up to 16, so the shift loses no bit. -/
theorem analogFieldKeepsReading : Obligations.AnalogFieldKeepsReading := by
  intro c v hc hv
  obtain ⟨-, -, -, -, hraw, -⟩ := configOk_capture hc
  have hwidth : 2 ^ c.rawBits * 2 ^ (16 - c.rawBits) = 2 ^ 16 := by
    rw [← pow_add, Nat.add_sub_cancel' (by omega)]
  have hpos : 0 < 2 ^ (16 - c.rawBits) := by positivity
  have hfits : v.toNat * 2 ^ (16 - c.rawBits) < 2 ^ 16 :=
    hwidth ▸ Nat.mul_lt_mul_of_pos_right hv hpos
  have hfield : (analogField c v).toNat = v.toNat * 2 ^ (16 - c.rawBits) := by
    rw [analogField, Config.analogShift, BitVec.toNat_shiftLeft, Nat.shiftLeft_eq,
      Nat.mod_eq_of_lt hfits]
  refine ⟨hfield, fun hmax => ?_⟩
  rw [hfield, hmax, Nat.sub_mul, hwidth]
  omega

/-! ## The layout of the frame (`30_encoding.md` R110, `44_frame.md` R231) -/

theorem put16s_append (o : ByteOrder) (us vs : List Half) :
    put16s o (us ++ vs) = put16s o us ++ put16s o vs := List.flatMap_append

/-- The 16-bit fields of the frame in the order of R110: 6 low bands, 26 high bands, energy, peak and its
frequency, 3 axes, 6 analog readings. -/
def frameFields (s : State) (accel : List Byte) (analog : List Half) : List Half :=
  s.lowBand.toList ++ (s.highBand.toList ++ ([s.energy, s.peakMag, s.peakHz]
    ++ (axes s.cfg.byteOrder accel ++ analog.map (analogField s.cfg))))

section

variable {s : State} {accel : List Byte} {analog : List Half}

/-- R110: between header and trailer the frame is a list of 16-bit fields. -/
theorem frameBytes_eq_fields : frameBytes s accel analog =
    frameHeader ++ (put16s s.cfg.byteOrder (frameFields s accel analog) ++ frameTrailer) := by
  simp only [frameBytes, frameFields, put16s_append, List.append_assoc]

theorem frameBytes_header : (frameBytes s accel analog).take 5 = frameHeader := by
  rw [frameBytes_eq_fields]
  exact List.take_left' rfl

/-- R110: field `k` stands at offset `5 + 2 k`. -/
theorem frameBytes_field {k : Nat} {v : Half} (h : (frameFields s accel analog)[k]? = some v) :
    ((frameBytes s accel analog).drop (5 + 2 * k)).take 2 = halfBytes s.cfg.byteOrder v := by
  rw [frameBytes_eq_fields, show 5 + 2 * k = frameHeader.length + 2 * k from rfl,
    List.drop_length_add_append]
  exact put16s_field _ h

theorem frameFields_lowBand (b : Fin 6) :
    (frameFields s accel analog)[(b : Nat)]? = some s.lowBand[b] := by
  simp [frameFields, List.getElem?_append_left]

theorem frameFields_highBand (k : Fin 26) :
    (frameFields s accel analog)[6 + (k : Nat)]? = some s.highBand[k] := by
  simp [frameFields, List.getElem?_append_right, List.getElem?_append_left]

theorem frameFields_afterBands (k : Nat) : (frameFields s accel analog)[32 + k]? =
    ([s.energy, s.peakMag, s.peakHz]
      ++ (axes s.cfg.byteOrder accel ++ analog.map (analogField s.cfg)))[k]? := by
  have hbands : (s.lowBand.toList ++ s.highBand.toList).length = 32 := by simp
  rw [frameFields, ← List.append_assoc, List.getElem?_append_right (by omega), hbands,
    Nat.add_sub_cancel_left]

theorem axes_length_of_accBytes (o : ByteOrder) (haccel : accel.length = accBytes) :
    (axes o accel).length = 3 := by rw [axes_length, haccel]; rfl

theorem frameFields_analog (haccel : accel.length = accBytes) {k : Nat} {v : Half}
    (hv : analog[k]? = some v) :
    (frameFields s accel analog)[38 + k]? = some (analogField s.cfg v) := by
  have hbefore : ([s.energy, s.peakMag, s.peakHz] ++ axes s.cfg.byteOrder accel).length = 6 := by
    rw [List.length_append, axes_length_of_accBytes _ haccel]; rfl
  rw [show 38 + k = 32 + (6 + k) by omega, frameFields_afterBands, ← List.append_assoc,
    List.getElem?_append_right (by omega), hbefore, Nat.add_sub_cancel_left, List.getElem?_map, hv,
    Option.map_some]

theorem frameFields_length (haccel : accel.length = accBytes) (hanalog : analog.length = nAnalog) :
    (frameFields s accel analog).length = 44 := by
  simp [frameFields, axes_length_of_accBytes _ haccel, hanalog, nAnalog]

theorem frameBytes_trailer (haccel : accel.length = accBytes) (hanalog : analog.length = nAnalog) :
    (frameBytes s accel analog).drop 93 = frameTrailer := by
  rw [frameBytes_eq_fields, ← List.append_assoc]
  refine List.drop_left' ?_
  rw [List.length_append, put16s_length, frameFields_length haccel hanalog]
  rfl

/-- R66: the accelerometer bytes stand in the frame as they were read, in either byte order. -/
theorem frameBytes_accel (haccel : accel.length = accBytes) {i : Nat} (hi : i < 6) :
    (frameBytes s accel analog)[75 + i]? = accel[i]? := by
  have hcopied : put16s s.cfg.byteOrder (axes s.cfg.byteOrder accel) = accel := by
    match accel, haccel with
    | [a0, a1, a2, a3, a4, a5], _ => exact put16s_axes _ a0 a1 a2 a3 a4 a5
  have hbefore : (frameHeader ++ put16s s.cfg.byteOrder s.lowBand.toList
      ++ put16s s.cfg.byteOrder s.highBand.toList
      ++ put16s s.cfg.byteOrder [s.energy, s.peakMag, s.peakHz]).length = 75 := by
    simp [frameHeader]
  rw [frameBytes, hcopied, List.append_assoc, List.append_assoc,
    List.getElem?_append_right (by omega), hbefore, Nat.add_sub_cancel_left,
    List.getElem?_append_left (by rw [haccel]; exact hi)]

end

/-! ## ENCODE (`44_frame.md` R231) -/

/-- R231, R237: ENCODE of a frame that may be used writes the frame's bytes over all of `FRAMEBUF` and
sends the same bytes. -/
theorem execEncode_sends_frameBytes {s : State} (h : s.MemoryInv) (hown : s.mayUseFrame = true) :
    ∃ t accel analog, execEncode s = .next t
      ∧ readBytes .accel 0 accBytes s = .ok accel
      ∧ readHalves .analogSnap 0 nAnalog s = .ok analog
      ∧ t = { s with frameBuf := t.frameBuf
                     commands := s.commands ++ [.transportSend (frameBytes s accel analog)]
                     result := .empty }
      ∧ ∀ i < frameLen, t.byteAt .frameBuf i = (frameBytes s accel analog)[i]? := by
  obtain ⟨t, ht⟩ := execEncode_completes h hown
  obtain ⟨-, accel, analog, u, sent, haccel, hanalog, hwrite, hsent, rfl⟩ := execEncode_eq_next.1 ht
  obtain ⟨-, haccelLength, -⟩ := readBytes_eq_ok.1 haccel
  obtain ⟨-, hanalogLength, -⟩ := readHalves_eq_ok.1 hanalog
  have hread := readBytes_of_writeBytes (h.byte .frameBuf).1 hwrite
  rw [frameBytes_length haccelLength hanalogLength, hsent, Except.ok.injEq] at hread
  subst hread
  obtain ⟨-, -, hbytes⟩ := readBytes_eq_ok.1 hsent
  obtain ⟨-, rfl⟩ := writeBytes_eq_ok.1 hwrite
  refine ⟨_, accel, analog, ht, haccel, hanalog, rfl, fun i hi => ?_⟩
  rw [← hbytes i hi, Nat.zero_add]
  rfl

/-- Settles O38: the bytes sent are the bytes of the frame, and each field is found in them at its place in
the list of fields. -/
theorem encodeWritesFrame : Obligations.EncodeWritesFrame := by
  rintro s ⟨-, -, -, hmem⟩ hown
  obtain ⟨t, accel, analog, ht, haccel, hanalog, hframe, hbuf⟩ := execEncode_sends_frameBytes hmem hown
  obtain ⟨-, haccelLength, haccelAt⟩ := readBytes_eq_ok.1 haccel
  obtain ⟨-, hanalogLength, hanalogAt⟩ := readHalves_eq_ok.1 hanalog
  refine ⟨t, frameBytes s accel analog, ht, hframe, frameBytes_length haccelLength hanalogLength, hbuf,
    frameBytes_header, fun b => frameBytes_field (frameFields_lowBand b), fun k => ?highBand,
    frameBytes_field (frameFields_afterBands 0), frameBytes_field (frameFields_afterBands 1),
    frameBytes_field (frameFields_afterBands 2), fun _ i hi => ?accel, fun k hk => ?analog,
    frameBytes_trailer haccelLength hanalogLength⟩
  case highBand =>
    rw [show 17 + 2 * (k : Nat) = 5 + 2 * (6 + k) by omega]
    exact frameBytes_field (frameFields_highBand k)
  case accel =>
    rw [frameBytes_accel haccelLength hi, ← haccelAt i hi, Nat.zero_add]
  case analog =>
    have hlt : k < analog.length := by rw [hanalogLength]; exact hk
    have hv : analog[k]? = some analog[k] := List.getElem?_eq_getElem hlt
    refine ⟨analog[k], ?_, ?_⟩
    · rw [← hv, ← hanalogAt k hk, Nat.zero_add]
    · rw [show 81 + 2 * k = 5 + 2 * (38 + k) by omega]
      exact frameBytes_field (frameFields_analog haccelLength hv)

end Sys2Proof.Machine

namespace Sys2Proof.Machine

/-! ## What each transaction operation leaves, branch by branch (`45_transaction.md` R255 to R280) -/

/-- R310: an operation that ends in the violation entry. -/
theorem done_violation (s : State) : done s.violation = .next
    { s with mode := .needsReset, irqen := s.irqen &&& 0xC, dmaCnt := 0, dmaTcif := false,
             commands := s.commands ++ [.busStop], result := .empty } := by
  rw [State.violation_eq]
  rfl

section

variable {b : BitVec 6} {s : State}

theorem execPoll_of_idle (hm : s.mode = .idle) : execPoll s = .next
    { s with mode := .starting, irqen := s.irqen ||| 1,
             commands := s.commands ++ [.busStartWrite s.cfg.accAddr 1], result := .empty } := by
  rw [execPoll, if_pos hm]
  rfl

theorem execPoll_of_ne_idle (hm : s.mode ≠ .idle) : execPoll s = done s.violation := if_neg hm

theorem execReinit_of_atRest (hm : s.mode = .idle ∨ s.mode = .needsReset) :
    execReinit s = done s.reinitialise := if_pos hm

theorem execReinit_of_busy (hm : ¬(s.mode = .idle ∨ s.mode = .needsReset)) :
    execReinit s = done s.violation := if_neg hm

theorem execDmadone_of_not_pending (hf : s.dmaTcif = false) : execDmadone s = done s := if_pos hf

theorem execDmadone_of_reading (hf : s.dmaTcif = true) (hm : s.mode = .reading) :
    execDmadone s = .next { s with mode := .stopping, dmaTcif := false,
                                   commands := s.commands ++ [.busStop], result := .empty } := by
  rw [execDmadone, if_neg (by simp [hf]), if_pos hm]
  rfl

theorem execDmadone_of_ne_reading (hf : s.dmaTcif = true) (hm : s.mode ≠ .reading) :
    execDmadone s = done (s.setDma s.dmaCnt false).violation := by
  rw [execDmadone, if_neg (by simp [hf]), if_neg hm]

/-! ### BUSIRQ (R260 to R268) -/

/-- R101: the error mask holds the three error bits. -/
theorem and_errMask_ne_zero : ∀ b : BitVec 6,
    nack b = true ∨ arLo b = true ∨ bErr b = true → b &&& errMask ≠ 0 := by decide

/-- R268 (c): the stop acknowledge has the one bit STOPF. -/
theorem stopMask_and_of_stopF : ∀ b : BitVec 6, stopF b = true → stopMask &&& b = stopMask := by decide

theorem execBusirq_of_error (hb : b &&& errMask ≠ 0) :
    execBusirq b s = done (s.emit (.irqAck (b &&& errMask))).violation := if_pos hb

theorem execBusirq_of_starting (hb : b &&& errMask = 0) (hm : s.mode = .starting)
    (hbit : txRdy b = true) : execBusirq b s = .next
      { s with mode := .sendingRegister, irqen := (s.irqen &&& 0xE) ||| 2,
               commands := s.commands ++ [.busSendByte (s.cfg.accReg ||| s.cfg.accAutoinc)],
               result := .empty } := by
  rw [execBusirq, if_neg (not_not.2 hb), if_pos ⟨hm, hbit⟩]
  rfl

theorem execBusirq_of_sendingRegister (hb : b &&& errMask = 0) (hm : s.mode = .sendingRegister)
    (hbit : tc b = true) : execBusirq b s = .next
      { s with mode := .reading, irqen := s.irqen &&& 0xD, dmaCnt := 6, dmaTcif := false,
               commands := s.commands ++ [.busStartRead s.cfg.accAddr 6], result := .empty } := by
  rw [execBusirq, if_neg (not_not.2 hb), if_neg (by simp [hm]), if_pos ⟨hm, hbit⟩]
  rfl

theorem execBusirq_of_stopping (hb : b &&& errMask = 0) (hm : s.mode = .stopping)
    (hbit : stopF b = true) : execBusirq b s = .next
      { s with mode := .idle, commands := s.commands ++ [.irqAck 4], result := .empty } := by
  rw [execBusirq, if_neg (not_not.2 hb), if_neg (by simp [hm]), if_neg (by simp [hm]),
    if_pos ⟨hm, hbit⟩]
  rfl

theorem execBusirq_of_needsReset (hb : b &&& errMask = 0) (hm : s.mode = .needsReset) :
    execBusirq b s = done (ackAll b s) := by
  rw [execBusirq, if_neg (not_not.2 hb), if_neg (by simp [hm]), if_neg (by simp [hm]),
    if_neg (by simp [hm]), if_pos hm]

/-- R262: the states in which a BUSIRQ without error bits is the unexpected one. -/
def Unexpected (b : BitVec 6) (m : Mode) : Prop :=
  m = .idle ∨ m = .reading ∨ (m = .starting ∧ txRdy b = false)
    ∨ (m = .sendingRegister ∧ tc b = false) ∨ (m = .stopping ∧ stopF b = false)

theorem execBusirq_of_unexpected (hb : b &&& errMask = 0) (hm : Unexpected b s.mode) :
    execBusirq b s = done (ackAll b s).violation := by
  rw [execBusirq, if_neg (not_not.2 hb)]
  rcases hm with hm | hm | ⟨hm, hbit⟩ | ⟨hm, hbit⟩ | ⟨hm, hbit⟩
  · simp [hm]
  · simp [hm]
  · simp [hm, hbit]
  · simp [hm, hbit]
  · simp [hm, hbit]

/-- R268 (d): nothing is acknowledged when nothing was presented. -/
theorem ackAll_eq (b : BitVec 6) (s : State) : ackAll b s =
    { s with commands := s.commands ++ (if b = 0 then [] else [.irqAck b]) } := by
  by_cases hb : b = 0
  · rw [ackAll, if_neg (not_not.2 hb), if_pos hb, List.append_nil]
  · rw [ackAll, if_pos hb, if_neg hb]
    rfl

/-! ### DMAWR (R270) -/

/-- R270: a count that is not 0 deposits the byte; by R47 the flag was clear. -/
theorem execDmawr_deposits {v : Byte} (h : s.Inv) (hne : s.dmaCnt ≠ 0) :
    ∃ t, execDmawr v s = .next t
      ∧ t = { s with accel := t.accel, dmaCnt := s.dmaCnt - 1,
                     dmaTcif := decide (s.dmaCnt = 1), result := .empty }
      ∧ ∀ a, t.byteAt .accel a
          = if a = 6 - s.dmaCnt.toNat then some v else s.byteAt .accel a := by
  obtain ⟨-, hbus, -, hmem⟩ := h
  obtain ⟨t, ht⟩ := execDmawr_completes hbus v
  obtain ⟨-, hflag, -⟩ := hbus
  have hclear : s.dmaTcif = false := Bool.eq_false_iff.2 fun hf => hne (hflag hf).2
  have hlast : (s.dmaTcif || s.dmaCnt - 1 == 0) = decide (s.dmaCnt = 1) := by
    rw [hclear, Bool.false_or, beq_eq_decide]
    exact decide_eq_decide.2 sub_eq_zero
  rcases execDmawr_eq_next.1 ht with ⟨h0, -⟩ | ⟨-, -, u, hw, hu⟩
  · exact absurd h0 hne
  · refine ⟨t, ht, ?_, fun a => ?_⟩
    · obtain ⟨-, rfl⟩ := writeBytes_eq_ok.1 hw
      rw [← hu, hlast]
      rfl
    · rw [← hu, State.withResult_byteAt, State.setDma_byteAt,
        byteAt_of_writeBytes hw (hmem.byte .accel).1]
      by_cases ha : a = 6 - s.dmaCnt.toNat
      · subst ha
        rw [if_pos ⟨rfl, le_refl _, Nat.lt_succ_self _⟩, if_pos rfl]
        simp [accBytes]
      · rw [if_neg ha, if_neg]
        rintro ⟨-, hle, hlt⟩
        simp only [accBytes, List.length_singleton] at hle hlt
        omega

end

/-! ## The obligations about one operation -/

/-- Settles O39: POLL in `Idle`, and anywhere else. -/
theorem pollStartsOrViolates : Obligations.PollStartsOrViolates := by
  intro s
  exact ⟨execPoll_of_idle, fun hm => (execPoll_of_ne_idle hm).trans (done_violation s)⟩

/-- Settles O40: REINIT at rest, and in a busy state. -/
theorem reinitReturnsToIdle : Obligations.ReinitReturnsToIdle := by
  intro s
  exact ⟨execReinit_of_atRest,
    fun hm => (execReinit_of_busy (not_or.2 hm)).trans (done_violation s)⟩

/-- Settles O41: the number is `modeCode`, read off state by state. -/
theorem rdmodeReadsMode : Obligations.RdmodeReadsMode := by
  intro s
  refine ⟨modeCode s.mode, rfl, ?_, ?_, ?_, ?_, ?_, ?_⟩ <;>
  · intro hm
    rw [hm]
    rfl

/-- Settles O42: the error bits are tested before the state. -/
theorem busErrorForcesReset : Obligations.BusErrorForcesReset := by
  intro b s hb
  refine (execBusirq_of_error (and_errMask_ne_zero b hb)).trans ?_
  rw [done_violation, State.emit_commands, List.append_assoc]
  rfl

/-- Settles O43: one equation for each of the three states that expect a bit. -/
theorem busirqProgresses : Obligations.BusirqProgresses := by
  intro b s hb
  exact ⟨execBusirq_of_starting hb, execBusirq_of_sendingRegister hb, execBusirq_of_stopping hb⟩

/-- Settles O44: the acknowledge of what was presented, then the violation entry. -/
theorem unexpectedBusirqViolates : Obligations.UnexpectedBusirqViolates := by
  intro b s hb hm
  refine (execBusirq_of_unexpected hb hm).trans ?_
  rw [done_violation, ackAll_eq]
  by_cases h0 : b = 0
  · rw [if_pos h0, if_pos h0, List.append_nil]
  · rw [if_neg h0, if_neg h0, List.append_assoc]
    rfl

/-- Settles O45: the acknowledge alone. -/
theorem busirqAbsorbedInNeedsReset : Obligations.BusirqAbsorbedInNeedsReset := by
  intro b s hb hm
  refine (execBusirq_of_needsReset hb hm).trans ?_
  rw [ackAll_eq]
  rfl

/-- Settles O47: no read in progress, and one in progress. -/
theorem dmawrDepositsByte : Obligations.DmawrDepositsByte := by
  intro b s
  exact ⟨fun h0 => execDmawr_eq_next.2 (.inl ⟨h0, rfl⟩), execDmawr_deposits⟩

/-- Settles O48: nothing pending, a completion in `Reading`, and one anywhere else. -/
theorem dmadoneStopsTheBus : Obligations.DmadoneStopsTheBus := by
  intro s
  exact ⟨execDmadone_of_not_pending, execDmadone_of_reading,
    fun hf hm => (execDmadone_of_ne_reading hf hm).trans (done_violation _)⟩

/-! ## The transition table (`45_transaction.md` R252) -/

/-- R260: in each state the bit it expects is there, or it expects none of those presented. -/
theorem unexpected_or_progress (b : BitVec 6) (m : Mode) :
    Unexpected b m ∨ (m = .starting ∧ txRdy b = true) ∨ (m = .sendingRegister ∧ tc b = true)
      ∨ (m = .stopping ∧ stopF b = true) ∨ m = .needsReset := by
  cases m with
  | idle => exact .inl (.inl rfl)
  | starting => cases h : txRdy b <;> simp [Unexpected, h]
  | sendingRegister => cases h : tc b <;> simp [Unexpected, h]
  | reading => exact .inl (.inr (.inl rfl))
  | stopping => cases h : stopF b <;> simp [Unexpected, h]
  | needsReset => simp

/-- R252: the columns of BUSIRQ that no progress transition applies to. -/
theorem transitionOnBusirq_of_unexpected {b : BitVec 6} {m : Mode} (hb : b &&& 0x38 = 0)
    (hm : Unexpected b m) : transitionOnBusirq m b = .needsReset := by
  unfold transitionOnBusirq
  rw [if_neg (not_not.2 hb)]
  rcases hm with rfl | rfl | ⟨rfl, hbit⟩ | ⟨rfl, hbit⟩ | ⟨rfl, hbit⟩
  · rfl
  · rfl
  all_goals exact if_neg (Bool.eq_false_iff.1 hbit)

/-- R252: the BUSIRQ columns of the table. -/
theorem execBusirq_mode {b : BitVec 6} {s t : State} (h : execBusirq b s = .next t) :
    t.mode = transitionOnBusirq s.mode b := by
  have hcolumn {m : Mode} {u : State} (hm : s.mode = m) (hu : execBusirq b s = .next u)
      (hentry : transitionOnBusirq m b = u.mode) : t.mode = transitionOnBusirq s.mode b := by
    rw [hu] at h
    cases h
    rw [hm, hentry]
  by_cases hb : b &&& errMask = 0
  case neg => exact hcolumn rfl (execBusirq_of_error hb) (if_pos hb)
  case pos =>
    have hnoError : ¬(b &&& 0x38 ≠ 0) := not_not.2 hb
    rcases unexpected_or_progress b s.mode with
      hm | ⟨hm, hbit⟩ | ⟨hm, hbit⟩ | ⟨hm, hbit⟩ | hm
    · exact hcolumn rfl (execBusirq_of_unexpected hb hm) (transitionOnBusirq_of_unexpected hb hm)
    · exact hcolumn hm (execBusirq_of_starting hb hm hbit) ((if_neg hnoError).trans (if_pos hbit))
    · exact hcolumn hm (execBusirq_of_sendingRegister hb hm hbit)
        ((if_neg hnoError).trans (if_pos hbit))
    · exact hcolumn hm (execBusirq_of_stopping hb hm hbit) ((if_neg hnoError).trans (if_pos hbit))
    · refine hcolumn hm (execBusirq_of_needsReset hb hm) ((if_neg hnoError).trans ?_)
      rw [ackAll_eq]
      exact hm.symm

theorem execPoll_mode {s t : State} (h : execPoll s = .next t) :
    t.mode = if s.mode = .idle then .starting else .needsReset := by
  by_cases hm : s.mode = .idle
  · rw [execPoll_of_idle hm] at h
    cases h
    exact (if_pos hm).symm
  · rw [execPoll_of_ne_idle hm] at h
    cases h
    exact (if_neg hm).symm

theorem execReinit_mode {s t : State} (h : execReinit s = .next t) :
    t.mode = if s.mode = .idle ∨ s.mode = .needsReset then .idle else .needsReset := by
  by_cases hm : s.mode = .idle ∨ s.mode = .needsReset
  · rw [execReinit_of_atRest hm] at h
    cases h
    exact (if_pos hm).symm
  · rw [execReinit_of_busy hm] at h
    cases h
    exact (if_neg hm).symm

/-- Settles O46, one column group after the other; R47 (b) puts a pending completion in `Reading`. -/
theorem transitionTable : Obligations.TransitionTable := by
  intro s
  refine ⟨?poll, fun b => ?busirq, ?dmadone, ?reinit, fun b t ht => ?dmawr, _, rfl, rfl⟩
  case poll => exact (execPoll_completes s).imp fun t ht => ⟨ht, execPoll_mode ht⟩
  case busirq => exact (execBusirq_completes b s).imp fun t ht => ⟨ht, execBusirq_mode ht⟩
  case reinit => exact (execReinit_completes s).imp fun t ht => ⟨ht, execReinit_mode ht⟩
  case dmawr =>
    rw [execDmawr_frame ht]
  case dmadone =>
    obtain ⟨t, ht⟩ := execDmadone_completes s
    refine ⟨t, ht, fun hf hbus => ?_, fun hf => ?_⟩
    · obtain ⟨-, hpending, -⟩ := hbus
      obtain ⟨hm, -⟩ := hpending hf
      rw [execDmadone_of_reading hf hm] at ht
      cases ht
      exact ⟨hm, rfl⟩
    · rw [execDmadone_of_not_pending hf] at ht
      cases ht
      rfl

/-! ## Sequences of transaction operations (`45_transaction.md` R281, R283) -/

/-- An operation that completes is followed by the rest of the sequence. -/
theorem execAll_cons {i : Instr} {s t : State} (h : exec i s = .next t) (is : List Instr) :
    execAll (i :: is) s = execAll is t := by
  simp only [execAll, h]

/-- R285: so does a sequence of operations. -/
theorem execAll_keeps_inv {is : List Instr} {s t : State} (h : s.Inv) (he : execAll is s = .next t) :
    t.Inv := by
  induction is generalizing s with
  | nil =>
    cases he
    exact h
  | cons i is ih =>
    cases hi : exec i s with
    | next u =>
      rw [execAll_cons hi] at he
      exact ih (exec_keeps_inv h hi) he
    | fault f => simp [execAll, hi] at he
    | refused r => simp [execAll, hi] at he

/-- R283: REINIT after an operation that ends in `Idle` or in `NeedsReset`. -/
theorem execAll_reinit_recovers {i : Instr} {s u : State} (h : exec i s = .next u)
    (hm : u.mode = .idle ∨ u.mode = .needsReset) :
    ∃ t, execAll [i, .reinit] s = .next t ∧ t.mode = .idle ∧ t.irqen = 0xC ∧ t.dmaCnt = 0
      ∧ t.dmaTcif = false := by
  have hreinit : exec .reinit u = .next (u.reinitialise.withResult .empty) := execReinit_of_atRest hm
  exact ⟨_, (execAll_cons h _).trans (execAll_cons hreinit _), rfl, rfl, rfl, rfl⟩

/-- Settles O52: REINIT, and POLL outside `Idle`, end in a state from which REINIT recovers. -/
theorem recoveryInTwoOperations : Obligations.RecoveryInTwoOperations := by
  intro s
  refine ⟨?_, fun hm => ?_⟩
  · obtain ⟨u, hu⟩ := execReinit_completes s
    refine execAll_reinit_recovers hu ?_
    rw [execReinit_mode hu]
    split
    · exact .inl rfl
    · exact .inr rfl
  · obtain ⟨u, hu⟩ := execPoll_completes s
    refine execAll_reinit_recovers hu (.inr ?_)
    rw [execPoll_mode hu, if_neg hm]

/-- R281: from `Idle` to the read in progress. -/
theorem execAll_startRead {s : State} (hm : s.mode = .idle) (hirq : s.irqen = 0xC) :
    execAll [.poll, .busirq 0x01, .busirq 0x02] s = .next
      { s with mode := .reading, irqen := 0xC, dmaCnt := 6, dmaTcif := false,
               commands := s.commands ++ [.busStartWrite s.cfg.accAddr 1,
                 .busSendByte (s.cfg.accReg ||| s.cfg.accAutoinc), .busStartRead s.cfg.accAddr 6],
               result := .empty } := by
  rw [execAll_cons (i := .poll) (execPoll_of_idle hm),
    execAll_cons (i := .busirq 0x01) (execBusirq_of_starting rfl rfl rfl),
    execAll_cons (i := .busirq 0x02) (execBusirq_of_sendingRegister rfl rfl rfl)]
  simp [execAll, hirq]

/-- R281: from the completed read back to `Idle`. -/
theorem execAll_endRead {s : State} (hm : s.mode = .reading) (hf : s.dmaTcif = true) :
    execAll [.dmadone, .busirq 0x04] s = .next
      { s with mode := .idle, dmaTcif := false, commands := s.commands ++ [.busStop, .irqAck 4],
               result := .empty } := by
  rw [execAll_cons (i := .dmadone) (execDmadone_of_reading hf hm),
    execAll_cons (i := .busirq 0x04) (execBusirq_of_stopping rfl rfl rfl)]
  simp [execAll]

/-- R270: DMAWR of as many bytes as the read in progress still counts puts them in order at the end of
`ACCEL`, from `base` on, and leaves the completion pending. -/
theorem execAll_dmawr {bs : List Byte} {s : State} {base : Nat} (h : s.Inv)
    (hcnt : s.dmaCnt.toNat = bs.length) (hbase : base + bs.length = 6)
    (hflag : s.dmaTcif = decide (s.dmaCnt = 0)) :
    ∃ t, execAll (bs.map .dmawr) s = .next t
      ∧ t = { s with accel := t.accel, dmaCnt := 0, dmaTcif := true, result := t.result }
      ∧ (∀ k < bs.length, t.byteAt .accel (base + k) = bs[k]?)
      ∧ ∀ a < base, t.byteAt .accel a = s.byteAt .accel a := by
  induction bs generalizing s base with
  | nil =>
    have h0 : s.dmaCnt = 0 := BitVec.eq_of_toNat_eq hcnt
    rw [decide_eq_true h0] at hflag
    refine ⟨s, rfl, ?_, nofun, fun _ _ => rfl⟩
    rw [← h0, ← hflag]
  | cons v vs ih =>
    rw [List.length_cons] at hcnt hbase
    have hne : s.dmaCnt ≠ 0 := fun h0 => by simp [h0] at hcnt
    obtain ⟨u, hu, hframe, hbytes⟩ := execDmawr_deposits (v := v) h hne
    have hleft : u.dmaCnt = s.dmaCnt - 1 := by rw [hframe]
    have hpending : u.dmaTcif = decide (u.dmaCnt = 0) := by
      rw [hleft, hframe]
      exact decide_eq_decide.2 sub_eq_zero.symm
    have hrest : u.dmaCnt.toNat = vs.length := by
      rw [hleft]
      bv_omega
    have hplace : 6 - s.dmaCnt.toNat = base := by omega
    obtain ⟨t, ht, htframe, hafter, hbefore⟩ := ih (base := base + 1) (execDmawr_keeps_inv h hu) hrest
      (by omega) hpending
    refine ⟨t, (execAll_cons (i := .dmawr v) hu _).trans ht, ?frame, fun k hk => ?written,
      fun a ha => ?unwritten⟩
    case frame => rw [htframe, hframe]
    case written =>
      cases k with
      | zero =>
        rw [Nat.add_zero, hbefore _ (Nat.lt_succ_self _), hbytes, if_pos hplace.symm]
        rfl
      | succ k =>
        rw [← Nat.add_assoc, Nat.add_right_comm, hafter k (Nat.lt_of_succ_lt_succ hk)]
        rfl
    case unwritten => rw [hbefore a (by omega), hbytes, if_neg (by omega)]

/-- Settles O51: the start of the read, the six bytes, the end of the read. -/
theorem successSequence : Obligations.SuccessSequence := by
  intro s b0 b1 b2 b3 b4 b5 h hm hirq
  have ⟨_, hbus, _⟩ := h
  obtain ⟨hcnt, hflag⟩ := hbus.dma_quiet (by simp [hm])
  have hstart := execAll_startRead hm hirq
  obtain ⟨u, hu, hframe, hbytes, -⟩ := execAll_dmawr (bs := [b0, b1, b2, b3, b4, b5]) (base := 0)
    (execAll_keeps_inv h hstart) rfl rfl rfl
  have hend := execAll_endRead (s := u) (by rw [hframe]) (by rw [hframe])
  refine ⟨_, (execAll_append _ hstart).trans ((execAll_append _ hu).trans hend), ?_, fun k hk => ?_⟩
  · rw [hframe]
    simp [hm, hirq, hcnt, hflag]
  · rw [← hbytes k hk, Nat.zero_add]
    rfl

/-! ## What is appended to the command stream (`45_transaction.md` R268) -/

/-- `t` has the commands of `s` and after them only commands that satisfy `P`. -/
def AppendsOnly (P : Command → Prop) (s t : State) : Prop :=
  ∃ cs, t.commands = s.commands ++ cs ∧ ∀ c ∈ cs, P c

section

variable {P : Command → Prop} {s t u : State}

theorem AppendsOnly.of_same (h : t.commands = s.commands) : AppendsOnly P s t :=
  ⟨[], by rw [h, List.append_nil], nofun⟩

/-- One more command. -/
theorem AppendsOnly.snoc {x : Command} (h : AppendsOnly P s t)
    (hu : u.commands = t.commands ++ [x]) (hx : P x) : AppendsOnly P s u := by
  obtain ⟨cs, hcs, hP⟩ := h
  refine ⟨cs ++ [x], by rw [hu, hcs, List.append_assoc], fun c hc => ?_⟩
  rcases List.mem_append.1 hc with hc | hc
  · exact hP c hc
  · rwa [List.mem_singleton.1 hc]

theorem AppendsOnly.one {x : Command} (hu : u.commands = s.commands ++ [x]) (hx : P x) :
    AppendsOnly P s u :=
  (of_same rfl).snoc hu hx

end

/-- If `c` is an acknowledge, operation `i` is a BUSIRQ that presented every bit of it (R268). -/
def AcknowledgesPresented (i : Instr) (c : Command) : Prop :=
  ∀ m, c = .irqAck m → ∃ b, i = .busirq b ∧ m &&& b = m

theorem AcknowledgesPresented.of_ne {i : Instr} {c : Command} (h : ∀ m, c ≠ .irqAck m) :
    AcknowledgesPresented i c :=
  fun m hm => absurd hm (h m)

theorem AcknowledgesPresented.of_mask {b m : BitVec 6} (h : m &&& b = m) :
    AcknowledgesPresented (.busirq b) (.irqAck m) := by
  rintro _ ⟨⟩
  exact ⟨b, rfl, h⟩

section

variable {i : Instr} {s t : State}

theorem execPoll_acknowledges (h : execPoll s = .next t) :
    AppendsOnly (AcknowledgesPresented i) s t := by
  unfold execPoll at h
  split_ifs at h
  · cases h
    exact .one rfl (.of_ne nofun)
  · cases h
    exact .one rfl (.of_ne nofun)

theorem execReinit_acknowledges (h : execReinit s = .next t) :
    AppendsOnly (AcknowledgesPresented i) s t := by
  unfold execReinit at h
  split_ifs at h
  · cases h
    exact .one rfl (.of_ne nofun)
  · cases h
    exact .one rfl (.of_ne nofun)

theorem execDmadone_acknowledges (h : execDmadone s = .next t) :
    AppendsOnly (AcknowledgesPresented i) s t := by
  unfold execDmadone at h
  split_ifs at h
  · cases h
    exact .of_same rfl
  · cases h
    exact .one rfl (.of_ne nofun)
  · cases h
    exact .one rfl (.of_ne nofun)

/-- R268 (d): an acknowledge of everything presented has no other bit. -/
theorem ackAll_acknowledges (b : BitVec 6) (s : State) :
    AppendsOnly (AcknowledgesPresented (.busirq b)) s (ackAll b s) := by
  unfold ackAll
  split
  · exact .one rfl (.of_mask BitVec.and_self)
  · exact .of_same rfl

/-- R268 (b) to (d): the error bits presented, the stop bit where it is presented, or every bit. -/
theorem execBusirq_acknowledges {b : BitVec 6} (h : execBusirq b s = .next t) :
    AppendsOnly (AcknowledgesPresented (.busirq b)) s t := by
  unfold execBusirq at h
  split_ifs at h with herr hstart hsend hstop hreset
  · cases h
    have hmask : b &&& errMask &&& b = b &&& errMask := by
      rw [BitVec.and_comm, ← BitVec.and_assoc, BitVec.and_self]
    exact (AppendsOnly.one rfl (.of_mask hmask)).snoc (t := s.emit _) rfl (.of_ne nofun)
  · cases h
    exact .one rfl (.of_ne nofun)
  · cases h
    exact .one rfl (.of_ne nofun)
  · cases h
    obtain ⟨-, hbit⟩ := hstop
    exact .one rfl (.of_mask (stopMask_and_of_stopF b hbit))
  · cases h
    exact ackAll_acknowledges b s
  · cases h
    exact (ackAll_acknowledges b s).snoc rfl (.of_ne nofun)

/-- R268: the acknowledges of every operation; the operations that send no bus command keep the stream or
send a frame. -/
theorem exec_acknowledges (h : exec i s = .next t) : AppendsOnly (AcknowledgesPresented i) s t := by
  cases i with
  | isqrt x => cases h; exact .of_same rfl
  | fsqrt x => obtain ⟨r, rfl⟩ := execFsqrt_result h; exact .of_same rfl
  | fft m inv re im => obtain ⟨r, rfl⟩ := execFft_result h; exact .of_same rfl
  | sample raw an => rw [(execSample_frame h).1]; exact .of_same rfl
  | take => cases h; exact .of_same rfl
  | anlo => rw [execAnlo_frame h]; exact .of_same rfl
  | anhi => rw [(execAnhi_frame h).1]; exact .of_same rfl
  | encode => obtain ⟨sent, ht⟩ := execEncode_frame h; rw [ht]; exact .one rfl (.of_ne nofun)
  | poll => exact execPoll_acknowledges h
  | reinit => exact execReinit_acknowledges h
  | rdmode => cases h; exact .of_same rfl
  | busirq b => exact execBusirq_acknowledges h
  | dmawr b => rw [execDmawr_frame h]; exact .of_same rfl
  | dmadone => exact execDmadone_acknowledges h

end

/-- Settles O49, by what each operation appends. -/
theorem acknowledgesOnlyPresented : Obligations.AcknowledgesOnlyPresented := by
  intro i s t h
  obtain ⟨cs, hcs, hack⟩ := exec_acknowledges h
  exact ⟨cs, hcs, fun m hm => hack _ hm m rfl⟩

end Sys2Proof.Machine

namespace Sys2Proof.Machine

/-! ## What the operations of each port leave unchanged (`60_exceptions.md` R317) -/

section

variable {s t : State}

theorem halves_high_eq_of_sides (h0 : t.high0 = s.high0) (h1 : t.high1 = s.high1) (side : Side) :
    t.halves (.high side) = s.halves (.high side) := by
  cases side
  · exact h0
  · exact h1

/-- R317, port CAP. -/
def CapKeeps (s t : State) : Prop :=
  SameBus s t ∧ t.accel = s.accel ∧ SameResults s t ∧ t.frameBuf = s.frameBuf
    ∧ t.imag = s.imag ∧ t.commands = s.commands ∧ SameOutside s t
    ∧ t.halves (.high s.active.other) = s.halves (.high s.active.other)

/-- R317, port ML. -/
def MlKeeps (s t : State) : Prop :=
  SameCapture s t ∧ t.accel = s.accel ∧ t.analogSnap = s.analogSnap ∧ SameOutside s t
    ∧ t.halves (.high s.active) = s.halves (.high s.active)
    ∧ (t.frameReady = true → s.frameReady = true)

/-- R317, port BUS. -/
def BusKeeps (s t : State) : Prop :=
  SameCapture s t ∧ SameHandOff s t ∧ SameHigh s t ∧ SameResults s t
    ∧ t.accel = s.accel ∧ t.frameBuf = s.frameBuf ∧ SameOutside s t

/-- R317, port DMA. -/
def DmaKeeps (s t : State) : Prop :=
  t = { s with accel := t.accel, dmaCnt := t.dmaCnt, dmaTcif := t.dmaTcif,
               mode := t.mode, commands := t.commands, result := t.result }

/-- R317, port AU: the result record alone changes. -/
theorem eq_of_withResult {r : Result} (h : s.withResult r = t) : t = { s with result := t.result } := by
  rw [← h]
  rfl

/-- R161: the ready side is what the frame of SAMPLE names apart. -/
theorem execSample_keeps {raw : Half} {an : Analog} (h : execSample raw an s = .next t) :
    CapKeeps s t := by
  obtain ⟨hframe, hready⟩ := execSample_frame h
  refine ⟨?_, ?_, ?_, ?_, ?_, ?_, ?_, hready⟩ <;> rw [hframe]
  · exact ⟨rfl, rfl, rfl, rfl⟩
  · exact ⟨rfl, rfl, rfl, rfl, rfl, rfl, rfl⟩
  · exact ⟨rfl, rfl, rfl⟩

/-- R175: TAKE clears `FRAME_READY` and claims the frame, and writes nothing else of the block. -/
theorem execTake_keeps (h : execTake s = .next t) : MlKeeps s t := by
  cases h
  exact ⟨⟨rfl, rfl, rfl, rfl, rfl, rfl, rfl⟩, rfl, rfl, ⟨rfl, rfl, rfl⟩,
    halves_high_eq_of_sides rfl rfl _, nofun⟩

/-- An operation of port ML that leaves the capture and the hand-off registers alone has only the active
side still to answer for. -/
theorem MlKeeps.of_frame (hcap : SameCapture s t) (haccel : t.accel = s.accel)
    (hsnap : t.analogSnap = s.analogSnap) (hout : SameOutside s t)
    (hready : t.frameReady = s.frameReady)
    (hactive : t.halves (.high s.active) = s.halves (.high s.active)) : MlKeeps s t :=
  ⟨hcap, haccel, hsnap, hout, hactive, fun h => hready ▸ h⟩

theorem execAnlo_keeps (h : execAnlo s = .next t) : MlKeeps s t := by
  refine .of_frame ?_ ?_ ?_ ?_ ?_ (halves_high_eq_of_sides ?_ ?_ _) <;> rw [execAnlo_frame h]
  · exact ⟨rfl, rfl, rfl, rfl, rfl, rfl, rfl⟩
  · exact ⟨rfl, rfl, rfl⟩

/-- R215: ANHI writes a side of `HIGH`, the ready one. -/
theorem execAnhi_keeps (h : execAnhi s = .next t) : MlKeeps s t := by
  obtain ⟨hframe, hactive⟩ := execAnhi_frame h
  refine .of_frame ?_ ?_ ?_ ?_ ?_ hactive <;> rw [hframe]
  · exact ⟨rfl, rfl, rfl, rfl, rfl, rfl, rfl⟩
  · exact ⟨rfl, rfl, rfl⟩

theorem execEncode_keeps (h : execEncode s = .next t) : MlKeeps s t := by
  obtain ⟨sent, hframe⟩ := execEncode_frame h
  refine .of_frame ?_ ?_ ?_ ?_ ?_ (halves_high_eq_of_sides ?_ ?_ _) <;> rw [hframe]
  · exact ⟨rfl, rfl, rfl, rfl, rfl, rfl, rfl⟩
  · exact ⟨rfl, rfl, rfl⟩

/-- R317: what changes transaction registers alone keeps all that port BUS may not write. -/
theorem OnlyBus.busKeeps (h : OnlyBus s t) : BusKeeps s t := by
  rw [h]
  exact ⟨⟨rfl, rfl, rfl, rfl, rfl, rfl, rfl⟩, ⟨rfl, rfl, rfl, rfl⟩, ⟨rfl, rfl, rfl⟩,
    ⟨rfl, rfl, rfl, rfl, rfl, rfl, rfl⟩, rfl, rfl, ⟨rfl, rfl, rfl⟩⟩

/-- The transaction operations of port ML keep what port BUS keeps, which is more than ML must. -/
theorem BusKeeps.mlKeeps (h : BusKeeps s t) : MlKeeps s t := by
  obtain ⟨hcap, ⟨-, hsnap, hready, -⟩, ⟨hside0, hside1, -⟩, -, haccel, -, hout⟩ := h
  exact .of_frame hcap haccel hsnap hout hready (halves_high_eq_of_sides hside0 hside1 _)

theorem execRdmode_onlyBus (h : execRdmode s = .next t) : OnlyBus s t := by
  cases h
  rfl

theorem execDmawr_keeps {b : Byte} (h : execDmawr b s = .next t) : DmaKeeps s t := by
  unfold DmaKeeps
  rw [execDmawr_frame h]

/-- R300, R317: R47 (b) puts a pending completion in `Reading`, so the violation entry, which writes
`IRQEN`, is not reached. -/
theorem execDmadone_keeps (hbus : s.BusInv) (h : execDmadone s = .next t) : DmaKeeps s t := by
  cases hf : s.dmaTcif with
  | false =>
    rw [execDmadone_of_not_pending hf] at h
    cases h
    rfl
  | true =>
    obtain ⟨-, hpending, -⟩ := hbus
    obtain ⟨hm, -⟩ := hpending hf
    rw [execDmadone_of_reading hf hm] at h
    cases h
    rfl

end

/-- Settles O53, operation by operation, each by what its port keeps. -/
theorem contextsKeepTheirState : Obligations.ContextsKeepTheirState := by
  intro i s t hbus h
  cases i with
  | isqrt x => cases h; exact eq_of_withResult rfl
  | fsqrt x => obtain ⟨r, hr⟩ := execFsqrt_result h; exact eq_of_withResult hr
  | fft m inv re im => obtain ⟨r, hr⟩ := execFft_result h; exact eq_of_withResult hr
  | sample raw an => exact execSample_keeps h
  | take => exact execTake_keeps h
  | anlo => exact execAnlo_keeps h
  | anhi => exact execAnhi_keeps h
  | encode => exact execEncode_keeps h
  | poll => exact (execPoll_frame h).busKeeps.mlKeeps
  | reinit => exact (execReinit_frame h).busKeeps.mlKeeps
  | rdmode => exact (execRdmode_onlyBus h).busKeeps.mlKeeps
  | busirq b => exact (execBusirq_frame h).busKeeps
  | dmawr b => exact execDmawr_keeps h
  | dmadone => exact execDmadone_keeps hbus h

/-! ## The way out of `NeedsReset` (`60_exceptions.md` R313) -/

/-- R252: the row `NeedsReset` of the BUSIRQ columns. -/
theorem transitionOnBusirq_needsReset (b : BitVec 6) :
    transitionOnBusirq .needsReset b = .needsReset :=
  ite_self _

section

variable {s t : State}

theorem execPoll_stays_needsReset (hm : s.mode = .needsReset) (h : execPoll s = .next t) :
    t.mode = .needsReset := by
  rw [execPoll_mode h, hm]
  rfl

theorem execBusirq_stays_needsReset {b : BitVec 6} (hm : s.mode = .needsReset)
    (h : execBusirq b s = .next t) : t.mode = .needsReset := by
  rw [execBusirq_mode h, hm, transitionOnBusirq_needsReset]

/-- DMADONE with a completion pending outside `Reading` enters `NeedsReset` again (R272). -/
theorem execDmadone_stays_needsReset (hm : s.mode = .needsReset) (h : execDmadone s = .next t) :
    t.mode = .needsReset := by
  cases hf : s.dmaTcif with
  | false =>
    rw [execDmadone_of_not_pending hf] at h
    cases h
    exact hm
  | true =>
    rw [execDmadone_of_ne_reading hf (by rw [hm]; decide)] at h
    cases h
    rfl

/-- R313: the operations that do not write `MODE` keep it, and those that write it stay here, REINIT
apart. -/
theorem exec_stays_needsReset_or_reinit {i : Instr} (hm : s.mode = .needsReset)
    (h : exec i s = .next t) : t.mode = .needsReset ∨ i = .reinit := by
  cases i with
  | reinit => exact .inr rfl
  | isqrt x => cases h; exact .inl hm
  | fsqrt x => obtain ⟨r, rfl⟩ := execFsqrt_result h; exact .inl hm
  | fft m inv re im => obtain ⟨r, rfl⟩ := execFft_result h; exact .inl hm
  | sample raw an => rw [(execSample_frame h).1]; exact .inl hm
  | take => cases h; exact .inl hm
  | anlo => rw [execAnlo_frame h]; exact .inl hm
  | anhi => rw [(execAnhi_frame h).1]; exact .inl hm
  | encode => obtain ⟨sent, ht⟩ := execEncode_frame h; rw [ht]; exact .inl hm
  | poll => exact .inl (execPoll_stays_needsReset hm h)
  | rdmode => cases h; exact .inl hm
  | busirq b => exact .inl (execBusirq_stays_needsReset hm h)
  | dmawr b => rw [execDmawr_frame h]; exact .inl hm
  | dmadone => exact .inl (execDmadone_stays_needsReset hm h)

end

/-- Settles O50, by the operations one after the other, and REINIT at rest. -/
theorem onlyReinitLeavesNeedsReset : Obligations.OnlyReinitLeavesNeedsReset := by
  refine ⟨fun i s t hm h => exec_stays_needsReset_or_reinit hm h, fun s hm => ?_⟩
  exact ⟨_, execReinit_of_atRest (.inr hm), rfl, rfl, rfl, rfl, rfl, rfl⟩

end Sys2Proof.Machine

namespace Sys2Proof.Machine

/-! ## What reset leaves in the memories (`10_state.md` R51, `70_reset_and_hazards.md` R340) -/

/-- Nothing is listed, so every element has the value R51 gives its memory, or none. -/
theorem halfAt_resetWith (c : Config) (sp : HalfSpace) (a : Nat) :
    (State.resetWith c).halfAt sp a = sp.unlisted := by
  rcases sp with (_ | _) | _ | _ | _ | _ <;> rfl

theorem byteAt_resetWith (c : Config) (sp : ByteSpace) (a : Nat) :
    (State.resetWith c).byteAt sp a = sp.unlisted := by
  cases sp <;> rfl

/-- Settles O55: registers by the definition of reset, memories element by element. -/
theorem resetValues : Obligations.ResetValues := by
  intro c
  refine ⟨_, rfl, rfl, rfl, rfl, rfl, rfl, rfl, rfl, rfl, rfl, rfl, rfl, rfl,
    fun _ => Vector.getElem_replicate _, fun _ => Vector.getElem_replicate _, rfl, rfl, rfl, rfl, rfl,
    fun side => halfAt_resetWith c (.high side), halfAt_resetWith c .ring,
    halfAt_resetWith c .lowSnap, halfAt_resetWith c .analogSnap, byteAt_resetWith c .accel,
    halfAt_resetWith c .imag, byteAt_resetWith c .frameBuf, rfl, rfl⟩

/-! ## The frame without ownership (`70_reset_and_hazards.md` R352, R354) -/

section

variable {s : State}

/-- R352: under the fault treatment the ready data may be used only when owned. -/
theorem mayUseFrame_of_not_own (hown : s.own = false) (hfault : s.cfg.undefinedAs = .fault) :
    s.mayUseFrame = false := by
  rw [State.mayUseFrame, hfault]
  exact hown

theorem exec_anlo_of_not_mayUseFrame (hcfg : anloOk s.cfg = true) (hframe : s.mayUseFrame = false) :
    exec .anlo s = .fault .frameNotOwned := by
  rw [exec_anlo_eq, execAnlo, hcfg, hframe]
  rfl

theorem exec_anhi_of_not_mayUseFrame (hcfg : anhiOk s.cfg = true) (hframe : s.mayUseFrame = false) :
    exec .anhi s = .fault .frameNotOwned := by
  rw [exec_anhi_eq, execAnhi, hcfg, hframe]
  rfl

theorem exec_encode_of_not_mayUseFrame (hframe : s.mayUseFrame = false) :
    exec .encode s = .fault .frameNotOwned := by
  change execEncode s = _
  rw [execEncode, hframe]
  rfl

end

/-- Settles O35: the three operations test the same ghost bit before they do anything else. -/
theorem unownedFrameFaults : Obligations.UnownedFrameFaults := by
  intro s hown hfault
  have hframe := mayUseFrame_of_not_own hown hfault
  exact ⟨fun hcfg => exec_anlo_of_not_mayUseFrame hcfg hframe,
    fun hcfg => exec_anhi_of_not_mayUseFrame hcfg hframe, exec_encode_of_not_mayUseFrame hframe⟩

end Sys2Proof.Machine

namespace Sys2Proof.Machine

/-! ## SAMPLE and the other contexts (`70_reset_and_hazards.md` R353, R356)

A SAMPLE that does not flip writes the capture registers, the ring and the active side of `HIGH`, and apart
from them reads only the configuration and `ACTIVE`. The operations of the ports ML, BUS and DMA neither
read nor write these. So a state is taken as two parts, and each operation acts on one of them. -/

/-- `s` with the capture registers, the ring and the active side of `w`: what a SAMPLE that does not flip
may change. -/
def State.withCaptureOf (s w : State) : State :=
  { s with avg := w.avg, decAcc := w.decAcc, decCnt := w.decCnt, head := w.head,
           writePos := w.writePos, ring := w.ring,
           high0 := if s.active = .side0 then w.high0 else s.high0,
           high1 := if s.active = .side1 then w.high1 else s.high1 }

/-- `s` after a SAMPLE that left the capture part of `w` and its empty result (`30_encoding.md` R92). -/
def State.afterSample (s w : State) : State := (s.withCaptureOf w).withResult .empty

/-- The memories of the capture part. -/
def InCapture (active : Side) (sp : HalfSpace) : Prop := sp = .ring ∨ sp = .high active

section

variable {s t u w : State} {sp : HalfSpace} {base : Nat} {vs : List Half}

/-- The capture part of `w` in place of an equal one changes nothing. -/
theorem State.withCaptureOf_eq_self (hcapture : SameCapture s w)
    (hside : w.halves (.high s.active) = s.halves (.high s.active)) : s.withCaptureOf w = s := by
  obtain ⟨havg, hacc, hcnt, hhead, hpos, -, hring⟩ := hcapture
  have hside0 : (if s.active = .side0 then w.high0 else s.high0) = s.high0 :=
    ite_eq_right_iff.2 fun h => by rwa [h] at hside
  have hside1 : (if s.active = .side1 then w.high1 else s.high1) = s.high1 :=
    ite_eq_right_iff.2 fun h => by rwa [h] at hside
  rw [State.withCaptureOf, havg, hacc, hcnt, hhead, hpos, hring, hside0, hside1]

/-! ### The memories of either part -/

theorem State.withCaptureOf_halves_of_inCapture (hsp : InCapture s.active sp) :
    (s.withCaptureOf w).halves sp = w.halves sp := by
  rcases hsp with rfl | rfl
  · rfl
  · cases h : s.active <;> simp [State.halves, State.withCaptureOf, h]

theorem State.withCaptureOf_halves_of_not_inCapture (hsp : ¬InCapture s.active sp) :
    (s.withCaptureOf w).halves sp = s.halves sp := by
  rcases sp with side | _ | _ | _ | _
  · have hside : s.active ≠ side := fun h => hsp (.inr (h ▸ rfl))
    cases side <;> exact if_neg hside
  · exact absurd (.inl rfl) hsp
  all_goals rfl

theorem State.withCaptureOf_setHalves_of_inCapture (hsp : InCapture s.active sp) (m : Mem 16) :
    (s.withCaptureOf w).setHalves sp m = s.withCaptureOf (w.setHalves sp m) := by
  rcases hsp with rfl | rfl
  · rfl
  · cases h : s.active <;> simp [State.setHalves, State.withCaptureOf, h]

theorem State.withCaptureOf_setHalves_of_not_inCapture (hsp : ¬InCapture s.active sp) (m : Mem 16) :
    (s.withCaptureOf w).setHalves sp m = (s.setHalves sp m).withCaptureOf w := by
  rcases sp with side | _ | _ | _ | _
  · have hside : s.active ≠ side := fun h => hsp (.inr (h ▸ rfl))
    cases side <;> simp [State.setHalves, State.withCaptureOf, hside] <;> rfl
  · exact absurd (.inl rfl) hsp
  all_goals rfl

/-- A write of the capture part reaches the other part neither to read nor to write. -/
theorem writeHalves_withCaptureOf_of_inCapture (hcfg : w.cfg = s.cfg) (hsp : InCapture s.active sp)
    (h : writeHalves sp base vs w = .ok t) :
    writeHalves sp base vs (s.withCaptureOf w) = .ok (s.withCaptureOf t) := by
  obtain ⟨hrange, rfl⟩ := writeHalves_eq_ok.1 h
  rw [hcfg] at hrange
  refine writeHalves_eq_ok.2 ⟨hrange, ?_⟩
  rw [State.withCaptureOf_halves_of_inCapture hsp, State.withCaptureOf_setHalves_of_inCapture hsp]

/-- A write of the other part does not reach the capture part. -/
theorem writeHalves_withCaptureOf_of_not_inCapture (hsp : ¬InCapture s.active sp)
    (h : writeHalves sp base vs s = .ok t) :
    writeHalves sp base vs (s.withCaptureOf w) = .ok (t.withCaptureOf w) := by
  obtain ⟨hrange, rfl⟩ := writeHalves_eq_ok.1 h
  refine writeHalves_eq_ok.2 ⟨hrange, ?_⟩
  rw [State.withCaptureOf_halves_of_not_inCapture hsp,
    State.withCaptureOf_setHalves_of_not_inCapture hsp]

theorem readHalves_withCaptureOf (hsp : ¬InCapture s.active sp) (base n : Nat) :
    readHalves sp base n (s.withCaptureOf w) = readHalves sp base n s :=
  readHalves_congr (s := s) (t := s.withCaptureOf w) rfl
    (State.withCaptureOf_halves_of_not_inCapture hsp) base n

/-! ### SAMPLE acts on the capture part (`42_capture.md` R161) -/

theorem dc_withCaptureOf (hcfg : w.cfg = s.cfg) : (s.withCaptureOf w).dc = w.dc := by
  rw [State.dc, State.dc, hcfg]
  rfl

/-- Step 1 (R163). -/
theorem sampleAverage_withCaptureOf (raw : Half) (hcfg : w.cfg = s.cfg) :
    sampleAverage raw (s.withCaptureOf w) = s.withCaptureOf (sampleAverage raw w) := by
  rw [sampleAverage, sampleAverage, hcfg]
  rfl

/-- Step 2 (R164). -/
theorem sampleDecimate_withCaptureOf {raw : Half} (hcfg : w.cfg = s.cfg)
    (h : sampleDecimate raw w = .ok t) :
    sampleDecimate raw (s.withCaptureOf w) = .ok (s.withCaptureOf t) := by
  refine sampleDecimate_eq_ok.2 ?_
  rw [dc_withCaptureOf hcfg]
  rcases sampleDecimate_eq_ok.1 h with ⟨hk, r, hw, rfl⟩ | ⟨hk, rfl⟩
  · rw [hcfg] at hk hw ⊢
    exact .inl ⟨hk, _, writeHalves_withCaptureOf_of_inCapture hcfg (.inl rfl) hw, rfl⟩
  · rw [hcfg] at hk
    exact .inr ⟨hk, rfl⟩

/-- Step 3 (R165). -/
theorem sampleStore_withCaptureOf {raw : Half} (hcfg : w.cfg = s.cfg) (hactive : w.active = s.active)
    (h : sampleStore raw w = .ok t) :
    sampleStore raw (s.withCaptureOf w) = .ok (s.withCaptureOf t) := by
  obtain ⟨r, hw, rfl⟩ := sampleStore_eq_ok.1 h
  rw [hactive] at hw
  refine sampleStore_eq_ok.2 ⟨s.withCaptureOf r, ?_, rfl⟩
  rw [dc_withCaptureOf hcfg]
  exact writeHalves_withCaptureOf_of_inCapture hcfg (.inr rfl) hw

/-- Step 4 away from the end of the window (R167). -/
theorem sampleFlip_of_ne (an : Analog) (hne : s.writePos ≠ s.cfg.nHigh) : sampleFlip an s = .ok s :=
  sampleFlip_eq_ok.2 (.inr ⟨hne, rfl⟩)

/-- R353: a SAMPLE that does not flip, from any state with the capture part of `w`. -/
theorem execSample_withCaptureOf {raw : Half} {an : Analog} (hcfg : w.cfg = s.cfg)
    (hactive : w.active = s.active) (hne : w.writePos + 1 ≠ w.cfg.nHigh)
    (h : execSample raw an w = .next t) :
    execSample raw an (s.withCaptureOf w) = .next (s.afterSample t) := by
  obtain ⟨hlegal, a, b, c, hdec, hstore, hflip, rfl⟩ := execSample_eq_next.1 h
  have ha := sampleDecimate_frame hdec
  have hacfg : a.cfg = w.cfg := by rw [ha]; rfl
  have haactive : a.active = w.active := by rw [ha]; rfl
  have hapos : a.writePos = w.writePos := by rw [ha]; rfl
  obtain ⟨hb, -⟩ := sampleStore_frame hstore
  have hbpos : b.writePos = w.writePos + 1 := by rw [hb, ← hapos]
  have hbcfg : b.cfg = w.cfg := by rw [hb, ← hacfg]
  have hbne : b.writePos ≠ b.cfg.nHigh := by rwa [hbpos, hbcfg]
  rw [sampleFlip_of_ne an hbne] at hflip
  cases hflip
  refine execSample_eq_next.2 ⟨by rwa [hcfg] at hlegal, _, _, _, ?_,
    sampleStore_withCaptureOf (hacfg.trans hcfg) (haactive.trans hactive) hstore,
    sampleFlip_of_ne an ?_, rfl⟩
  · rw [sampleAverage_withCaptureOf raw hcfg]
    exact sampleDecimate_withCaptureOf (w := sampleAverage raw w) hcfg hdec
  · rw [hbcfg, hcfg] at hbne
    exact hbne

/-! ### The other contexts act on the rest -/

theorem writeHalves_afterSample (hsp : ¬InCapture s.active sp) (h : writeHalves sp base vs s = .ok t) :
    writeHalves sp base vs (s.afterSample w) = .ok (t.afterSample w) := by
  obtain ⟨hrange, ht⟩ := writeHalves_eq_ok.1 (writeHalves_withCaptureOf_of_not_inCapture (w := w) hsp h)
  refine writeHalves_eq_ok.2 ⟨hrange, ?_⟩
  rw [State.afterSample, State.afterSample, ← ht]
  rcases sp with (_ | _) | _ | _ | _ | _ <;> rfl

theorem readHalves_afterSample (hsp : ¬InCapture s.active sp) (base n : Nat) :
    readHalves sp base n (s.afterSample w) = readHalves sp base n s :=
  (readHalves_congr (s := s.withCaptureOf w) (t := s.afterSample w) rfl
    (State.withResult_halves ..) base n).trans (readHalves_withCaptureOf hsp base n)

theorem readBytes_afterSample (sp : ByteSpace) (base n : Nat) (s w : State) :
    readBytes sp base n (s.afterSample w) = readBytes sp base n s := by
  cases sp <;> rfl

theorem writeBytes_afterSample {sp : ByteSpace} {vs : List Byte} (h : writeBytes sp base vs s = .ok t) :
    writeBytes sp base vs (s.afterSample w) = .ok (t.afterSample w) := by
  obtain ⟨hrange, rfl⟩ := writeBytes_eq_ok.1 h
  exact writeBytes_eq_ok.2 ⟨hrange, by cases sp <;> rfl⟩

theorem active_of_writeHalves (h : writeHalves sp base vs s = .ok t) : t.active = s.active := by
  obtain ⟨-, rfl⟩ := writeHalves_eq_ok.1 h
  exact State.setHalves_active ..

theorem not_inCapture_imag (active : Side) : ¬InCapture active .imag := nofun

theorem not_inCapture_lowSnap (active : Side) : ¬InCapture active .lowSnap := nofun

theorem not_inCapture_analogSnap (active : Side) : ¬InCapture active .analogSnap := nofun

/-- The ready side is not the active one (R28). -/
theorem not_inCapture_ready (active : Side) : ¬InCapture active (.high active.other) := by
  rintro (h | h)
  · cases h
  · exact active.other_ne (HalfSpace.high.inj h)

/-- R192: the analysis of a memory of the rest. -/
theorem analyse_afterSample {m : Nat} {buf : List Half} {mag : List Nat} (hsp : ¬InCapture s.active sp)
    (h : analyse sp m buf s = .ok (mag, t)) :
    analyse sp m buf (s.afterSample w) = .ok (mag, t.afterSample w) := by
  obtain ⟨a, im, b, hzero, him, hre, himag, hmag⟩ := analyse_eq_ok.1 h
  have haactive : a.active = s.active := active_of_writeHalves hzero
  refine analyse_eq_ok.2 ⟨a.afterSample w, im, b.afterSample w,
    writeHalves_afterSample (not_inCapture_imag _) hzero, ?_,
    writeHalves_afterSample (by rwa [haactive]) hre,
    writeHalves_afterSample (not_inCapture_imag _) himag, hmag⟩
  rwa [readHalves_afterSample (not_inCapture_imag _)]

theorem execAnlo_afterSample (h : execAnlo s = .next t) :
    execAnlo (s.afterSample w) = .next (t.withCaptureOf w) := by
  obtain ⟨hok, hframe, buf, mag, u, hbuf, hmag, rfl⟩ := execAnlo_eq_next.1 h
  refine execAnlo_eq_next.2 ⟨hok, hframe, buf, mag, u.afterSample w, ?_,
    analyse_afterSample (not_inCapture_lowSnap _) hmag, rfl⟩
  exact (readHalves_afterSample (not_inCapture_lowSnap _) ..).trans hbuf

/-- R222: the results of ANHI are outside the capture part, and its own result record is the later one. -/
theorem setHighResults_afterSample (s w : State) (bands : Vector Half 26) (e m i z : Half) :
    ((s.afterSample w).setHighResults bands e m i z).withResult .empty
      = ((s.setHighResults bands e m i z).withResult .empty).withCaptureOf w := rfl

theorem execAnhi_afterSample (h : execAnhi s = .next t) :
    execAnhi (s.afterSample w) = .next (t.withCaptureOf w) := by
  obtain ⟨hok, hframe, buf, mag, u, hbuf, hmag, rfl⟩ := execAnhi_eq_next.1 h
  refine execAnhi_eq_next.2 ⟨hok, hframe, buf, mag, u.afterSample w, ?_,
    analyse_afterSample (not_inCapture_ready _) hmag, setHighResults_afterSample ..⟩
  exact (readHalves_afterSample (not_inCapture_ready _) ..).trans hbuf

/-- R110: the fields of the frame are outside the capture part. -/
theorem frameBytes_afterSample (s w : State) (accel : List Byte) (analog : List Half) :
    frameBytes (s.afterSample w) accel analog = frameBytes s accel analog := rfl

theorem execEncode_afterSample (h : execEncode s = .next t) :
    execEncode (s.afterSample w) = .next (t.withCaptureOf w) := by
  obtain ⟨hframe, accel, analog, u, sent, haccel, hanalog, hw, hsent, rfl⟩ := execEncode_eq_next.1 h
  refine execEncode_eq_next.2 ⟨hframe, accel, analog, u.afterSample w, sent,
    (readBytes_afterSample ..).trans haccel,
    (readHalves_afterSample (not_inCapture_analogSnap _) ..).trans hanalog, ?_,
    (readBytes_afterSample ..).trans hsent, rfl⟩
  rw [frameBytes_afterSample]
  exact writeBytes_afterSample hw

theorem execTake_afterSample (h : execTake s = .next t) :
    execTake (s.afterSample w) = .next (t.withCaptureOf w) := by
  cases h
  rfl

theorem execRdmode_afterSample (h : execRdmode s = .next t) :
    execRdmode (s.afterSample w) = .next (t.withCaptureOf w) := by
  cases h
  rfl

theorem execPoll_afterSample (h : execPoll s = .next t) :
    execPoll (s.afterSample w) = .next (t.withCaptureOf w) := by
  by_cases hm : s.mode = .idle
  · rw [execPoll_of_idle hm] at h
    cases h
    exact execPoll_of_idle (s := s.afterSample w) hm
  · rw [execPoll_of_ne_idle hm] at h
    cases h
    exact execPoll_of_ne_idle (s := s.afterSample w) hm

theorem execReinit_afterSample (h : execReinit s = .next t) :
    execReinit (s.afterSample w) = .next (t.withCaptureOf w) := by
  by_cases hm : s.mode = .idle ∨ s.mode = .needsReset
  · rw [execReinit_of_atRest hm] at h
    cases h
    exact execReinit_of_atRest (s := s.afterSample w) hm
  · rw [execReinit_of_busy hm] at h
    cases h
    exact execReinit_of_busy (s := s.afterSample w) hm

theorem execDmadone_afterSample (h : execDmadone s = .next t) :
    execDmadone (s.afterSample w) = .next (t.withCaptureOf w) := by
  cases hf : s.dmaTcif with
  | false =>
    rw [execDmadone_of_not_pending hf] at h
    cases h
    exact execDmadone_of_not_pending (s := s.afterSample w) hf
  | true =>
    by_cases hm : s.mode = .reading
    · rw [execDmadone_of_reading hf hm] at h
      cases h
      exact execDmadone_of_reading (s := s.afterSample w) hf hm
    · rw [execDmadone_of_ne_reading hf hm] at h
      cases h
      exact execDmadone_of_ne_reading (s := s.afterSample w) hf hm

theorem execDmawr_afterSample {b : Byte} (h : execDmawr b s = .next t) :
    execDmawr b (s.afterSample w) = .next (t.withCaptureOf w) := by
  refine execDmawr_eq_next.2 ?_
  rcases execDmawr_eq_next.1 h with ⟨h0, rfl⟩ | ⟨hne, hle, u, hw, rfl⟩
  · exact .inl ⟨h0, rfl⟩
  · exact .inr ⟨hne, hle, u.afterSample w, writeBytes_afterSample hw, rfl⟩

theorem ackAll_afterSample (b : BitVec 6) (s w : State) :
    ackAll b (s.afterSample w) = (ackAll b s).afterSample w := by
  rw [ackAll_eq, ackAll_eq]
  rfl

theorem execBusirq_afterSample {b : BitVec 6} (h : execBusirq b s = .next t) :
    execBusirq b (s.afterSample w) = .next (t.withCaptureOf w) := by
  by_cases hb : b &&& errMask = 0
  case neg =>
    rw [execBusirq_of_error hb] at h
    cases h
    exact execBusirq_of_error hb
  case pos =>
    rcases unexpected_or_progress b s.mode with
      hm | ⟨hm, hbit⟩ | ⟨hm, hbit⟩ | ⟨hm, hbit⟩ | hm
    · rw [execBusirq_of_unexpected hb hm] at h
      cases h
      rw [execBusirq_of_unexpected (s := s.afterSample w) hb hm, ackAll_afterSample]
      rfl
    · rw [execBusirq_of_starting hb hm hbit] at h
      cases h
      exact execBusirq_of_starting (s := s.afterSample w) hb hm hbit
    · rw [execBusirq_of_sendingRegister hb hm hbit] at h
      cases h
      exact execBusirq_of_sendingRegister (s := s.afterSample w) hb hm hbit
    · rw [execBusirq_of_stopping hb hm hbit] at h
      cases h
      exact execBusirq_of_stopping (s := s.afterSample w) hb hm hbit
    · rw [execBusirq_of_needsReset hb hm] at h
      cases h
      rw [execBusirq_of_needsReset (s := s.afterSample w) hb hm, ackAll_afterSample]
      rfl

/-- The configuration and the capture part of two states agree. -/
def CaptureKept (s t : State) : Prop :=
  t.cfg = s.cfg ∧ SameCapture s t ∧ t.halves (.high s.active) = s.halves (.high s.active)

theorem MlKeeps.captureKept (h : MlKeeps s t) : CaptureKept s t := by
  obtain ⟨hcapture, -, -, ⟨hcfg, -⟩, hside, -⟩ := h
  exact ⟨hcfg, hcapture, hside⟩

theorem OnlyBus.captureKept (h : OnlyBus s t) : CaptureKept s t := h.busKeeps.mlKeeps.captureKept

theorem DmaKeeps.captureKept (h : DmaKeeps s t) : CaptureKept s t := by
  rw [h]
  exact ⟨rfl, ⟨rfl, rfl, rfl, rfl, rfl, rfl, rfl⟩, halves_high_eq_of_sides rfl rfl _⟩

/-- R317: an operation of these ports leaves the capture part as it was, and does after a SAMPLE what it
does before it. -/
theorem exec_captureKept_and_afterSample {i : Instr}
    (hport : i.op.port = .ml ∨ i.op.port = .bus ∨ i.op.port = .dma) (h : exec i s = .next t) :
    CaptureKept s t ∧ ∀ w, exec i (s.afterSample w) = .next (t.withCaptureOf w) := by
  cases i with
  | isqrt x => simp [Instr.op, Op.port] at hport
  | fsqrt x => simp [Instr.op, Op.port] at hport
  | fft m inv re im => simp [Instr.op, Op.port] at hport
  | sample raw an => simp [Instr.op, Op.port] at hport
  | take => exact ⟨(execTake_keeps h).captureKept, fun _ => execTake_afterSample h⟩
  | anlo => exact ⟨(execAnlo_keeps h).captureKept, fun _ => execAnlo_afterSample h⟩
  | anhi => exact ⟨(execAnhi_keeps h).captureKept, fun _ => execAnhi_afterSample h⟩
  | encode => exact ⟨(execEncode_keeps h).captureKept, fun _ => execEncode_afterSample h⟩
  | poll => exact ⟨(execPoll_frame h).captureKept, fun _ => execPoll_afterSample h⟩
  | reinit => exact ⟨(execReinit_frame h).captureKept, fun _ => execReinit_afterSample h⟩
  | rdmode => exact ⟨(execRdmode_onlyBus h).captureKept, fun _ => execRdmode_afterSample h⟩
  | busirq b => exact ⟨(execBusirq_frame h).captureKept, fun _ => execBusirq_afterSample h⟩
  | dmawr b => exact ⟨(execDmawr_keeps h).captureKept, fun _ => execDmawr_afterSample h⟩
  | dmadone => exact ⟨(execDmadone_frame h).captureKept, fun _ => execDmadone_afterSample h⟩

end

/-- Settles O54: the operation leaves the SAMPLE its capture part, and the SAMPLE leaves the operation the
rest. -/
theorem sampleCommutesWithoutFlip : Obligations.SampleCommutesWithoutFlip := by
  intro i raw an s a b hport hne ha hb
  obtain ⟨⟨hcfg, hcapture, hside⟩, hsecond⟩ := exec_captureKept_and_afterSample hport ha
  have ⟨_, _, _, _, hpos, hactive, _⟩ := hcapture
  have hnea : a.writePos + 1 ≠ a.cfg.nHigh := by rwa [hpos, hcfg]
  have hfirst : execSample raw an s = .next (s.afterSample b) := by
    have h := execSample_withCaptureOf hcfg hactive hnea hb
    rwa [State.withCaptureOf_eq_self hcapture hside] at h
  have hb_eq : a.afterSample b = b := by
    have h := execSample_withCaptureOf rfl rfl hnea hb
    rw [State.withCaptureOf_eq_self ⟨rfl, rfl, rfl, rfl, rfl, rfl, rfl⟩ rfl] at h
    exact Host.Outcome.next.inj (h.symm.trans hb)
  have hb_result : b.result = .empty := by
    rw [← hb_eq]
    rfl
  refine ⟨s.afterSample b, a.withCaptureOf b, hfirst, hsecond b, ?_, rfl⟩
  rw [hb_result]
  exact hb_eq

end Sys2Proof.Machine
